-- ==== Sys2Proof/Word.lean ====
section
/-! DEFINITION. The word types of the Huffman encoder core: the 16-bit command word and the 8-bit byte (00_scope.md R6, R7). -/

namespace Sys2Proof

/-- A byte: an operand of a B-format command, a byte of the file name, a byte of `OUT`. -/
abbrev Byte := BitVec 8

/-- A command word, `CMD_W` = 16 bits (00_scope.md R6); bit 0 is the least significant (R7). -/
abbrev Word := BitVec 16

end Sys2Proof
end

