-- ==== Sys2Proof/Config.lean ====
section
/-! DEFINITION. The implementation parameters of 00_scope.md R6: the fixed ones as constants, `FREQ_W` and `NAME_MAX` as a
record a model takes as an argument (log 1). No free value is needed: the spec leaves no command's result open (60_exceptions.md R170). -/

namespace Sys2Proof

/-- `NSYM` (R6): 256 byte values and the end-of-stream symbol. -/
def nsym : Nat := 257

/-- `EOS` (R6): the end-of-stream symbol. -/
def eos : Nat := 256

/-- `TABLE_SLOTS` (R6; 90_conflicts.md C1): slots of `TABLE`, indices 0 to 512. -/
def tableSlots : Nat := 513

/-- `CODE_MAX` (R6): the largest possible code length in bits. -/
def codeMax : Nat := 256

/-- The two parameters left open by R6 (decisions D7, D8; 93_implementation_defined.md V4). -/
structure Config where
  /-- `FREQ_W`: width in bits of every frequency, of `LEN` and of `ENCCNT`. -/
  freqW : Nat
  /-- `NAME_MAX`: capacity in bytes of the file-name buffer. -/
  nameMax : Nat
  deriving DecidableEq, Repr

/-- The defaults of R6: `FREQ_W` = 32, `NAME_MAX` = 256. -/
def Config.default : Config := { freqW := 32, nameMax := 256 }

/-- `LEN_MAX` = `2^FREQ_W − 2` (R6). -/
def Config.lenMax (c : Config) : Nat := 2 ^ c.freqW - 2

/-- The values R6 allows, as the model reads them (log 1): the counts have at least one bit, so that the end-of-stream
count 1 fits, and `NAMELEN` fits in the non-negative half of an int32, so that `le32` (R8) is defined on it. -/
abbrev Config.wf (c : Config) : Prop := 1 ≤ c.freqW ∧ c.nameMax < 2 ^ 31

end Sys2Proof
end

