-- ==== Sys2Proof/Syntax.lean ====
section
/-! DEFINITION. The ten commands of HUFFCMD version 1 (30_encoding.md R83; opcode_table.json), one constructor a row. -/

namespace Sys2Proof

/-- A command. A B-format command carries its operand byte `d` (R82); a Z-format command carries nothing (R81). -/
inductive Instr where
  /-- 45_control.md R160. -/
  | nop
  /-- 45_control.md R161. -/
  | clr
  /-- 44_artifact_writer.md R150. -/
  | name (d : Byte)
  /-- 40_frequency_analyzer.md R100. -/
  | cnt (d : Byte)
  /-- 40_frequency_analyzer.md R101. -/
  | eop
  /-- 41_table_builder.md R110. -/
  | build
  /-- 42_code_generator.md R130. -/
  | walk
  /-- 44_artifact_writer.md R151. -/
  | hdr
  /-- 43_bit_packer.md R141. -/
  | enc (d : Byte)
  /-- 43_bit_packer.md R142. -/
  | fin
  deriving DecidableEq, Repr

/-- A command's mnemonic (R83). -/
def Instr.mnemonic : Instr → String
  | .nop => "NOP"
  | .clr => "CLR"
  | .name _ => "NAME"
  | .cnt _ => "CNT"
  | .eop => "EOP"
  | .build => "BUILD"
  | .walk => "WALK"
  | .hdr => "HDR"
  | .enc _ => "ENC"
  | .fin => "FIN"

/-- The two formats of a command word (R81, R82). -/
inductive Format where
  /-- No operand: bits 7:0 must be zero (R81). -/
  | z
  /-- One byte operand in bits 7:0 (R82). -/
  | b
  deriving DecidableEq, Repr

end Sys2Proof
end

