-- ==== Sys2Proof/Machine/State.lean ====
section
/-! DEFINITION. The state of the Huffman encoder core (10_state.md R20: registers, memories, output history), its value at reset
(R44), and the reasons a step of the model can stop. -/

namespace Sys2Proof.Machine

/-- `PHASE`, the control position (10_state.md R22): the seven values it takes; value 6 is never taken (log 12). -/
inductive Phase where
  /-- 0: collecting the file name and counting input bytes. -/
  | load
  /-- 1: histogram closed, `K` known. -/
  | counted
  /-- 2: `TABLE` holds the merge tree. -/
  | built
  /-- 3: `CODELEN`, `CODEBITS` hold the codes. -/
  | coded
  /-- 4: header and table emitted; encoding input bytes. -/
  | encode
  /-- 5: artifact complete in `OUT`. -/
  | done
  /-- 7: a fatal error was raised; waits for `CLR` or reset. -/
  | error
  deriving DecidableEq, Repr

/-- `ERR`, the error code (10_state.md R23, 60_exceptions.md R171); codes 8 to 15 are never written (log 12). -/
inductive ErrCode where
  /-- 0: no error. -/
  | noError
  /-- 1: the word is illegal. -/
  | illegalCmd
  /-- 2: the command is not accepted in the current phase. -/
  | protocol
  /-- 3: `NAMELEN = NAME_MAX` already. -/
  | nameOverflow
  /-- 4: `LEN = LEN_MAX` already. -/
  | countOverflow
  /-- 5: `K < 2`, the empty input. -/
  | degenerate
  /-- 6: the symbol has no code. -/
  | missingCode
  /-- 7: pass 2 has more or fewer bytes than pass 1. -/
  | lengthMismatch
  deriving DecidableEq, Repr

/-- The internal memories a model access can be wrong about (20_memory.md R60). -/
inductive MemName where
  | table
  | codeLen
  | codeBits
  | nameBuf
  deriving DecidableEq, Repr

/-- One TableEntry (10_state.md R33): `glyph` in −1 .. 256, `freq`, `left` and `right` in −1 .. 512, where the only negative
value is −1 (00_scope.md R7). -/
structure TableEntry where
  glyph : Int
  freq : Nat
  left : Int
  right : Int
  deriving DecidableEq, Repr

/-- An internal memory: its written entries as (index, entry) pairs, indices strictly rising, no entry equal to what an unlisted
index reads as (log 6). `Memory Byte` is a list of `Host.Cell`. -/
abbrev Memory (α : Type) := List (Nat × α)

/-- An input from the host (00_scope.md R5, 30_encoding.md R80, 70_reset_and_hazards.md R190; log 2, log 4). -/
inductive HostInput where
  /-- A command word offered on the command port. -/
  | word (w : Word)
  /-- The reset input asserted and released. -/
  | reset
  deriving DecidableEq, Repr

/-- The whole state: exactly the state of 10_state.md R20, and the model's own `input` (log 2) and `cfg` (log 1). -/
structure State where
  /-- `PHASE`, R22. -/
  phase : Phase
  /-- `ERR`, R23. -/
  err : ErrCode
  /-- `ERRW`, R24. -/
  errw : Word
  /-- `NAMELEN`, R26; range 0 .. NAME_MAX. -/
  nameLen : Nat
  /-- `LEN`, R27; range 0 .. LEN_MAX. -/
  len : Nat
  /-- `ENCCNT`, R28; range 0 .. LEN_MAX. -/
  encCnt : Nat
  /-- `K`, R29; range 0 .. 257. -/
  k : Nat
  /-- `HEAPEND`, R30; range 0 .. 256. -/
  heapEnd : Nat
  /-- `FIRSTFREE`, R30; range 0 .. 512. -/
  firstFree : Nat
  /-- `ACC`, R31. -/
  acc : Byte
  /-- `NBITS`, R31; range 0 .. 7. -/
  nbits : Fin 8
  /-- `FREQ`, R32: index 0 .. 256; an unlisted entry reads 0. -/
  freq : Memory Nat
  /-- `TABLE`, R33: index 0 .. 512; an unlisted entry holds no value. -/
  table : Memory TableEntry
  /-- `CODELEN`, R36: index 0 .. 256; an unlisted entry reads 0. -/
  codeLen : Memory Nat
  /-- `CODEBITS`, R36: index 0 .. 256; an entry lists the bits that hold a value, position 0 first (log 8). -/
  codeBits : Memory (List Bool)
  /-- `NAMEBUF`, R38: index 0 .. NAME_MAX − 1; an unlisted entry holds no value. -/
  nameBuf : List Host.Cell
  /-- `OUT`, R37: every byte emitted since the last reset or `CLR`, oldest first. -/
  out : List Byte
  /-- The host's inputs not yet consumed, oldest first (the model's own field, log 2). -/
  input : List HostInput
  /-- The parameters of 00_scope.md R6 (the model's own field, log 1). -/
  cfg : Config
  deriving DecidableEq, Repr

/-- The state after reset of a block with the given parameters (10_state.md R44, 70_reset_and_hazards.md R190). -/
def State.resetWith (cfg : Config) : State :=
  { phase := .load, err := .noError, errw := 0#16, nameLen := 0, len := 0, encCnt := 0, k := 0, heapEnd := 0, firstFree := 0,
    acc := 0#8, nbits := 0, freq := [], table := [], codeLen := [], codeBits := [], nameBuf := [], out := [], input := [],
    cfg := cfg }

/-- The state after reset (R44) with the default parameters of 00_scope.md R6 and no input waiting. -/
def State.reset : State := State.resetWith Config.default

/-- The registers and the memory `BUILD` works on (41_table_builder.md R113). -/
structure Builder where
  table : Memory TableEntry
  heapEnd : Nat
  firstFree : Nat
  deriving DecidableEq, Repr

/-- The memories `WALK` writes (42_code_generator.md R130). -/
structure Codes where
  codeLen : Memory Nat
  codeBits : Memory (List Bool)
  deriving DecidableEq, Repr

/-- The byte aligner and the stream it feeds (43_bit_packer.md R140). -/
structure Packer where
  acc : Byte
  nbits : Fin 8
  out : List Byte
  deriving DecidableEq, Repr

/-- What the acceptance table (30_encoding.md R89) says of a command in a phase. -/
inductive Acceptance where
  /-- `ok`: the command executes by its own rule. -/
  | accepted
  /-- `P`: it raises `Error(PROTOCOL)`. -/
  | outOfPhase
  /-- `-`: it is ignored: no state changes at all. -/
  | ignored
  deriving DecidableEq, Repr

/-- Faults of the model: the accesses no rule makes (20_memory.md R61, R72). The errors of the hardware are no faults: they are
next states in phase `ERROR` (60_exceptions.md R172). -/
inductive Fault where
  /-- An access outside a memory's index range (20_memory.md R61). Raised by the reads and writes of Machine/Memory.lean, reached
  from `BUILD`, `WALK`, `HDR`, `ENC`, `FIN`, `NAME` only in states no run reaches. Safe: the model stops where the spec has no
  state at all. -/
  | outOfRange (m : MemName) (i : Int)
  /-- A read of an entry that holds no value (20_memory.md R72). Raised by `BUILD`, `WALK`, `HDR`, `ENC`, `FIN` only in states no
  run reaches. Safe. -/
  | unwritten (m : MemName) (i : Nat)
  /-- A read of a bit of `CODEBITS` at a position that holds no value (10_state.md R36, 93 V3). Raised by `ENC`, `FIN` only in
  states no run reaches. Safe. -/
  | noCodeBit (s : Nat)
  /-- A walk deeper than `CODE_MAX` edges: the code does not fit in `CODEBITS` (42_code_generator.md R130). Raised by `WALK` only
  on a table that is no tree of a run (log 9). Safe. -/
  | codeTooLong
  deriving DecidableEq, Repr

/-- Refusals. No meaning of this model refuses; the constructor is the one the host's form asks for. -/
inductive Refusal where
  /-- An instruction without a meaning, named as the opcode table names it. Raised by no arm of this model. Safe. -/
  | notModelled (mnemonic : String)
  deriving DecidableEq, Repr

/-- The outcome of a step of this machine. -/
abbrev Result := Host.Outcome State Fault Refusal

end Sys2Proof.Machine
end

