-- ==== Sys2Proof/Machine/Memory.lean ====
section
/-! DEFINITION. The internal memories (20_memory.md R60): lookup and update of a memory in its canonical form, and `MemRead` and
`MemWrite` (00_scope.md R8) for each of the five, with the index ranges of R60. An access outside a range, and a read of an entry
that holds no value, are faults of the model (R61, R72). -/

namespace Sys2Proof.Machine

/-- The entry listed at an index, if any. -/
def memFind {α : Type} : Memory α → Nat → Option α
  | [], _ => none
  | (b, v) :: m, a => if b = a then some v else memFind m a

/-- The memory with the entry at index `a` listed as `v`, indices kept rising. -/
def memPut {α : Type} : Memory α → Nat → α → Memory α
  | [], a, v => [(a, v)]
  | (b, w) :: m, a, v =>
    if a < b then (a, v) :: (b, w) :: m
    else if a = b then (a, v) :: m
    else (b, w) :: memPut m a v

/-- The memory with nothing listed at index `a`. -/
def memErase {α : Type} : Memory α → Nat → Memory α
  | [], _ => []
  | (b, w) :: m, a => if b = a then m else (b, w) :: memErase m a

/-- What an unlisted entry of each kind of memory reads as: 0 in `FREQ` and `CODELEN` (10_state.md R44). -/
def countBlank : Option Nat := some 0

/-- What an unlisted entry of `TABLE`, `CODEBITS`, `NAMEBUF` reads as: it holds no value (10_state.md R44, 20_memory.md R72). -/
def noValue {α : Type} : Option α := none

/-- The canonical form of a memory of `size` entries whose unlisted entries read as `blank`: indices strictly rising and in
range, and no entry equal to what an unlisted index reads as. -/
abbrev Memory.wf {α : Type} [DecidableEq α] (blank : Option α) (size : Nat) (m : Memory α) : Prop :=
  m.Pairwise (fun x y => x.1 < y.1) ∧ ∀ c ∈ m, c.1 < size ∧ some c.2 ≠ blank

/-- Read an entry of a memory whose unlisted entries read 0 (`FREQ`, `CODELEN`). Every index its callers form is in 0 .. 256: a
byte, `EOS`, a loop index below `NSYM`, or a checked glyph (20_memory.md R61). -/
def countAt (m : Memory Nat) (s : Nat) : Nat := (memFind m s).getD 0

/-- Write an entry of a memory whose unlisted entries read 0, keeping zero entries unlisted. -/
def setCount (m : Memory Nat) (s v : Nat) : Memory Nat :=
  if v = 0 then memErase m s else memPut m s v

/-- `MemRead` of a memory whose unlisted entries hold no value. -/
def memRead {α : Type} (name : MemName) (size : Nat) (m : Memory α) (i : Nat) : Except Fault α :=
  if i < size then
    match memFind m i with
    | some v => .ok v
    | none => .error (.unwritten name i)
  else .error (.outOfRange name (Int.ofNat i))

/-- `MemWrite` of a memory whose unlisted entries hold no value. -/
def memWrite {α : Type} (name : MemName) (size : Nat) (m : Memory α) (i : Nat) (v : α) : Except Fault (Memory α) :=
  if i < size then .ok (memPut m i v) else .error (.outOfRange name (Int.ofNat i))

/-- `TABLE[i]` (10_state.md R33; index 0 .. 512). -/
def readTable (t : Memory TableEntry) (i : Nat) : Except Fault TableEntry := memRead .table tableSlots t i

/-- `TABLE[i] <- e`, all four fields at once (20_memory.md R66). -/
def writeTable (t : Memory TableEntry) (i : Nat) (e : TableEntry) : Except Fault (Memory TableEntry) :=
  memWrite .table tableSlots t i e

/-- `TABLE[c]` for a child index `c`, which is a signed field (10_state.md R33): a negative index is out of range. -/
def readChild (t : Memory TableEntry) (c : Int) : Except Fault TableEntry :=
  match c with
  | .ofNat i => readTable t i
  | .negSucc n => .error (.outOfRange .table (.negSucc n))

/-- `NAMEBUF[i]` (10_state.md R38; index 0 .. NAME_MAX − 1). -/
def readName (cfg : Config) (m : List Host.Cell) (i : Nat) : Except Fault Byte := memRead .nameBuf cfg.nameMax m i

/-- `NAMEBUF[i] <- d`. -/
def writeName (cfg : Config) (m : List Host.Cell) (i : Nat) (d : Byte) : Except Fault (List Host.Cell) :=
  memWrite .nameBuf cfg.nameMax m i d

/-- The code of symbol `s` that `CODELEN[s] = n` and `CODEBITS[s]` hold: the bits at positions 0 .. n − 1 (10_state.md R36).
A symbol of length 0 has no bits to read. -/
def readCode (c : Codes) (s : Nat) : Except Fault (List Bool) :=
  if countAt c.codeLen s = 0 then .ok []
  else
    match memRead .codeBits nsym c.codeBits s with
    | .error f => .error f
    | .ok bits => if bits.length < countAt c.codeLen s then .error (.noCodeBit s) else .ok (bits.take (countAt c.codeLen s))

/-- `CODELEN[g] <- len(p)`, `CODEBITS[g] <- p` (42_code_generator.md R130) for a glyph `g`, which is a signed field: a glyph outside
0 .. 256 is no index of the two memories. -/
def recordCode (c : Codes) (g : Int) (p : List Bool) : Except Fault Codes :=
  match g with
  | .ofNat s =>
    if s < nsym then .ok { codeLen := setCount c.codeLen s p.length, codeBits := memPut c.codeBits s p }
    else .error (.outOfRange .codeLen (.ofNat s))
  | .negSucc n => .error (.outOfRange .codeLen (.negSucc n))

end Sys2Proof.Machine
end

