-- ==== Sys2Proof/Machine/Operands.lean ====
section
/-! DEFINITION. The operand forms and the integers of the artifact: a B-format command's byte as a symbol (30_encoding.md R82), and
`le32` (00_scope.md R8, 20_memory.md R62, R64). A Z-format command has no operand (R81). -/

namespace Sys2Proof.Machine

/-- The operand byte as a symbol: its unsigned value, not sign-extended, scaled or shifted (30_encoding.md R82). -/
def symbolOf (d : Byte) : Nat := d.toNat

/-- The 32-bit two's-complement word of a signed integer, `sext_32` (00_scope.md R8): defined there for −2^31 ≤ v < 2^31; outside
that range the model keeps the low 32 bits (log 20). -/
def sext32 (v : Int) : BitVec 32 := BitVec.ofInt 32 v

/-- The four bytes of a word, least significant byte first (20_memory.md R62). -/
def bytesLE (w : BitVec 32) : List Byte :=
  [w.extractLsb' 0 8, w.extractLsb' 8 8, w.extractLsb' 16 8, w.extractLsb' 24 8]

/-- `le32(v)` (00_scope.md R8): the little-endian bytes of `sext_32(v)`; −1 is `FF FF FF FF` (20_memory.md R64). -/
def le32 (v : Int) : List Byte := bytesLE (sext32 v)

end Sys2Proof.Machine
end

