-- ==== Sys2Proof/WellFormed.lean ====
section
/-! DEFINITION. Which command words are legal: the three conditions of 30_encoding.md R84, and the opcode map of R83 as a table of
match and mask. Every term of `Instr` is well formed by its type (its only operand is a `Byte`, R82), so the checks are on words.
The decoder (Decode.lean) is written from R86 and uses none of these. -/

namespace Sys2Proof

/-- R84, first condition: `W[11:8]` must be 0. -/
def rsvClear (w : Word) : Bool := w &&& 0x0F00#16 == 0#16

/-- R84, second condition: `W[15:12]` must not be in `0xA .. 0xF`. -/
def opDefined (w : Word) : Bool := decide (w < 0xA000#16)

/-- Whether `W[15:12]` is the opcode of a B-format command: `NAME` 2, `CNT` 3, `ENC` 8 (R82, R83). -/
def isFormatB (w : Word) : Bool :=
  w &&& 0xF000#16 == 0x2000#16 || w &&& 0xF000#16 == 0x3000#16 || w &&& 0xF000#16 == 0x8000#16

/-- R84, third condition: a Z-format command must have `W[7:0]` = 0. -/
def lowClear (w : Word) : Bool := isFormatB w || w &&& 0x00FF#16 == 0#16

/-- A word is legal when none of R84's three conditions makes it illegal. -/
def legalWord (w : Word) : Bool := rsvClear w && opDefined w && lowClear w

/-- One row of the opcode map (R83): a word `W` is the command when `(W & mask) = match`. -/
structure OpcodeRow where
  mnemonic : String
  format : Format
  matchBits : Word
  mask : Word
  deriving DecidableEq, Repr

/-- The opcode map, R83, row by row. -/
def opcodeMap : List OpcodeRow := [
  ⟨"NOP", .z, 0x0000#16, 0xFFFF#16⟩,
  ⟨"CLR", .z, 0x1000#16, 0xFFFF#16⟩,
  ⟨"NAME", .b, 0x2000#16, 0xFF00#16⟩,
  ⟨"CNT", .b, 0x3000#16, 0xFF00#16⟩,
  ⟨"EOP", .z, 0x4000#16, 0xFFFF#16⟩,
  ⟨"BUILD", .z, 0x5000#16, 0xFFFF#16⟩,
  ⟨"WALK", .z, 0x6000#16, 0xFFFF#16⟩,
  ⟨"HDR", .z, 0x7000#16, 0xFFFF#16⟩,
  ⟨"ENC", .b, 0x8000#16, 0xFF00#16⟩,
  ⟨"FIN", .z, 0x9000#16, 0xFFFF#16⟩]

/-- A word is the command of a row when `(W & mask) = match` (R83). -/
def OpcodeRow.hits (r : OpcodeRow) (w : Word) : Bool := w &&& r.mask == r.matchBits

end Sys2Proof
end

