-- ==== Sys2Proof/Decode.lean ====
section
/-! DEFINITION. The decode function of 30_encoding.md R86, total on all 65536 words, rejecting by name, and after it the encoder,
written from the formats R81, R82 and the opcode map R83. -/

namespace Sys2Proof

/-- Why a word is illegal (R84), in the order R86 tests. -/
inductive DecodeError where
  /-- `W[11:8]` is not 0. -/
  | reservedBits
  /-- `W[15:12]` is in `0xA .. 0xF`. -/
  | reservedOpcode
  /-- A Z-format command with `W[7:0]` not 0. -/
  | nonzeroLowByte
  deriving DecidableEq, Repr

/-- `op = W[15:12]` (R81, R82). -/
def opField (w : Word) : BitVec 4 := w.extractLsb' 12 4

/-- `rsv = W[11:8]` (R81, R82). -/
def rsvField (w : Word) : BitVec 4 := w.extractLsb' 8 4

/-- `d = W[7:0]` (R82), and `zero` of R81. -/
def lowField (w : Word) : Byte := w.extractLsb' 0 8

/-- A Z-format command: `i`, when the low byte is zero (R81, R86). -/
def decodeZ (i : Instr) (d : Byte) : Except DecodeError Instr :=
  if d = 0#8 then .ok i else .error .nonzeroLowByte

/-- The command an opcode selects, given the low byte (R83, R86). -/
def decodeOp (op : BitVec 4) (d : Byte) : Except DecodeError Instr :=
  match op.toNat with
  | 0 => decodeZ .nop d
  | 1 => decodeZ .clr d
  | 2 => .ok (.name d)
  | 3 => .ok (.cnt d)
  | 4 => decodeZ .eop d
  | 5 => decodeZ .build d
  | 6 => decodeZ .walk d
  | 7 => decodeZ .hdr d
  | 8 => .ok (.enc d)
  | 9 => decodeZ .fin d
  | _ => .error .reservedOpcode

/-- The decode function (R86): reserved bits first, then the opcode, then a Z-format command's low byte. -/
def decode (w : Word) : Except DecodeError Instr :=
  if rsvField w ≠ 0#4 then .error .reservedBits else decodeOp (opField w) (lowField w)

/-- The opcode of a command (R83). -/
def opcodeOf : Instr → BitVec 4
  | .nop => 0x0#4
  | .clr => 0x1#4
  | .name _ => 0x2#4
  | .cnt _ => 0x3#4
  | .eop => 0x4#4
  | .build => 0x5#4
  | .walk => 0x6#4
  | .hdr => 0x7#4
  | .enc _ => 0x8#4
  | .fin => 0x9#4

/-- Bits 7:0 of a command's word: the operand of a B-format command (R82), zero otherwise (R81). -/
def operandOf : Instr → Byte
  | .name d => d
  | .cnt d => d
  | .enc d => d
  | .nop => 0#8
  | .clr => 0#8
  | .eop => 0#8
  | .build => 0#8
  | .walk => 0#8
  | .hdr => 0#8
  | .fin => 0#8

/-- The word of a command: opcode in 15:12, `rsv` = 0 in 11:8, the operand or zero in 7:0 (R81, R82). -/
def encode (i : Instr) : Word := opcodeOf i ++ 0#4 ++ operandOf i

/-- The command word whose bits are the low `nbits` bits of `w`, every bit above them 0: a command is one 16-bit word that
arrives whole on the command port, so no byte order is involved (20_memory.md R65, 30_encoding.md R80, R85). -/
def tableWord (nbits w : Nat) : Word := BitVec.ofNat 16 (w % 2 ^ nbits)

/-- The command the decoder reads from a word numbered as spec/opcode_table.json numbers it. -/
def decodeTableWord (nbits w : Nat) : Option Instr := (decode (tableWord nbits w)).toOption

end Sys2Proof
end

