-- ==== Sys2Proof/Machine/Ops.lean ====
section
/-! DEFINITION. The named operations over the state: the register updates, raising an error (60_exceptions.md R172), the acceptance
table and the dispatch that stands before every command (30_encoding.md R89, 60 R170), `emit` (00_scope.md R8), and the return of
every piece of state to its reset value (45_control.md R161, 70 R190). -/

namespace Sys2Proof.Machine

/-- `PHASE <- p` (00_scope.md R8). -/
def State.withPhase (s : State) (p : Phase) : State := { s with phase := p }

/-- `ERR <- code; ERRW <- W; PHASE <- ERROR` (60_exceptions.md R172). -/
def State.withError (s : State) (code : ErrCode) (w : Word) : State := { s with err := code, errw := w, phase := .error }

/-- The name buffer and `NAMELEN`, the state `NAME` writes. -/
def State.withName (s : State) (buf : List Host.Cell) (n : Nat) : State := { s with nameBuf := buf, nameLen := n }

/-- `FREQ` and `LEN`, the state `CNT` writes. -/
def State.withCount (s : State) (f : Memory Nat) (n : Nat) : State := { s with freq := f, len := n }

/-- `FREQ` and `K`, the state `EOP` writes besides `PHASE`. -/
def State.withHistogram (s : State) (f : Memory Nat) (k : Nat) : State := { s with freq := f, k := k }

/-- `TABLE`, `HEAPEND` and `FIRSTFREE`, the state `BUILD` writes besides `PHASE`. -/
def State.withBuilder (s : State) (b : Builder) : State :=
  { s with table := b.table, heapEnd := b.heapEnd, firstFree := b.firstFree }

/-- `CODELEN` and `CODEBITS`, the state `WALK` writes besides `PHASE`. -/
def State.withCodes (s : State) (c : Codes) : State := { s with codeLen := c.codeLen, codeBits := c.codeBits }

/-- `OUT`. -/
def State.withOut (s : State) (o : List Byte) : State := { s with out := o }

/-- `ACC`, `NBITS` and `OUT`, the state the Bit Packer writes. -/
def State.withPacker (s : State) (p : Packer) : State := { s with acc := p.acc, nbits := p.nbits, out := p.out }

/-- `ENCCNT`. -/
def State.withEncCnt (s : State) (n : Nat) : State := { s with encCnt := n }

/-- The host's inputs not yet consumed (log 2). -/
def State.withInput (s : State) (q : List HostInput) : State := { s with input := q }

/-- The codes the state holds (10_state.md R36). -/
def State.codes (s : State) : Codes := { codeLen := s.codeLen, codeBits := s.codeBits }

/-- The byte aligner the state holds (10_state.md R31, R37). -/
def State.packer (s : State) : Packer := { acc := s.acc, nbits := s.nbits, out := s.out }

/-- `emit(s)` for a byte sequence: append its bytes to `OUT` in order (00_scope.md R8). -/
def State.emit (s : State) (bytes : List Byte) : State := s.withOut (s.out ++ bytes)

/-- Every piece of state at its reset value (10_state.md R44; 45_control.md R161); the parameters and the inputs still waiting
are no state of the block (log 1, log 2). -/
def State.cleared (s : State) : State :=
  { s with
    phase := .load, err := .noError, errw := 0#16, nameLen := 0, len := 0, encCnt := 0, k := 0, heapEnd := 0, firstFree := 0,
    acc := 0#8, nbits := 0, freq := [], table := [], codeLen := [], codeBits := [], nameBuf := [], out := [] }

/-- The end of a command's work: the state it computed, or the fault of the model it met. -/
def finish : Except Fault State → Result
  | .ok s => .next s
  | .error f => .fault f

/-- `raise Error(code)` on the command word `w` (60_exceptions.md R172): the one way into phase `ERROR`. -/
def raise (code : ErrCode) (w : Word) (s : State) : Result := .next (s.withError code w)

/-- `raise Error(code)` by the command `i`: `ERRW` gets the word being executed, which is `encode i`, the only word of `i`
(log 13). -/
def raiseBy (i : Instr) (code : ErrCode) (s : State) : Result := raise code (encode i) s

/-- A command accepted in one phase only (30_encoding.md R89). -/
def onlyIn (home p : Phase) : Acceptance :=
  if p = .error then .ignored else if p = home then .accepted else .outOfPhase

/-- The acceptance table (30_encoding.md R89), row by row. -/
def acceptance : Instr → Phase → Acceptance
  | .nop, _ => .accepted
  | .clr, _ => .accepted
  | .name _, p => onlyIn .load p
  | .cnt _, p => onlyIn .load p
  | .eop, p => onlyIn .load p
  | .build, p => onlyIn .counted p
  | .walk, p => onlyIn .built p
  | .hdr, p => onlyIn .coded p
  | .enc _, p => onlyIn .encode p
  | .fin, p => onlyIn .encode p

/-- The dispatch before every command (60_exceptions.md R170): ignored, `Error(PROTOCOL)`, or the command's own rule. -/
def dispatch (i : Instr) (s : State) (rule : State → Result) : Result :=
  match acceptance i s.phase with
  | .accepted => rule s
  | .outOfPhase => raiseBy i .protocol s
  | .ignored => .next s

/-- An illegal word (30_encoding.md R84, 60_exceptions.md R170): ignored in phase `ERROR`, else `Error(ILLEGAL_CMD)`. -/
def execIllegal (w : Word) (s : State) : Result :=
  if s.phase = .error then .next s else raise .illegalCmd w s

/-- The reset input asserted and released (70_reset_and_hazards.md R190): every piece of state at its reset value. -/
def applyReset (s : State) : Result := .next s.cleared

/-- Between commands the block is idle and keeps all its state (60_exceptions.md R184; log 3). -/
def idle (s : State) : Result := .next s

end Sys2Proof.Machine
end

