-- ==== Sys2Proof/Machine/TableBuilder.lean ====
section
/-! DEFINITION. The Table Builder (41_table_builder.md): `BUILD` and its sub-operations `MATERIALIZE`, `SORT`, `SIFTDOWN`, `REHEAP`,
`MERGE_ITER` and `FINAL_MERGE`, each as its pseudocode has it. -/

namespace Sys2Proof.Machine

/-- `Leaf(s, f)` (00_scope.md R8). -/
def leaf (s f : Nat) : TableEntry := { glyph := Int.ofNat s, freq := f, left := -1, right := -1 }

/-- `Merge(f, l, r)` (00_scope.md R8). -/
def mergeNode (f l r : Nat) : TableEntry := { glyph := -1, freq := f, left := Int.ofNat l, right := Int.ofNat r }

/-- The loop of `MATERIALIZE` over the symbols left, `j` the next slot (R111). -/
def materializeFrom (f : Memory Nat) : List Nat → Nat → Memory TableEntry → Except Fault (Memory TableEntry)
  | [], _, t => .ok t
  | s :: rest, j, t =>
    if 0 < countAt f s then
      match writeTable t j (leaf s (countAt f s)) with
      | .ok t' => materializeFrom f rest (j + 1) t'
      | .error e => .error e
    else materializeFrom f rest j t

/-- `MATERIALIZE` (R111): a leaf for every present symbol, symbols ascending, slots from 0. -/
def materialize (f : Memory Nat) (t : Memory TableEntry) : Except Fault (Memory TableEntry) :=
  materializeFrom f (List.range nsym) 0 t

/-- The order of `SORT` (R112): ascending by the pair `(freq, glyph)`. -/
abbrev leafLe (a b : TableEntry) : Prop := a.freq < b.freq ∨ (a.freq = b.freq ∧ a.glyph ≤ b.glyph)

/-- The `n` entries from slot `i` on. -/
def readSlots (t : Memory TableEntry) (i : Nat) : Nat → Except Fault (List TableEntry)
  | 0 => .ok []
  | n + 1 =>
    match readTable t i with
    | .error e => .error e
    | .ok x =>
      match readSlots t (i + 1) n with
      | .error e => .error e
      | .ok xs => .ok (x :: xs)

/-- Write a list of entries into the slots from `i` on. -/
def writeSlots (t : Memory TableEntry) (i : Nat) : List TableEntry → Except Fault (Memory TableEntry)
  | [] => .ok t
  | x :: xs =>
    match writeTable t i x with
    | .error e => .error e
    | .ok t' => writeSlots t' (i + 1) xs

/-- `SORT` (R112): the entries of slots 0 .. K − 1 in the order `leafLe`; any sorting circuit gives this result (log 17). -/
def sortLeaves (k : Nat) (t : Memory TableEntry) : Except Fault (Memory TableEntry) :=
  match readSlots t 0 k with
  | .error e => .error e
  | .ok xs => writeSlots t 0 (xs.insertionSort leafLe)

/-- One comparison of `SIFTDOWN` (R115): `if c < n and TABLE[c].freq < TABLE[s].freq: s <- c`. -/
def pickSmaller (t : Memory TableEntry) (n c s : Nat) : Except Fault Nat :=
  if c < n then
    match readTable t c, readTable t s with
    | .ok x, .ok y => .ok (if x.freq < y.freq then c else s)
    | .error e, _ => .error e
    | _, .error e => .error e
  else .ok s

/-- `swap TABLE[i] and TABLE[j]`, whole entries (R115). -/
def swapSlots (t : Memory TableEntry) (i j : Nat) : Except Fault (Memory TableEntry) :=
  match readTable t i, readTable t j with
  | .ok x, .ok y =>
    match writeTable t i y with
    | .ok t' => writeTable t' j x
    | .error e => .error e
  | .error e, _ => .error e
  | _, .error e => .error e

/-- The slot `SIFTDOWN` continues at from slot `i` (R115): `2i+1` if it is in the heap and smaller, then `2i+2` if it is smaller
than that. -/
def siftTarget (t : Memory TableEntry) (i n : Nat) : Except Fault Nat :=
  match pickSmaller t n (2 * i + 1) i with
  | .error e => .error e
  | .ok s => pickSmaller t n (2 * i + 2) s

/-- The loop of `SIFTDOWN` with a bound on its turns (R115). -/
def siftLoop : Nat → Nat → Nat → Memory TableEntry → Except Fault (Memory TableEntry)
  | 0, _, _, t => .ok t
  | turns + 1, i, n, t =>
    match siftTarget t i n with
    | .error e => .error e
    | .ok s =>
      if s = i then .ok t
      else
        match swapSlots t i s with
        | .error e => .error e
        | .ok t' => siftLoop turns s n t'

/-- `SIFTDOWN(i, n)` (R115). Each turn moves to a larger slot below `n`, so `n` turns are enough (log 10). -/
def siftDown (i n : Nat) (t : Memory TableEntry) : Except Fault (Memory TableEntry) := siftLoop n i n t

/-- The loop of `REHEAP` over the nodes `c − 1, …, 0` (R116). -/
def reheapFrom : Nat → Nat → Memory TableEntry → Except Fault (Memory TableEntry)
  | 0, _, t => .ok t
  | c + 1, n, t =>
    match siftDown c n t with
    | .error e => .error e
    | .ok t' => reheapFrom c n t'

/-- `REHEAP(n)` (R116): sift down from every internal node, bottom-up. -/
def reheap (n : Nat) (t : Memory TableEntry) : Except Fault (Memory TableEntry) := reheapFrom (n / 2) n t

/-- `TABLE[dst] <- TABLE[src]`: a move copies all four fields (R114). -/
def moveSlot (t : Memory TableEntry) (dst src : Nat) : Except Fault (Memory TableEntry) :=
  match readTable t src with
  | .error e => .error e
  | .ok x => writeTable t dst x

/-- `TABLE[0] <- Merge(TABLE[a].freq + TABLE[b].freq, l, r)` (R114 step d, R117). -/
def mergeInto0 (t : Memory TableEntry) (a b l r : Nat) : Except Fault (Memory TableEntry) :=
  match readTable t a, readTable t b with
  | .ok x, .ok y => writeTable t 0 (mergeNode (x.freq + y.freq) l r)
  | .error e, _ => .error e
  | _, .error e => .error e

/-- Step a of `MERGE_ITER` (R114): the smaller of slots 1 and 2, a tie favouring slot 1. -/
def markedSlot (t : Memory TableEntry) : Except Fault Nat :=
  match readTable t 1, readTable t 2 with
  | .ok x, .ok y => .ok (if x.freq ≤ y.freq then 1 else 2)
  | .error e, _ => .error e
  | _, .error e => .error e

/-- `MERGE_ITER` (R114), steps a to f. -/
def mergeIter (b : Builder) : Except Fault Builder := do
  let m ← markedSlot b.table
  let t ← moveSlot b.table b.firstFree m
  let t ← moveSlot t m b.heapEnd
  let t ← reheap b.heapEnd t
  let t ← moveSlot t b.heapEnd 0
  let t ← mergeInto0 t b.heapEnd b.firstFree b.heapEnd b.firstFree
  let t ← reheap b.heapEnd t
  pure { table := t, heapEnd := b.heapEnd - 1, firstFree := b.firstFree + 1 }

/-- `repeat n times: MERGE_ITER` (R110). -/
def mergeLoop : Nat → Builder → Except Fault Builder
  | 0, b => .ok b
  | n + 1, b =>
    match mergeIter b with
    | .error e => .error e
    | .ok b' => mergeLoop n b'

/-- `FINAL_MERGE` (R117). -/
def finalMerge (b : Builder) : Except Fault Builder := do
  let t ← moveSlot b.table b.firstFree 0
  let t ← mergeInto0 t 1 b.firstFree 1 b.firstFree
  pure { table := t, heapEnd := b.heapEnd, firstFree := b.firstFree }

/-- The work of `BUILD` after its test (R110, R113): what it makes of `FREQ`, `K` and the slots of `TABLE`. -/
def buildTable (f : Memory Nat) (k : Nat) (t : Memory TableEntry) : Except Fault Builder := do
  let t ← materialize f t
  let t ← sortLeaves k t
  let b ← mergeLoop (k - 2) { table := t, heapEnd := k - 1, firstFree := k }
  finalMerge b

/-- `BUILD` (R110, R119): build the merge tree in `TABLE` from `FREQ`. -/
def execBuild (s : State) : Result :=
  dispatch .build s fun s =>
    if s.k < 2 then raiseBy .build .degenerate s
    else finish ((buildTable s.freq s.k s.table).map fun b => (s.withBuilder b).withPhase .built)

end Sys2Proof.Machine
end

