-- ==== Sys2Proof/Machine/ArtifactWriter.lean ====
section
/-! DEFINITION. The Artifact Writer (44_artifact_writer.md): `NAME` and `HDR`. -/

namespace Sys2Proof.Machine

/-- `NAME d` (R150): append one byte to the file name. -/
def execName (d : Byte) (s : State) : Result :=
  dispatch (.name d) s fun s =>
    if s.nameLen = s.cfg.nameMax then raiseBy (.name d) .nameOverflow s
    else finish ((writeName s.cfg s.nameBuf s.nameLen d).map fun m => s.withName m (s.nameLen + 1))

/-- The `n` bytes of `NAMEBUF` from index `i` on. -/
def readNames (cfg : Config) (m : List Host.Cell) (i : Nat) : Nat → Except Fault (List Byte)
  | 0 => .ok []
  | n + 1 =>
    match readName cfg m i with
    | .error f => .error f
    | .ok d =>
      match readNames cfg m (i + 1) n with
      | .error f => .error f
      | .ok ds => .ok (d :: ds)

/-- The twelve bytes of a serialized entry: `glyph`, `left`, `right`; the frequency is dropped (R151, R154). -/
def entryBytes (e : TableEntry) : List Byte := le32 e.glyph ++ le32 e.left ++ le32 e.right

/-- The number `2K − 1` of serialized slots (R151). -/
def entryCount (k : Nat) : Int := 2 * (k : Int) - 1

/-- The bytes `HDR` emits (R151): `le32(NAMELEN)`, the name, `le32(2K − 1)`, then slots 0 .. 2K − 2 in ascending order. -/
def headerBytes (s : State) : Except Fault (List Byte) :=
  match readNames s.cfg s.nameBuf 0 s.nameLen with
  | .error f => .error f
  | .ok name =>
    match readSlots s.table 0 (2 * s.k - 1) with
    | .error f => .error f
    | .ok entries => .ok (le32 (Int.ofNat s.nameLen) ++ name ++ le32 (entryCount s.k) ++ entries.flatMap entryBytes)

/-- `HDR` (R151): emit the file-name header and the serialized tree array. -/
def execHdr (s : State) : Result :=
  dispatch .hdr s fun s => finish ((headerBytes s).map fun bytes => (s.emit bytes).withPhase .encode)

end Sys2Proof.Machine
end

