-- ==== Sys2Proof/Machine/BitPacker.lean ====
section
/-! DEFINITION. The Bit Packer (43_bit_packer.md): `APPEND`, `ENC` and `FIN`. -/

namespace Sys2Proof.Machine

/-- `b × 2^n` in the accumulator's eight bits (R140). -/
def bitAt (b : Bool) (n : Fin 8) : Byte := if b then 1#8 <<< n.val else 0#8

/-- `emit(ACC); ACC <- 0; NBITS <- 0` (R140, R142), with `ACC` first given. -/
def flushByte (p : Packer) (acc : Byte) : Packer := { acc := 0#8, nbits := 0, out := p.out ++ [acc] }

/-- One turn of `APPEND` (R140): the bit goes to bit `NBITS` of `ACC`; a full byte is emitted. -/
def appendBit (p : Packer) (b : Bool) : Packer :=
  if p.nbits = 7 then flushByte p (p.acc + bitAt b p.nbits)
  else { acc := p.acc + bitAt b p.nbits, nbits := p.nbits + 1, out := p.out }

/-- `APPEND` of a code's bits, position 0 first (R140). -/
def appendBits (p : Packer) (bits : List Bool) : Packer := bits.foldl appendBit p

/-- `APPEND(s)` (R140): the code of symbol `s` into the accumulator. -/
def appendCode (c : Codes) (s : Nat) (p : Packer) : Except Fault Packer :=
  (readCode c s).map (appendBits p)

/-- The padding of `FIN` (R142): a part-filled last byte is emitted, its unfilled bits 0. -/
def padLast (p : Packer) : Packer := if p.nbits = 0 then p else flushByte p p.acc

/-- `ENC d` (R141): encode one input byte. -/
def execEnc (d : Byte) (s : State) : Result :=
  dispatch (.enc d) s fun s =>
    if s.encCnt = s.len then raiseBy (.enc d) .lengthMismatch s
    else if countAt s.codeLen (symbolOf d) = 0 then raiseBy (.enc d) .missingCode s
    else finish ((appendCode s.codes (symbolOf d) s.packer).map fun p => (s.withPacker p).withEncCnt (s.encCnt + 1))

/-- `FIN` (R142): append the end-of-stream code, pad the last byte, finish the artifact. -/
def execFin (s : State) : Result :=
  dispatch .fin s fun s =>
    if s.encCnt ≠ s.len then raiseBy .fin .lengthMismatch s
    else if countAt s.codeLen eos = 0 then raiseBy .fin .missingCode s
    else finish ((appendCode s.codes eos s.packer).map fun p => (s.withPacker (padLast p)).withPhase .done)

end Sys2Proof.Machine
end

