-- ==== Sys2Proof/Machine/CodeGenerator.lean ====
section
/-! DEFINITION. The Code Generator (42_code_generator.md): `WALK`. -/

namespace Sys2Proof.Machine

/-- `VISIT(i, p)` (R130): `depth` bounds the edges still allowed, so that a code that reaches this point has at most `CODE_MAX`
bits (log 9); the left subtree before the right. -/
def visit (t : Memory TableEntry) : Nat → Int → List Bool → Codes → Except Fault Codes
  | 0, _, _, _ => .error .codeTooLong
  | depth + 1, i, p, c =>
    match readChild t i with
    | .error f => .error f
    | .ok e =>
      if e.left = -1 ∧ e.right = -1 then recordCode c e.glyph p
      else
        match visit t depth e.left (p ++ [false]) c with
        | .error f => .error f
        | .ok c' => visit t depth e.right (p ++ [true]) c'

/-- `VISIT(0, "")` (R130): the walk from the root. -/
def walkTable (t : Memory TableEntry) (c : Codes) : Except Fault Codes := visit t (codeMax + 1) 0 [] c

/-- `WALK` (R130): derive the code of every leaf from the merge tree. -/
def execWalk (s : State) : Result :=
  dispatch .walk s fun s => finish ((walkTable s.table s.codes).map fun c => (s.withCodes c).withPhase .coded)

end Sys2Proof.Machine
end

