-- ==== Sys2Proof/Machine/Control.lean ====
section
/-! DEFINITION. The control commands `NOP` and `CLR` (45_control.md). -/

namespace Sys2Proof.Machine

/-- `NOP` (45_control.md R160): no state changes, in any phase. -/
def execNop (s : State) : Result := dispatch .nop s fun s => .next s

/-- `CLR` (45_control.md R161): every piece of state to its reset value, in any phase. -/
def execClr (s : State) : Result := dispatch .clr s fun s => .next s.cleared

end Sys2Proof.Machine
end

