-- ==== Sys2Proof/Machine/FrequencyAnalyzer.lean ====
section
/-! DEFINITION. The Frequency Analyzer (40_frequency_analyzer.md): `CNT` and `EOP`. -/

namespace Sys2Proof.Machine

/-- `FREQ[s] <- FREQ[s] + 1` (R100). -/
def countOne (f : Memory Nat) (s : Nat) : Memory Nat := setCount f s (countAt f s + 1)

/-- The number of `s` in 0 .. 256 with `FREQ[s] > 0` (R101). -/
def presentCount (f : Memory Nat) : Nat := ((List.range nsym).filter fun s => 0 < countAt f s).length

/-- `CNT d` (R100): count one input byte. -/
def execCnt (d : Byte) (s : State) : Result :=
  dispatch (.cnt d) s fun s =>
    if s.len = s.cfg.lenMax then raiseBy (.cnt d) .countOverflow s
    else .next (s.withCount (countOne s.freq (symbolOf d)) (s.len + 1))

/-- `EOP` (R101): force the end-of-stream count and count the distinct symbols. -/
def execEop (s : State) : Result :=
  dispatch .eop s fun s =>
    .next ((s.withHistogram (setCount s.freq eos 1) (presentCount (setCount s.freq eos 1))).withPhase .counted)

end Sys2Proof.Machine
end

