-- ==== Sys2Proof/Machine/Dispatch.lean ====
section
/-! DEFINITION. One arm per command, each one call of its meaning. -/

namespace Sys2Proof.Machine

def exec (i : Instr) (s : State) : Host.Outcome State Fault Refusal :=
  match i with
  | .nop => Sys2Proof.Machine.execNop s
  | .clr => Sys2Proof.Machine.execClr s
  | .name d => Sys2Proof.Machine.execName d s
  | .cnt d => Sys2Proof.Machine.execCnt d s
  | .eop => Sys2Proof.Machine.execEop s
  | .build => Sys2Proof.Machine.execBuild s
  | .walk => Sys2Proof.Machine.execWalk s
  | .hdr => Sys2Proof.Machine.execHdr s
  | .enc d => Sys2Proof.Machine.execEnc d s
  | .fin => Sys2Proof.Machine.execFin s

end Sys2Proof.Machine
end

