-- ==== Sys2Proof/Machine/Step.lean ====
section
/-! DEFINITION. One step of the machine (00_scope.md R5, 60_exceptions.md R170): the oldest waiting input of the host is consumed; a
word is decoded and executed to completion; with no input waiting the block is idle (log 2, log 3, log 4). -/

namespace Sys2Proof.Machine

/-- The step on one command word (60_exceptions.md R170). -/
def stepWord (w : Word) (s : State) : Host.Outcome State Fault Refusal :=
  match decode w with
  | .ok i => exec i s
  | .error _ => execIllegal w s

/-- One step. -/
def step (s : State) : Host.Outcome State Fault Refusal :=
  match s.input with
  | [] => idle s
  | .reset :: rest => applyReset (s.withInput rest)
  | .word w :: rest => stepWord w (s.withInput rest)

/-- The state with the command word of an opcode-table row offered next on the command port (log 23). -/
def State.withFetchWord (s : State) (nbits w : Nat) : State := s.withInput (.word (tableWord nbits w) :: s.input)

end Sys2Proof.Machine
end

