-- ==== Sys2Proof/Machine/Flags.lean ====
section
/-! DEFINITION. The block has no flags and no condition codes (10_state.md R39). What a command leaves besides its data is `PHASE`,
`ERR` and `ERRW`, seen through the read-only `STATUS` view and the lines `done` and `error` (R25, 60_exceptions.md R178). -/

namespace Sys2Proof.Machine

/-- The 3-bit value of `PHASE` (10_state.md R22). -/
def Phase.code : Phase → BitVec 3
  | .load => 0#3
  | .counted => 1#3
  | .built => 2#3
  | .coded => 3#3
  | .encode => 4#3
  | .done => 5#3
  | .error => 7#3

/-- The 4-bit value of `ERR` (60_exceptions.md R171). -/
def ErrCode.code : ErrCode → BitVec 4
  | .noError => 0#4
  | .illegalCmd => 1#4
  | .protocol => 2#4
  | .nameOverflow => 3#4
  | .countOverflow => 4#4
  | .degenerate => 5#4
  | .missingCode => 6#4
  | .lengthMismatch => 7#4

/-- `STATUS` (10_state.md R25): `ERRW` in 31:16, zero in 15:8, `ERR` in 7:4, zero in 3, `PHASE` in 2:0. -/
def State.status (s : State) : BitVec 32 := s.errw ++ 0#8 ++ s.err.code ++ 0#1 ++ s.phase.code

/-- The line `done = (PHASE = DONE)` (10_state.md R25). -/
def State.doneLine (s : State) : Bool := s.phase == .done

/-- The line `error = (PHASE = ERROR)` (10_state.md R25). -/
def State.errorLine (s : State) : Bool := s.phase == .error

end Sys2Proof.Machine
end

