-- ==== Sys2Proof/Machine/Assembler.lean ====
section
/-! DEFINITION. The assembler's lines and pseudo-instructions (30_encoding.md R87, R88). No step calls anything of this file: it says
how a text becomes command words. What R87 leaves open of the text form is log 22, what R88 leaves
open of lists and string literals is log 24. -/

namespace Sys2Proof.Machine

/-- A pseudo-instruction (R88), its strings and lists already bytes. -/
inductive Pseudo where
  | names (s : List Byte)
  | cnts (s : List Byte)
  | cntb (bs : List Byte)
  | encs (s : List Byte)
  | encb (bs : List Byte)
  | compress (n s : List Byte)
  deriving DecidableEq, Repr

/-- The expansion of a pseudo-instruction (R88). -/
def expand : Pseudo → List Instr
  | .names s => s.map .name
  | .cnts s => s.map .cnt
  | .cntb bs => bs.map .cnt
  | .encs s => s.map .enc
  | .encb bs => bs.map .enc
  | .compress n s =>
    [.clr] ++ n.map .name ++ s.map .cnt ++ [.eop, .build, .walk, .hdr] ++ s.map .enc ++ [.fin]

/-- The words of a list of commands (R87: each line becomes one word by R83). -/
def wordsOf (is : List Instr) : List Word := is.map encode

/-- A character that starts or ends a string operand: the double quote. -/
def dquote : Char := Char.ofNat 34

/-- The single quote around a character operand. -/
def squote : Char := Char.ofNat 39

/-- The semicolon that starts a comment. -/
def semicolon : Char := Char.ofNat 59

/-- The space between a mnemonic and its operand. -/
def space : Char := Char.ofNat 32

/-- The line without its leading spaces. -/
def skipSpaces : List Char → List Char
  | [] => []
  | c :: cs => if c = space then skipSpaces cs else c :: cs

/-- Whether nothing but spaces and a comment is left of a line (R87). DESIGN CHOICE: any number of spaces, none included, may stand
before the comment or the line's end (log 22). -/
def lineEnds (cs : List Char) : Bool :=
  match skipSpaces cs with
  | [] => true
  | c :: _ => decide (c = semicolon)

/-- The capital letters a line starts with, and what follows them. -/
def takeMnemonic : List Char → List Char × List Char
  | [] => ([], [])
  | c :: cs =>
    if 65 ≤ c.toNat ∧ c.toNat ≤ 90 then (c :: (takeMnemonic cs).1, (takeMnemonic cs).2) else ([], c :: cs)

/-- The value of a hexadecimal digit. DESIGN CHOICE: the letters of either case (log 22). -/
def hexDigit (c : Char) : Option Nat :=
  if 48 ≤ c.toNat ∧ c.toNat ≤ 57 then some (c.toNat - 48)
  else if 65 ≤ c.toNat ∧ c.toNat ≤ 70 then some (c.toNat - 55)
  else if 97 ≤ c.toNat ∧ c.toNat ≤ 102 then some (c.toNat - 87)
  else none

/-- The decimal digits a text starts with, as a number read on from `acc`, and what follows them. -/
def takeDecimal (acc : Nat) : List Char → Nat × List Char
  | [] => (acc, [])
  | c :: cs =>
    if 48 ≤ c.toNat ∧ c.toNat ≤ 57 then takeDecimal (acc * 10 + (c.toNat - 48)) cs else (acc, c :: cs)

/-- A printable ASCII character (R87). -/
def printable (c : Char) : Bool := decide (32 ≤ c.toNat ∧ c.toNat ≤ 126)

/-- A character operand after its opening quote: one printable character and the closing quote (R87).
DESIGN CHOICE: the printable characters are codes 32 to 126, the space, the semicolon and the quote itself among them (log 22). -/
def charOperand : List Char → Option (Byte × List Char)
  | c :: q :: rest => if q = squote ∧ printable c then some (BitVec.ofNat 8 c.toNat, rest) else none
  | _ => none

/-- A hexadecimal operand after `0x`: two digits (R87). -/
def hexOperand : List Char → Option (Byte × List Char)
  | a :: b :: rest =>
    match hexDigit a, hexDigit b with
    | some x, some y => some (BitVec.ofNat 8 (16 * x + y), rest)
    | _, _ => none
  | _ => none

/-- A decimal operand: digits with a value in 0 .. 255 (R87). DESIGN CHOICE: leading zeros may stand, `007` is 7 (log 22). -/
def decimalOperand (cs : List Char) : Option (Byte × List Char) :=
  match cs with
  | [] => none
  | c :: _ =>
    if (48 ≤ c.toNat ∧ c.toNat ≤ 57) ∧ (takeDecimal 0 cs).1 < 256 then
      some (BitVec.ofNat 8 (takeDecimal 0 cs).1, (takeDecimal 0 cs).2)
    else none

/-- An operand in one of its three forms, and what follows it (R87). -/
def takeOperand (cs : List Char) : Option (Byte × List Char) :=
  match cs with
  | [] => none
  | c :: rest =>
    if c = squote then charOperand rest
    else
      match rest with
      | x :: rest' => if c = '0' ∧ x = 'x' then hexOperand rest' else decimalOperand cs
      | [] => decimalOperand cs

/-- What follows a mnemonic's separating space, without further spaces; `none` when no space stands there (R87).
DESIGN CHOICE: more spaces than the rule's one may stand (log 22). -/
def afterSpace : List Char → Option (List Char)
  | [] => none
  | c :: cs => if c = space then some (skipSpaces cs) else none

/-- One operand that ends the line. -/
def soleOperand (cs : List Char) : Option Byte :=
  match afterSpace cs with
  | none => none
  | some text =>
    match takeOperand text with
    | some (d, rest) => if lineEnds rest then some d else none
    | none => none

/-- The operands of a list pseudo-instruction, at most `bound` of them, each after a space (R88). DESIGN CHOICE: the list may be empty,
and then expands to no command (log 24). -/
def takeOperands : Nat → List Char → Option (List Byte)
  | 0, cs => if lineEnds cs then some [] else none
  | bound + 1, cs =>
    if lineEnds cs then some []
    else
      match afterSpace cs with
      | none => none
      | some text =>
        match takeOperand text with
        | some (d, rest) => (takeOperands bound rest).map (d :: ·)
        | none => none

/-- The bytes of a string literal after its opening quote, and what follows its closing quote (R88).
DESIGN CHOICE: the characters are printable ASCII, without an escape for the double quote; the literal may be empty (log 24). -/
def takeString : List Char → Option (List Byte × List Char)
  | [] => none
  | c :: cs =>
    if c = dquote then some ([], cs)
    else
      match takeString cs with
      | some (bs, rest) => if printable c then some (BitVec.ofNat 8 c.toNat :: bs, rest) else none
      | none => none

/-- A string literal with its quotes, and what follows it. -/
def stringLiteral : List Char → Option (List Byte × List Char)
  | [] => none
  | c :: cs => if c = dquote then takeString cs else none

/-- One string literal that ends the line. -/
def soleString (cs : List Char) : Option (List Byte) :=
  match afterSpace cs with
  | none => none
  | some text =>
    match stringLiteral text with
    | some (s, rest) => if lineEnds rest then some s else none
    | none => none

/-- The two string literals of `COMPRESS "n", "s"` (R88). DESIGN CHOICE: no space may stand before the comma, any number of spaces, none
included, after it (log 24). -/
def twoStrings (cs : List Char) : Option (List Byte × List Byte) :=
  match afterSpace cs with
  | none => none
  | some text =>
    match stringLiteral text with
    | some (n, c :: rest) =>
      if c = ',' then
        match stringLiteral (skipSpaces rest) with
        | some (s, rest') => if lineEnds rest' then some (n, s) else none
        | none => none
      else none
    | _ => none

/-- The commands of one line that starts with the given mnemonic (R83, R87, R88). -/
def commandsOf (mn rest : List Char) : Option (List Instr) :=
  if mn = "NOP".toList then (if lineEnds rest then some [.nop] else none)
  else if mn = "CLR".toList then (if lineEnds rest then some [.clr] else none)
  else if mn = "EOP".toList then (if lineEnds rest then some [.eop] else none)
  else if mn = "BUILD".toList then (if lineEnds rest then some [.build] else none)
  else if mn = "WALK".toList then (if lineEnds rest then some [.walk] else none)
  else if mn = "HDR".toList then (if lineEnds rest then some [.hdr] else none)
  else if mn = "FIN".toList then (if lineEnds rest then some [.fin] else none)
  else if mn = "NAME".toList then (soleOperand rest).map fun d => [.name d]
  else if mn = "CNT".toList then (soleOperand rest).map fun d => [.cnt d]
  else if mn = "ENC".toList then (soleOperand rest).map fun d => [.enc d]
  else if mn = "NAMES".toList then (soleString rest).map fun s => expand (.names s)
  else if mn = "CNTS".toList then (soleString rest).map fun s => expand (.cnts s)
  else if mn = "ENCS".toList then (soleString rest).map fun s => expand (.encs s)
  else if mn = "CNTB".toList then (takeOperands rest.length rest).map fun bs => expand (.cntb bs)
  else if mn = "ENCB".toList then (takeOperands rest.length rest).map fun bs => expand (.encb bs)
  else if mn = "COMPRESS".toList then (twoStrings rest).map fun ns => expand (.compress ns.1 ns.2)
  else none

/-- The commands of one line: none of an empty or comment line; `none` where the line is no line of R87 or R88.
DESIGN CHOICE: spaces may stand before the mnemonic (log 22). -/
def assembleLine (line : List Char) : Option (List Instr) :=
  if lineEnds line then some []
  else commandsOf (takeMnemonic (skipSpaces line)).1 (takeMnemonic (skipSpaces line)).2

/-- The lines of a text. DESIGN CHOICE: a line ends at the line feed, code 10, and nowhere else (log 22). -/
def splitLines : List Char → List (List Char)
  | [] => [[]]
  | c :: cs =>
    if c.toNat = 10 then [] :: splitLines cs
    else
      match splitLines cs with
      | l :: ls => (c :: l) :: ls
      | [] => [[c]]

/-- The commands of a list of lines, in order. -/
def assembleLines : List (List Char) → Option (List Instr)
  | [] => some []
  | l :: ls =>
    match assembleLine l, assembleLines ls with
    | some is, some js => some (is ++ js)
    | _, _ => none

/-- The command words of a program text (R87). DESIGN CHOICE: a text with a rejected line has no words (log 22). -/
def assemble (text : String) : Option (List Word) := (assembleLines (splitLines text.toList)).map wordsOf

end Sys2Proof.Machine
end

