-- ==== Sys2Proof/Machine/HostSide.lean ====
section
/-! DEFINITION. Two procedures 44_artifact_writer.md records for information and 00_scope.md R4 leaves out of the block: the output
file name (R155) and the decoder's contract (R156). No step calls anything of this file: they are references that claims about `OUT`
can be stated against. -/

namespace Sys2Proof.Machine

/-- The byte of `'.'`. -/
def dotByte : Byte := 0x2E#8

/-- The stem of an input file name (R155): up to but not including its last `'.'`, or the whole name when it has none. -/
def fileStem (n : List Byte) : List Byte :=
  if dotByte ∈ n then ((n.reverse.dropWhile fun b => b ≠ dotByte).drop 1).reverse else n

/-- The output file name (R155): the stem with `.huf` after it. -/
def outputFileName (n : List Byte) : List Byte := fileStem n ++ [0x2E#8, 0x68#8, 0x75#8, 0x66#8]

/-- One serialized entry as a decoder reads it (R152): glyph, left child, right child. -/
structure ArtifactEntry where
  glyph : Int
  left : Int
  right : Int
  deriving DecidableEq, Repr

/-- A little-endian int32 at the head of a byte sequence, and what follows it (R152; 20_memory.md R62, R64). -/
def takeInt32 : List Byte → Option (Int × List Byte)
  | b0 :: b1 :: b2 :: b3 :: rest => some ((b3 ++ b2 ++ b1 ++ b0 : BitVec 32).toInt, rest)
  | _ => none

/-- `n` serialized entries, and what follows them (R152). -/
def takeEntries : Nat → List Byte → Option (List ArtifactEntry × List Byte)
  | 0, bs => some ([], bs)
  | n + 1, bs =>
    match takeInt32 bs with
    | none => none
    | some (g, bs1) =>
      match takeInt32 bs1 with
      | none => none
      | some (l, bs2) =>
        match takeInt32 bs2 with
        | none => none
        | some (r, bs3) =>
          match takeEntries n bs3 with
          | none => none
          | some (es, rest) => some (⟨g, l, r⟩ :: es, rest)

/-- The parts of an artifact (R152). -/
structure Artifact where
  name : List Byte
  entries : List ArtifactEntry
  packed : List Byte
  deriving DecidableEq, Repr

/-- Read an artifact's header and entries (R152, R156). -/
def parseArtifact (bs : List Byte) : Option Artifact :=
  match takeInt32 bs with
  | none => none
  | some (n, bs1) =>
    if bs1.length < n.toNat then none
    else
      match takeInt32 (bs1.drop n.toNat) with
      | none => none
      | some (c, bs2) =>
        match takeEntries c.toNat bs2 with
        | none => none
        | some (es, rest) => some { name := bs1.take n.toNat, entries := es, packed := rest }

/-- The bits of a byte from bit 0 to bit 7 (R156; 20_memory.md R63). -/
def bitsOfByte (b : Byte) : List Bool := (List.range 8).map fun p => b.getLsbD p

/-- An entry by its index, a signed field. -/
def entryAt (es : List ArtifactEntry) (i : Int) : Option ArtifactEntry :=
  match i with
  | .ofNat n => es[n]?
  | .negSucc _ => none

/-- Replay the bit stream through the tree from entry `i` until EOS (R156); `none` where the bits end before it or an index is no
entry. -/
def replay (es : List ArtifactEntry) : List Bool → Int → Option (List Byte)
  | [], _ => none
  | b :: bits, i =>
    match entryAt es i with
    | none => none
    | some e =>
      match entryAt es (if b then e.right else e.left) with
      | none => none
      | some x =>
        if x.left = -1 ∧ x.right = -1 then
          if x.glyph = 256 then some []
          else (replay es bits 0).map (BitVec.ofInt 8 x.glyph :: ·)
        else replay es bits (if b then e.right else e.left)

/-- The decoder's contract (R156): the bytes an artifact stands for. -/
def decodeArtifact (bs : List Byte) : Option (List Byte) :=
  match parseArtifact bs with
  | none => none
  | some a => replay a.entries (a.packed.flatMap bitsOfByte) 0

end Sys2Proof.Machine
end

