-- ==== Sys2Proof/Safety.lean ====
section
/-! DEFINITION. What counts as a safe state and a safe run, and the notions claims are stated in: the invariants of the state, the heap
order, the shape of the merge tree, the tree a table stands for and its codes, the packed bytes of a bit sequence. No step calls
anything of this file. -/

namespace Sys2Proof.Machine

/-! ## Invariants of the state -/

/-- The sum of `FREQ[s]` over the byte values `s` in 0 .. 255 (10_state.md R27). -/
def byteSum (f : Memory Nat) : Nat := ((List.range 256).map (countAt f)).sum

/-- The sum of `FREQ[s]` over `s` in 0 .. 256 (40_frequency_analyzer.md R102). -/
def symbolSum (f : Memory Nat) : Nat := ((List.range nsym).map (countAt f)).sum

/-- The five memories are in canonical form and in their index ranges (20_memory.md R60). -/
abbrev State.canonical (s : State) : Prop :=
  Memory.wf countBlank nsym s.freq ∧ Memory.wf noValue tableSlots s.table ∧ Memory.wf countBlank nsym s.codeLen ∧
  Memory.wf noValue nsym s.codeBits ∧ Memory.wf noValue s.cfg.nameMax s.nameBuf

/-- Every register is in the range of 10_state.md R21, every code length in the range of R36, and the unfilled bits of `ACC` are 0
(R31). -/
abbrev State.inRange (s : State) : Prop :=
  s.nameLen ≤ s.cfg.nameMax ∧ s.len ≤ s.cfg.lenMax ∧ s.encCnt ≤ s.len ∧ s.k ≤ nsym ∧ s.heapEnd ≤ 256 ∧ s.firstFree ≤ 512 ∧
  s.acc.toNat < 2 ^ s.nbits.val ∧ ∀ c ∈ s.codeLen, c.2 ≤ codeMax

/-- `ERR ≠ 0` exactly when `PHASE = ERROR`, and `ERRW` is 0 when `ERR` is (10_state.md R23, R24). -/
abbrev State.errorsAgree (s : State) : Prop :=
  (s.err ≠ .noError ↔ s.phase = .error) ∧ (s.err = .noError → s.errw = 0#16)

/-- A symbol with a code has exactly its `CODELEN` bits in `CODEBITS` (10_state.md R36, 20_memory.md R72). -/
abbrev State.codesAgree (s : State) : Prop :=
  ∀ c ∈ s.codeLen, (memFind s.codeBits c.1).map List.length = some c.2

/-- Every name byte below `NAMELEN` has been written (10_state.md R38, 20_memory.md R72). -/
abbrev State.nameWritten (s : State) : Prop := ∀ i < s.nameLen, (memFind s.nameBuf i).isSome

/-- The invariant every step keeps, whatever state it starts from. -/
abbrev State.Inv (s : State) : Prop :=
  s.canonical ∧ s.inRange ∧ s.errorsAgree ∧ s.codesAgree ∧ s.nameWritten ∧ byteSum s.freq = s.len

/-- The number of the merge whose two children slots `j` of a table of `k` leaves can be: slots K − 1 − r and K + r are those of
merge r (41_table_builder.md R114: `HEAPEND` = K − 1 − t, `FIRSTFREE` = K + t; R117). -/
def slotRank (k j : Nat) : Nat := if j < k then k - 1 - j else j - k

/-- A leaf entry of a symbol (10_state.md R34). -/
abbrev isLeafEntry (e : TableEntry) : Prop := e.left = -1 ∧ e.right = -1 ∧ 0 ≤ e.glyph ∧ e.glyph ≤ 256

/-- A merge entry made by merge `r` of a table of `k` leaves: its children are slots K − 1 − r and K + r. -/
abbrev isMergeEntry (k r : Nat) (e : TableEntry) : Prop :=
  e.glyph = -1 ∧ e.left = Int.ofNat (k - 1 - r) ∧ e.right = Int.ofNat (k + r)

/-- The merges that can stand below slot `j`: all K − 1 below the root, the earlier ones elsewhere. -/
def mergesBelow (k j : Nat) : Nat := if j = 0 then k - 1 else slotRank k j

/-- Slot `j` holds a leaf, or a merge earlier than the one whose child `j` is (10_state.md R34; 41_table_builder.md R118(e), (f)). -/
abbrev slotOrdered (t : Memory TableEntry) (k j : Nat) : Prop :=
  (memFind t j).any (fun e => decide (isLeafEntry e ∨ ∃ r < mergesBelow k j, isMergeEntry k r e)) = true

/-- The table of a finished `BUILD`: slots 0 .. 2K − 2 hold a finite tree, the root a merge node (41_table_builder.md R118). -/
abbrev tableOrdered (t : Memory TableEntry) (k : Nat) : Prop :=
  (∀ j < 2 * k - 1, slotOrdered t k j) ∧ (memFind t 0).any (fun e => decide (isMergeEntry k (k - 2) e)) = true

/-- A phase in which `K` is known: `COUNTED` and after, `ERROR` apart (10_state.md R29). -/
def Phase.counting : Phase → Bool
  | .counted | .built | .coded | .encode | .done => true
  | .load | .error => false

/-- A phase in which `TABLE` holds the merge tree: `BUILT` and after, `ERROR` apart (10_state.md R22). -/
def Phase.hasTable : Phase → Bool
  | .built | .coded | .encode | .done => true
  | .load | .counted | .error => false

/-- A phase before pass 2: nothing has been emitted (44_artifact_writer.md R151, 60_exceptions.md R176). -/
def Phase.beforePass2 : Phase → Bool
  | .load | .counted | .built | .coded => true
  | .encode | .done | .error => false

/-- A phase before `WALK`: no symbol has a code (10_state.md R36, R44). -/
def Phase.beforeWalk : Phase → Bool
  | .load | .counted | .built => true
  | .coded | .encode | .done | .error => false

/-- What each phase promises of the registers and memories (10_state.md R22, R29, R30; 44 R151; 43 R142). -/
abbrev State.phaseFacts (s : State) : Prop :=
  (s.phase = .load → s.k = 0 ∧ s.heapEnd = 0 ∧ s.firstFree = 0 ∧ countAt s.freq eos = 0) ∧
  (s.phase.counting → countAt s.freq eos = 1 ∧ s.k = presentCount s.freq) ∧
  (s.phase.hasTable → 2 ≤ s.k ∧ s.heapEnd = 1 ∧ s.firstFree = 2 * s.k - 2 ∧ tableOrdered s.table s.k) ∧
  (s.phase.beforeWalk → s.codeLen = []) ∧
  (s.phase.beforePass2 → s.encCnt = 0 ∧ s.acc = 0#8 ∧ s.nbits = 0 ∧ s.out = []) ∧
  (s.phase = .done → s.encCnt = s.len ∧ s.acc = 0#8 ∧ s.nbits = 0)

/-- The invariant of the states a run reaches: from it no step meets a fault of the model (20_memory.md R61, R72). -/
abbrev State.RunInv (s : State) : Prop := s.Inv ∧ s.cfg.wf ∧ s.phaseFacts

/-- A safe step: the machine goes on, and the invariant of a run holds after it. -/
def safeStep (s : State) : Prop := ∃ t, step s = .next t ∧ t.RunInv

/-! ## The heap of the Table Builder -/

/-- Slots 0 .. n − 1 hold a value. -/
abbrev slotsWritten (t : Memory TableEntry) (n : Nat) : Prop := ∀ i < n, (memFind t i).isSome

/-- The weight of a slot, 0 where it holds no value; claims use it on written slots only. -/
def weightAt (t : Memory TableEntry) (i : Nat) : Nat := ((memFind t i).map TableEntry.freq).getD 0

/-- The heap order of slots 0 .. n − 1 at slot `i`: its parent weighs no more (41_table_builder.md R113). -/
abbrev heapAt (t : Memory TableEntry) (i : Nat) : Prop := weightAt t ((i - 1) / 2) ≤ weightAt t i

/-- The heap order of slots 0 .. n − 1 (41_table_builder.md R113). -/
abbrev heapOrdered (t : Memory TableEntry) (n : Nat) : Prop := ∀ i < n, 1 ≤ i → heapAt t i

/-! ## The tree a table stands for -/

/-- A binary tree with a symbol at each leaf. -/
inductive CodeTree where
  | leaf (s : Nat)
  | node (l r : CodeTree)
  deriving DecidableEq, Repr

/-- The leaves with the paths to them, the path to this tree given: 0 for a step to the left, 1 to the right (42_code_generator.md
R131). -/
def CodeTree.paths : CodeTree → List Bool → List (Nat × List Bool)
  | .leaf s, p => [(s, p)]
  | .node l r, p => l.paths (p ++ [false]) ++ r.paths (p ++ [true])

/-- The length of the longest path. -/
def CodeTree.depth : CodeTree → Nat
  | .leaf _ => 0
  | .node l r => 1 + max l.depth r.depth

/-- The symbols at the leaves, left to right. -/
def CodeTree.symbols : CodeTree → List Nat
  | .leaf s => [s]
  | .node l r => l.symbols ++ r.symbols

/-- The subtree of a table at slot `i` is the given tree (42_code_generator.md R130: a leaf has both children −1). -/
def treeAt (t : Memory TableEntry) : Int → CodeTree → Bool
  | i, .leaf s =>
    match readChild t i with
    | .ok e => decide (e.left = -1 ∧ e.right = -1 ∧ e.glyph = Int.ofNat s)
    | .error _ => false
  | i, .node l r =>
    match readChild t i with
    | .ok e => !decide (e.left = -1 ∧ e.right = -1) && treeAt t e.left l && treeAt t e.right r
    | .error _ => false

/-- The code of a symbol, as the state holds it, when it has one (42_code_generator.md R131). -/
def State.codeOf (s : State) (n : Nat) : Option (List Bool) :=
  if countAt s.codeLen n = 0 then none else (memFind s.codeBits n).map (List.take (countAt s.codeLen n))

/-! ## The packed bytes -/

/-- The number whose bit `p` is the bit at position `p` of the list (43_bit_packer.md R143: `sum of BITS[8j + p] × 2^p`). -/
def bitsValue : List Bool → Nat
  | [] => 0
  | b :: bs => (if b then 1 else 0) + 2 * bitsValue bs

/-- The first `n` bytes of a bit sequence, bits beyond its end 0 (43_bit_packer.md R143). -/
def packBytes : Nat → List Bool → List Byte
  | 0, _ => []
  | n + 1, bits => BitVec.ofNat 8 (bitsValue (bits.take 8)) :: packBytes n (bits.drop 8)

/-- The packed bytes `P_0 .. P_(N−1)` of a bit sequence, `N = (n + 7) ÷ 8` (43_bit_packer.md R143). -/
def packed (bits : List Bool) : List Byte := packBytes ((bits.length + 7) / 8) bits

/-- The bits of the bit sequence the packer has taken: those of the emitted bytes, then bits 0 .. `NBITS` − 1 of `ACC`, the oldest at
bit 0 (10_state.md R31, 20_memory.md R63). -/
def streamBits (p : Packer) : List Bool := p.out.flatMap bitsOfByte ++ (bitsOfByte p.acc).take p.nbits.val

/-! ## Acceptance -/

/-- The one phase a command is accepted in (30_encoding.md R89); none for `NOP` and `CLR`, which every phase accepts. -/
def homePhase : Instr → Option Phase
  | .nop => none
  | .clr => none
  | .name _ => some .load
  | .cnt _ => some .load
  | .eop => some .load
  | .build => some .counted
  | .walk => some .built
  | .hdr => some .coded
  | .enc _ => some .encode
  | .fin => some .encode

/-- The command is ignored in phase `ERROR` and raises `Error(PROTOCOL)` in every other phase but `home` (30_encoding.md R89). -/
def rejectedOutside (i : Instr) (home : Phase) (s : State) : Prop :=
  (s.phase = .error → exec i s = .next s) ∧
  (s.phase ≠ .error → s.phase ≠ home →
    exec i s = .next { s with err := .protocol, errw := encode i, phase := .error })

/-! ## Runs -/

/-- The machine after executing a list of commands from a state, or the first fault or refusal. -/
def execAll : List Instr → State → Result
  | [], s => .next s
  | i :: is, s =>
    match exec i s with
    | .next t => execAll is t
    | .fault f => .fault f
    | .refused r => .refused r

end Sys2Proof.Machine
end

