-- ==== Sys2Proof/Certificates/Slice0/Obligations.lean ====
section
/-! DEFINITION. The statements for the provers: what the commands, the words and the whole machine do, each from the spec's numbered
rules. -/

open Sys2Proof Sys2Proof.Machine

/-! ## Words and steps -/

/-- The words of 95_test_vectors.md part 2.1, written out from the formats R81, R82, decode to the commands they stand for. -/
def Obligations.SampleWordsDecode : Prop :=
  decode 0b0000000000000000#16 = .ok .nop ∧ decode 0b0001000000000000#16 = .ok .clr ∧
  decode 0b0010000011111111#16 = .ok (.name 0xFF#8) ∧ decode 0b0011000001000001#16 = .ok (.cnt 0x41#8) ∧
  decode 0b0100000000000000#16 = .ok .eop ∧ decode 0b0101000000000000#16 = .ok .build ∧
  decode 0b0110000000000000#16 = .ok .walk ∧ decode 0b0111000000000000#16 = .ok .hdr ∧
  decode 0b1000000001000001#16 = .ok (.enc 0x41#8) ∧ decode 0b1001000000000000#16 = .ok .fin ∧
  decode 0x0001#16 = .error .nonzeroLowByte ∧ decode 0x3141#16 = .error .reservedBits ∧
  decode 0xA000#16 = .error .reservedOpcode ∧ decode 0xFFFF#16 = .error .reservedBits

/-- R81, R82, R86: the decoder reads a command from a word exactly when the word is that command's encoding; so decoding an encoded
command gives it back with its operand, and every legal word is the encoding of what it decodes to. -/
def Obligations.DecodeAndEncodeAgree : Prop := ∀ (w : Word) (i : Instr), decode w = .ok i ↔ encode i = w

/-- R83: a word is the command of a row of the opcode map exactly when `(W & mask) = match`. -/
def Obligations.OpcodeMapIsTheDecoder : Prop :=
  ∀ r ∈ opcodeMap, ∀ w : Word, w &&& r.mask = r.matchBits ↔ ∃ i, decode w = .ok i ∧ i.mnemonic = r.mnemonic

/-- R84: the three conditions that make a word illegal; the error it raises in every phase but `ERROR`, where it is ignored; and that
the legal words are 775. -/
def Obligations.IllegalWordsRaiseIllegalCmd : Prop :=
  (∀ w : Word, (∃ e, decode w = .error e) ↔
    w.extractLsb' 8 4 ≠ 0#4 ∨ 10 ≤ (w.extractLsb' 12 4).toNat ∨
    ((w.extractLsb' 12 4).toNat ∈ [0, 1, 4, 5, 6, 7, 9] ∧ w.extractLsb' 0 8 ≠ 0#8)) ∧
  (∀ (s : State) (w : Word) (rest : List HostInput) (e : DecodeError), s.input = .word w :: rest → decode w = .error e →
    (s.phase ≠ .error → step s = .next { s with input := rest, err := .illegalCmd, errw := w, phase := .error }) ∧
    (s.phase = .error → step s = .next { s with input := rest })) ∧
  ∃ ws : List Word, ws.Nodup ∧ ws.length = 775 ∧ ∀ w, w ∈ ws ↔ ∃ i, decode w = .ok i

/-- R170: the step on a waiting command word that decodes to a command is that command's execution, after the word has left the
command port (log 2); and a word placed by `withFetchWord` is the next one run. -/
def Obligations.StepRunsTheDecodedCommand : Prop :=
  ∀ (s : State) (w : Word) (i : Instr), decode w = .ok i →
    (∀ rest, s.input = .word w :: rest → step s = exec i { s with input := rest }) ∧
    step (s.withFetchWord 16 w.toNat) = exec i s

/-- R190, R184: the reset input leaves the state of R44 with the block's parameters (log 1, log 2, log 4); with nothing waiting the
block keeps all its state (log 3). -/
def Obligations.ResetInputAndIdle : Prop :=
  ∀ s : State,
    (∀ rest, s.input = .reset :: rest → step s = .next { State.resetWith s.cfg with input := rest }) ∧
    (s.input = [] → step s = .next s)

/-- R44, R161: the value of every piece of state after reset, and after `CLR`. That a read of an entry of `TABLE` or `NAMEBUF` that holds no
value is a fault of the model (R72), and that `CLR`, which does not write `TABLE`, `CODEBITS` and `NAMEBUF`, makes their entries
unlisted, is the model's reading (log 5). -/
def Obligations.ResetValues : Prop :=
  ∀ (cfg : Config) (r : State),
    (r = State.resetWith cfg ∨ (∃ s, exec .clr s = .next r)) →
    r.phase = .load ∧ r.err = .noError ∧ r.errw = 0#16 ∧ r.status = 0x00000000#32 ∧ r.nameLen = 0 ∧ r.len = 0 ∧ r.encCnt = 0 ∧
    r.k = 0 ∧ r.heapEnd = 0 ∧ r.firstFree = 0 ∧ r.acc = 0#8 ∧ r.nbits = 0 ∧ r.out = [] ∧
    (∀ n, countAt r.freq n = 0) ∧ (∀ n, countAt r.codeLen n = 0) ∧
    (∀ i, i ≤ 512 → readTable r.table i = .error (.unwritten .table i)) ∧
    (∀ n, memFind r.codeBits n = none) ∧
    (∀ i, i < r.cfg.nameMax → readName r.cfg r.nameBuf i = .error (.unwritten .nameBuf i))

/-- Each step consumes the oldest waiting input, and no step changes the parameters (R42; log 1, log 2). -/
def Obligations.StepConsumesOneInput : Prop :=
  ∀ s t : State, step s = .next t → t.input = s.input.tail ∧ t.cfg = s.cfg

/-! ## Phases and errors -/

/-- R89: the acceptance table: ignored in `ERROR` (all but `CLR`), `Error(PROTOCOL)` outside a command's own phase; in it never ignored
and never `Error(PROTOCOL)`; `NOP` and `CLR` raise nothing; an illegal word raises `ILLEGAL_CMD` or is ignored. What a command does in
its own phase is each command's statement below. -/
def Obligations.AcceptanceByPhase : Prop :=
  (∀ (i : Instr) (s : State),
    (s.phase = .error → i ≠ .clr → exec i s = .next s) ∧
    (∀ h, homePhase i = some h → s.phase ≠ .error → s.phase ≠ h →
      exec i s = .next { s with err := .protocol, errw := encode i, phase := .error }) ∧
    (∀ h, homePhase i = some h → s.phase = h →
      exec i s ≠ .next s ∧ ∀ t, exec i s = .next t → t.phase = .error → t.err ≠ .protocol) ∧
    (homePhase i = none → ∃ t, exec i s = .next t ∧ (t.phase = .error → i = .nop ∧ s.phase = .error))) ∧
  (∀ (w : Word) (e : DecodeError) (s : State), decode w = .error e →
    stepWord w s = .next (if s.phase = .error then s else { s with err := .illegalCmd, errw := w, phase := .error }))

/-- R22, R89: the phase a command leaves: the one it found, `ERROR`, or the one entered by that command from its own phase. -/
def Obligations.PhaseTransitions : Prop :=
  ∀ (i : Instr) (s t : State), exec i s = .next t →
    t.phase = s.phase ∨ t.phase = .error ∨ (i = .clr ∧ t.phase = .load) ∨
    (i = .eop ∧ s.phase = .load ∧ t.phase = .counted) ∨ (i = .build ∧ s.phase = .counted ∧ t.phase = .built) ∨
    (i = .walk ∧ s.phase = .built ∧ t.phase = .coded) ∨ (i = .hdr ∧ s.phase = .coded ∧ t.phase = .encode) ∨
    (i = .fin ∧ s.phase = .encode ∧ t.phase = .done)

/-- R172: a step that enters phase `ERROR` consumed a command word, wrote a code and that word into `ERR` and `ERRW`, and changed
nothing else; the line `error` is high. -/
def Obligations.ErrorsArePrecise : Prop :=
  ∀ s t : State, step s = .next t → s.phase ≠ .error → t.phase = .error →
    ∃ w rest code, s.input = .word w :: rest ∧ code ≠ .noError ∧
      t = { s with input := rest, err := code, errw := w, phase := .error } ∧ t.errorLine = true

/-- R174: in phase `ERROR` every word but `CLR` is ignored and changes nothing. -/
def Obligations.ErrorPhaseIsSticky : Prop :=
  ∀ (s : State) (w : Word) (rest : List HostInput), s.phase = .error → s.input = .word w :: rest → w ≠ 0x1000#16 →
    step s = .next { s with input := rest }

/-- R175: only `CLR` or reset leaves phase `ERROR`, and both start from the reset state. -/
def Obligations.OnlyClrOrResetLeavesError : Prop :=
  ∀ s t : State, step s = .next t → s.phase = .error → t.phase ≠ .error →
    ∃ rest, (s.input = .word 0x1000#16 :: rest ∨ s.input = .reset :: rest) ∧
      t = { State.resetWith s.cfg with input := rest }

/-- R173: the order of the tests: phase `ERROR`, illegal word, wrong phase, then the command's own tests, `LENGTH_MISMATCH` before
`MISSING_CODE`. -/
def Obligations.ErrorPriority : Prop :=
  ∀ (s : State) (w : Word) (rest : List HostInput), s.input = .word w :: rest →
    (s.phase = .error → w ≠ 0x1000#16 → step s = .next { s with input := rest }) ∧
    (s.phase ≠ .error → (∃ e, decode w = .error e) →
      step s = .next { s with input := rest, err := .illegalCmd, errw := w, phase := .error }) ∧
    (∀ i h, decode w = .ok i → homePhase i = some h → s.phase ≠ .error → s.phase ≠ h →
      step s = .next { s with input := rest, err := .protocol, errw := w, phase := .error }) ∧
    (s.phase = .encode → ∀ d, decode w = .ok (.enc d) → s.encCnt = s.len →
      step s = .next { s with input := rest, err := .lengthMismatch, errw := w, phase := .error }) ∧
    (s.phase = .encode → ∀ d, decode w = .ok (.enc d) → s.encCnt ≠ s.len → countAt s.codeLen d.toNat = 0 →
      step s = .next { s with input := rest, err := .missingCode, errw := w, phase := .error }) ∧
    (s.phase = .encode → decode w = .ok .fin → s.encCnt ≠ s.len →
      step s = .next { s with input := rest, err := .lengthMismatch, errw := w, phase := .error }) ∧
    (s.phase = .encode → decode w = .ok .fin → s.encCnt = s.len → countAt s.codeLen 256 = 0 →
      step s = .next { s with input := rest, err := .missingCode, errw := w, phase := .error }) ∧
    (s.phase = .load → w = 0x8042#16 →
      step s = .next { s with input := rest, err := .protocol, errw := w, phase := .error }) ∧
    (s.phase ≠ .error → w = 0x8142#16 →
      step s = .next { s with input := rest, err := .illegalCmd, errw := w, phase := .error })

/-- R25, R22, R171: the fields of `STATUS` and the lines `done` and `error`. -/
def Obligations.StatusLayout : Prop :=
  ∀ s : State,
    (s.status.extractLsb' 0 3).toNat = (match s.phase with
      | .load => 0 | .counted => 1 | .built => 2 | .coded => 3 | .encode => 4 | .done => 5 | .error => 7) ∧
    s.status.extractLsb' 3 1 = 0#1 ∧
    (s.status.extractLsb' 4 4).toNat = (match s.err with
      | .noError => 0 | .illegalCmd => 1 | .protocol => 2 | .nameOverflow => 3 | .countOverflow => 4 | .degenerate => 5
      | .missingCode => 6 | .lengthMismatch => 7) ∧
    s.status.extractLsb' 8 8 = 0#8 ∧ s.status.extractLsb' 16 16 = s.errw ∧
    (s.doneLine = true ↔ s.phase = .done) ∧ (s.errorLine = true ↔ s.phase = .error)

/-! ## The commands -/

/-- R160: `NOP` changes nothing in any phase; its word is 0x0000; the words 0x0001 to 0x0FFF are illegal. -/
def Obligations.NopDoesNothing : Prop :=
  (∀ s : State, exec .nop s = .next s) ∧ encode .nop = 0x0000#16 ∧
  ∀ w : Word, 1 ≤ w.toNat → w.toNat ≤ 0x0FFF → ∃ e, decode w = .error e

/-- R161: `CLR` leaves the state after reset, in any phase, the inputs still waiting and the parameters apart (log 1, log 2). -/
def Obligations.ClrReturnsToReset : Prop :=
  encode .clr = 0x1000#16 ∧ ∀ s : State, exec .clr s = .next { State.resetWith s.cfg with input := s.input }

/-- R150: `NAME d` appends one byte to the file name, or raises `NAME_OVERFLOW` when the buffer is full, or is rejected outside phase
`LOAD`; nothing else changes. -/
def Obligations.NameAppendsOneByte : Prop :=
  ∀ (d : Byte) (s : State),
    encode (.name d) = 0x20#8 ++ d ∧
    (s.phase = .load → s.nameLen < s.cfg.nameMax →
      ∃ m, exec (.name d) s = .next { s with nameBuf := m, nameLen := s.nameLen + 1 } ∧
        memFind m s.nameLen = some d ∧ ∀ i, i ≠ s.nameLen → memFind m i = memFind s.nameBuf i) ∧
    (s.phase = .load → s.nameLen = s.cfg.nameMax →
      exec (.name d) s = .next { s with err := .nameOverflow, errw := encode (.name d), phase := .error }) ∧
    rejectedOutside (.name d) .load s

/-- R100: `CNT d` adds one to `FREQ[d]` and to `LEN`, or raises `COUNT_OVERFLOW` when `LEN` is `LEN_MAX`, or is rejected outside phase
`LOAD`; nothing else changes. -/
def Obligations.CntCountsOneByte : Prop :=
  ∀ (d : Byte) (s : State),
    encode (.cnt d) = 0x30#8 ++ d ∧
    (s.phase = .load → s.len ≠ 2 ^ s.cfg.freqW - 2 →
      ∃ f, exec (.cnt d) s = .next { s with freq := f, len := s.len + 1 } ∧
        countAt f d.toNat = countAt s.freq d.toNat + 1 ∧ ∀ n, n ≠ d.toNat → countAt f n = countAt s.freq n) ∧
    (s.phase = .load → s.len = 2 ^ s.cfg.freqW - 2 →
      exec (.cnt d) s = .next { s with err := .countOverflow, errw := encode (.cnt d), phase := .error }) ∧
    rejectedOutside (.cnt d) .load s

/-- R101: `EOP` forces the end-of-stream count, counts the present symbols and closes the histogram; nothing else changes; `K` is at
least 1, is 1 on an empty input and 257 when every byte value is present. -/
def Obligations.EopClosesTheHistogram : Prop :=
  ∀ s : State,
    encode .eop = 0x4000#16 ∧
    (s.phase = .load →
      ∃ f k, exec .eop s = .next { s with freq := f, k := k, phase := .counted } ∧
        countAt f 256 = 1 ∧ (∀ n, n ≠ 256 → countAt f n = countAt s.freq n) ∧
        k = ((List.range 257).filter fun n => 0 < countAt f n).length ∧ 1 ≤ k ∧
        ((∀ n < 256, countAt s.freq n = 0) → k = 1) ∧ ((∀ n < 256, 0 < countAt s.freq n) → k = 257)) ∧
    rejectedOutside .eop .load s

/-- R102: what holds of the histogram after `EOP`, in every state that meets the invariant. -/
def Obligations.HistogramAfterEop : Prop :=
  ∀ s t : State, s.Inv → s.phase = .load → exec .eop s = .next t →
    1 ≤ t.k ∧ t.k ≤ 257 ∧ symbolSum t.freq = t.len + 1 ∧ countAt t.freq 256 = 1 ∧
    t.k = ((List.range 256).filter fun n => 0 < countAt t.freq n).length + 1 ∧ (2 ≤ t.k ↔ 1 ≤ t.len)

/-! ## The Table Builder -/

/-- R111: `MATERIALIZE` puts a leaf for every present symbol into the slots from 0, symbols ascending, and writes no other slot. -/
def Obligations.MaterializeListsPresentSymbols : Prop :=
  ∀ (f : Memory Nat) (t : Memory TableEntry), ∃ t', materialize f t = .ok t' ∧
    readSlots t' 0 (presentCount f) =
      .ok (((List.range 257).filter fun n => 0 < countAt f n).map fun n =>
        { glyph := Int.ofNat n, freq := countAt f n, left := -1, right := -1 }) ∧
    ∀ j, presentCount f ≤ j → memFind t' j = memFind t j

/-- R112: `SORT` leaves the same entries in slots 0 .. K − 1, ascending by `(freq, glyph)`, strictly where the glyphs are distinct as
after `MATERIALIZE`, and writes no other slot. -/
def Obligations.SortOrdersTheLeaves : Prop :=
  ∀ (k : Nat) (t : Memory TableEntry) (xs : List TableEntry), readSlots t 0 k = .ok xs → (xs.map TableEntry.glyph).Nodup →
    ∃ t' ys, sortLeaves k t = .ok t' ∧ readSlots t' 0 k = .ok ys ∧ ys.Perm xs ∧
      ys.Pairwise (fun a b => a.freq < b.freq ∨ (a.freq = b.freq ∧ a.glyph < b.glyph)) ∧
      ∀ j, k ≤ j → memFind t' j = memFind t j

/-- R115: `SIFTDOWN(i, n)` compares slot `i` with its children inside the heap, both comparisons strict, the left child first; it stops
where `i` is no heavier, else swaps whole entries and goes on below: the bound on the model's loop never cuts it short (log 10). -/
def Obligations.SiftDownIsItsLoop : Prop :=
  ∀ (i n : Nat) (t : Memory TableEntry),
    (siftDown i n t = match siftTarget t i n with
      | .error e => .error e
      | .ok s => if s = i then .ok t else
        match swapSlots t i s with
        | .error e => .error e
        | .ok t' => siftDown s n t') ∧
    (n ≤ 513 → slotsWritten t n → i < n →
      siftTarget t i n = .ok
        (let s := if 2 * i + 1 < n ∧ weightAt t (2 * i + 1) < weightAt t i then 2 * i + 1 else i
         if 2 * i + 2 < n ∧ weightAt t (2 * i + 2) < weightAt t s then 2 * i + 2 else s) ∧
      ∀ s < n, ∃ t', swapSlots t i s = .ok t' ∧
        ∀ j, memFind t' j = if j = s then memFind t i else if j = i then memFind t s else memFind t j)

/-- R116: where at most slot `m` of a heap is out of order, `REHEAP(n)` has the effect of the one `SIFTDOWN(m, n)`, and leaves a heap
in order. -/
def Obligations.ReheapIsOneSiftDown : Prop :=
  ∀ (t : Memory TableEntry) (n m : Nat), n ≤ 513 → slotsWritten t n → m < n →
    (∀ i < n, 1 ≤ i → (i - 1) / 2 ≠ m → heapAt t i) →
    (∀ i < n, 1 ≤ i → (i - 1) / 2 = m → 1 ≤ m → weightAt t ((m - 1) / 2) ≤ weightAt t i) →
    ∃ t', reheap n t = .ok t' ∧ siftDown m n t = .ok t' ∧ slotsWritten t' n ∧ heapOrdered t' n ∧
      ∀ j, n ≤ j → memFind t' j = memFind t j

/-- R113, R114: `MERGE_ITER` on a heap in order takes its two lightest entries out (the root `x`, then `y`, a child of the root lightest
among the rest), parks them in slots `HEAPEND` and `FIRSTFREE`, puts their merge node into the heap, leaves the heap in order and one
slot shorter, and changes no other slot outside the heap. -/
def Obligations.MergeIterTakesTheTwoLightest : Prop :=
  ∀ b : Builder, 2 ≤ b.heapEnd → b.heapEnd < b.firstFree → b.firstFree ≤ 512 → slotsWritten b.table (b.heapEnd + 1) →
    heapOrdered b.table (b.heapEnd + 1) →
    ∃ b' x y m, mergeIter b = .ok b' ∧ b'.heapEnd = b.heapEnd - 1 ∧ b'.firstFree = b.firstFree + 1 ∧
      memFind b.table 0 = some x ∧ (m = 1 ∨ m = 2) ∧ memFind b.table m = some y ∧
      (weightAt b.table 1 = weightAt b.table 2 → m = 1) ∧
      (∀ j, 1 ≤ j → j ≤ b.heapEnd → y.freq ≤ weightAt b.table j) ∧
      memFind b'.table b.heapEnd = some x ∧ memFind b'.table b.firstFree = some y ∧
      slotsWritten b'.table b.heapEnd ∧ heapOrdered b'.table b.heapEnd ∧
      (∃ j < b.heapEnd, memFind b'.table j = some
        { glyph := -1, freq := x.freq + y.freq, left := Int.ofNat b.heapEnd, right := Int.ofNat b.firstFree }) ∧
      ∀ j, b.heapEnd < j → j ≠ b.firstFree → memFind b'.table j = memFind b.table j

/-- R110, R119, R120: with the histogram closed and at least two symbols `BUILD` completes, with no access outside `TABLE` and no read
of an unwritten slot: it writes slots 0 .. 2K − 2 and no other, leaves the cursors at 1 and 2K − 2, and changes nothing else; with
`K < 2` it raises `DEGENERATE`; outside phase `COUNTED` it is rejected. -/
def Obligations.BuildCompletes : Prop :=
  ∀ s : State,
    encode .build = 0x5000#16 ∧
    (s.phase = .counted → 2 ≤ s.k → s.k = presentCount s.freq →
      ∃ t, exec .build s = .next { s with table := t, heapEnd := 1, firstFree := 2 * s.k - 2, phase := .built } ∧
        slotsWritten t (2 * s.k - 1) ∧ ∀ j, 2 * s.k - 1 ≤ j → memFind t j = memFind s.table j) ∧
    (s.phase = .counted → s.k < 2 →
      exec .build s = .next { s with err := .degenerate, errw := 0x5000#16, phase := .error }) ∧
    rejectedOutside .build .counted s

/-- R118(a), (b), (d), (f) and R34: after `BUILD` the root at slot 0 is a merge node whose weight is the sum of all counts; every
slot 0 .. 2K − 2 holds a leaf of a symbol with that symbol's count, or a merge node whose weight is the sum of its children's, the
children being slots 1 .. 2K − 2 parked by an earlier merge. -/
def Obligations.BuildTableIsAMergeTree : Prop :=
  ∀ s : State, s.phase = .counted → 2 ≤ s.k → s.k = presentCount s.freq →
    ∃ t, exec .build s = .next t ∧ tableOrdered t.table s.k ∧ weightAt t.table 0 = symbolSum s.freq ∧
      ∀ j < 2 * s.k - 1, ∃ e, memFind t.table j = some e ∧
        ((∃ n ≤ 256, 0 < countAt s.freq n ∧ e = { glyph := Int.ofNat n, freq := countAt s.freq n, left := -1, right := -1 }) ∨
         (∃ l r x y, 1 ≤ l ∧ l < 2 * s.k - 1 ∧ 1 ≤ r ∧ r < 2 * s.k - 1 ∧ memFind t.table l = some x ∧
            memFind t.table r = some y ∧
            e = { glyph := -1, freq := x.freq + y.freq, left := Int.ofNat l, right := Int.ofNat r }))

/-- R118(c), (e): after `BUILD` every present symbol is the glyph of exactly one slot, an absent one of none, and every slot
1 .. 2K − 2 is the child of exactly one merge node, slot 0 of none. -/
def Obligations.BuildPlacesEveryLeafOnce : Prop :=
  ∀ s t : State, s.phase = .counted → 2 ≤ s.k → s.k = presentCount s.freq → exec .build s = .next t →
    (∀ n ≤ 256, 0 < countAt s.freq n →
      ∃! j, j < 2 * s.k - 1 ∧ ∃ e, memFind t.table j = some e ∧ e.glyph = Int.ofNat n) ∧
    (∀ n ≤ 256, countAt s.freq n = 0 →
      ∀ j < 2 * s.k - 1, ∀ e, memFind t.table j = some e → e.glyph ≠ Int.ofNat n) ∧
    (∀ j, 1 ≤ j → j < 2 * s.k - 1 →
      ∃! i, i < 2 * s.k - 1 ∧ ∃ e, memFind t.table i = some e ∧ (e.left = Int.ofNat j ∨ e.right = Int.ofNat j)) ∧
    (∀ i < 2 * s.k - 1, ∀ e, memFind t.table i = some e → e.left ≠ 0 ∧ e.right ≠ 0)

/-- R110: the table is a function of the histogram alone: two states with the same `FREQ` and `K` get the same slots 0 .. 2K − 2,
whatever `TABLE` and every other piece of state held before. -/
def Obligations.TableDependsOnHistogramOnly : Prop :=
  ∀ s s' t t' : State, s.phase = .counted → s'.phase = .counted → s.freq = s'.freq → s.k = s'.k → 2 ≤ s.k →
    s.k = presentCount s.freq → exec .build s = .next t → exec .build s' = .next t' →
    ∀ j < 2 * s.k - 1, memFind t.table j = memFind t'.table j

/-! ## The Code Generator -/

/-- R130, R131: `WALK` gives every leaf's symbol the path to it as its code, leaves every other symbol's entries as they were, and
changes nothing else; outside phase `BUILT` it is rejected. -/
def Obligations.WalkAssignsThePaths : Prop :=
  ∀ s : State,
    encode .walk = 0x6000#16 ∧
    (∀ tree : CodeTree, s.phase = .built → treeAt s.table 0 tree = true → tree.depth ≤ 256 → tree.symbols.Nodup →
      (∀ n ∈ tree.symbols, n ≤ 256) → Memory.wf countBlank nsym s.codeLen →
      ∃ cl cb, exec .walk s = .next { s with codeLen := cl, codeBits := cb, phase := .coded } ∧
        (∀ e ∈ tree.paths [], countAt cl e.1 = e.2.length ∧ memFind cb e.1 = some e.2) ∧
        ∀ n, n ∉ tree.symbols → countAt cl n = countAt s.codeLen n ∧ memFind cb n = memFind s.codeBits n) ∧
    rejectedOutside .walk .built s

/-- R132(a), (d): the codes `WALK` derives from a tree whose root is a merge node are prefix-free, and their Kraft sum is 1 (over the
common denominator 2^256). -/
def Obligations.CodesArePrefixFree : Prop :=
  ∀ (s t : State) (l r : CodeTree), s.phase = .built → treeAt s.table 0 (.node l r) = true → (CodeTree.node l r).depth ≤ 256 →
    (CodeTree.node l r).symbols.Nodup → s.codeLen = [] → exec .walk s = .next t →
    (∀ m n p q, m ≠ n → t.codeOf m = some p → t.codeOf n = some q → ¬ p <+: q) ∧
    ((List.range 257).map fun n => match t.codeOf n with
      | none => 0
      | some p => 2 ^ (256 - p.length)).sum = 2 ^ 256

/-! ## The Artifact Writer and the Bit Packer -/

/-- R62, R64: `le32` of an int32 reads back as that integer, is its value in base 256 from the least significant byte on, and −1 is
`FF FF FF FF`. -/
def Obligations.IntegersAreLittleEndian : Prop :=
  (∀ (v : Int) (rest : List Byte), -2 ^ 31 ≤ v → v < 2 ^ 31 → takeInt32 (le32 v ++ rest) = some (v, rest)) ∧
  (∀ n : Nat, n < 2 ^ 31 → (le32 (Int.ofNat n)).map BitVec.toNat = [n % 256, n / 256 % 256, n / 65536 % 256, n / 16777216]) ∧
  le32 (-1) = [0xFF#8, 0xFF#8, 0xFF#8, 0xFF#8]

/-- R151: `HDR` emits the name header and slots 0 .. 2K − 2 of the table, `4 + NAMELEN + 4 + 12 × (2K − 1)` bytes, and writes nothing but
`OUT` and `PHASE`; outside phase `CODED` it is rejected. -/
def Obligations.HdrEmitsHeaderAndTable : Prop :=
  ∀ s : State,
    encode .hdr = 0x7000#16 ∧
    (∀ (name : List Byte) (entries : List TableEntry), s.phase = .coded → s.nameLen ≤ s.cfg.nameMax → 1 ≤ s.k → s.k ≤ 257 →
      name.length = s.nameLen → (∀ i < s.nameLen, memFind s.nameBuf i = name[i]?) →
      entries.length = 2 * s.k - 1 → (∀ j < 2 * s.k - 1, memFind s.table j = entries[j]?) →
      ∃ bytes, exec .hdr s = .next { s with out := s.out ++ bytes, phase := .encode } ∧
        bytes = le32 (Int.ofNat s.nameLen) ++ name ++ le32 (Int.ofNat (2 * s.k - 1)) ++
          entries.flatMap (fun e => le32 e.glyph ++ le32 e.left ++ le32 e.right) ∧
        bytes.length = 4 + s.nameLen + 4 + 12 * (2 * s.k - 1)) ∧
    rejectedOutside .hdr .coded s

/-- R140, R141: `ENC d` appends the code of `d` to the bits taken so far, first bit first, emitting every byte that fills (at most 32),
and adds one to `ENCCNT`; nothing else changes; the two errors, in their order; outside phase `ENCODE` it is rejected. -/
def Obligations.EncAppendsTheCode : Prop :=
  ∀ (d : Byte) (s : State),
    encode (.enc d) = 0x80#8 ++ d ∧
    (∀ bits : List Bool, s.phase = .encode → s.encCnt ≠ s.len → countAt s.codeLen d.toNat ≠ 0 →
      memFind s.codeBits d.toNat = some bits → countAt s.codeLen d.toNat ≤ bits.length → s.acc.toNat < 2 ^ s.nbits.val →
      ∃ p : Packer, exec (.enc d) s =
          .next { s with acc := p.acc, nbits := p.nbits, out := p.out, encCnt := s.encCnt + 1 } ∧
        streamBits p = streamBits s.packer ++ bits.take (countAt s.codeLen d.toNat) ∧ p.acc.toNat < 2 ^ p.nbits.val ∧
        s.out <+: p.out ∧ (countAt s.codeLen d.toNat ≤ 256 → p.out.length ≤ s.out.length + 32)) ∧
    (s.phase = .encode → s.encCnt = s.len →
      exec (.enc d) s = .next { s with err := .lengthMismatch, errw := encode (.enc d), phase := .error }) ∧
    (s.phase = .encode → s.encCnt ≠ s.len → countAt s.codeLen d.toNat = 0 →
      exec (.enc d) s = .next { s with err := .missingCode, errw := encode (.enc d), phase := .error }) ∧
    rejectedOutside (.enc d) .encode s

/-- R142: `FIN` appends the end-of-stream code and pads the last byte with fewer than eight zero bits, always emitting a byte; `ACC` and
`NBITS` end at 0 and the phase is `DONE`; nothing else changes; the two errors, in their order; outside phase `ENCODE` it is
rejected. -/
def Obligations.FinPadsTheLastByte : Prop :=
  ∀ s : State,
    encode .fin = 0x9000#16 ∧
    (∀ bits : List Bool, s.phase = .encode → s.encCnt = s.len → countAt s.codeLen 256 ≠ 0 →
      memFind s.codeBits 256 = some bits → countAt s.codeLen 256 ≤ bits.length → s.acc.toNat < 2 ^ s.nbits.val →
      ∃ (out : List Byte) (pad : Nat), exec .fin s = .next { s with acc := 0#8, nbits := 0, out := out, phase := .done } ∧
        out.flatMap bitsOfByte =
          streamBits s.packer ++ bits.take (countAt s.codeLen 256) ++ List.replicate pad false ∧ pad < 8 ∧
        s.out <+: out ∧ s.out.length < out.length) ∧
    (s.phase = .encode → s.encCnt ≠ s.len →
      exec .fin s = .next { s with err := .lengthMismatch, errw := 0x9000#16, phase := .error }) ∧
    (s.phase = .encode → s.encCnt = s.len → countAt s.codeLen 256 = 0 →
      exec .fin s = .next { s with err := .missingCode, errw := 0x9000#16, phase := .error }) ∧
    rejectedOutside .fin .encode s

/-- R143: over a whole pass 2, `ENC` of each input byte and then `FIN` emit exactly the packed bytes of the concatenated codes with the
end-of-stream code last, and change nothing else but `ENCCNT` and `PHASE`. -/
def Obligations.PackedBytesAreTheBitSequence : Prop :=
  ∀ (s : State) (bs : List Byte), s.phase = .encode → s.acc = 0#8 → s.nbits = 0 → s.encCnt = 0 → s.len = bs.length →
    s.codesAgree → (∀ b ∈ bs, countAt s.codeLen b.toNat ≠ 0) → countAt s.codeLen 256 ≠ 0 →
    execAll (bs.map .enc ++ [.fin]) s =
      .next { s with
        encCnt := s.len, phase := .done,
        out := s.out ++ packed (bs.flatMap (fun b => (s.codeOf b.toNat).getD []) ++ (s.codeOf 256).getD []) }

/-! ## The whole machine -/

/-- R60, R37: which commands write each memory and `OUT`. (`CLR` makes `TABLE`, `CODEBITS` and `NAMEBUF` hold no value, R161, log 5.) -/
def Obligations.MemoriesWrittenOnlyByTheirCommands : Prop :=
  ∀ (i : Instr) (s t : State), exec i s = .next t → i ≠ .clr →
    (t.freq ≠ s.freq → (∃ d, i = .cnt d) ∨ i = .eop) ∧ (t.table ≠ s.table → i = .build) ∧
    (t.codeLen ≠ s.codeLen → i = .walk) ∧ (t.codeBits ≠ s.codeBits → i = .walk) ∧
    (t.nameBuf ≠ s.nameBuf → ∃ d, i = .name d) ∧ (t.out ≠ s.out → i = .hdr ∨ (∃ d, i = .enc d) ∨ i = .fin)

/-- R21: which commands write each datapath register, and that no command writes the parameters or the waiting inputs. -/
def Obligations.RegistersWrittenOnlyByTheirCommands : Prop :=
  ∀ (i : Instr) (s t : State), exec i s = .next t →
    t.cfg = s.cfg ∧ t.input = s.input ∧
    (i ≠ .clr →
      (t.nameLen ≠ s.nameLen → ∃ d, i = .name d) ∧ (t.len ≠ s.len → ∃ d, i = .cnt d) ∧
      (t.encCnt ≠ s.encCnt → ∃ d, i = .enc d) ∧ (t.k ≠ s.k → i = .eop) ∧ (t.heapEnd ≠ s.heapEnd → i = .build) ∧
      (t.firstFree ≠ s.firstFree → i = .build) ∧ (t.acc ≠ s.acc → (∃ d, i = .enc d) ∨ i = .fin) ∧
      (t.nbits ≠ s.nbits → (∃ d, i = .enc d) ∨ i = .fin))

/-- R37, R68: bytes leave in the order they are emitted and are never taken back: a step only appends to `OUT`, but for `CLR` and
reset. -/
def Obligations.OutputOnlyGrows : Prop :=
  ∀ s t : State, step s = .next t → (∀ rest, s.input ≠ .reset :: rest) → (∀ rest, s.input ≠ .word 0x1000#16 :: rest) →
    s.out <+: t.out

/-- The invariants hold after reset with any parameters of R6, and with the defaults. -/
def Obligations.InvariantsHoldAtReset : Prop :=
  (∀ cfg : Config, (State.resetWith cfg).Inv) ∧ (∀ cfg : Config, cfg.wf → (State.resetWith cfg).RunInv) ∧ State.reset.RunInv

/-- The invariant is kept by every step, from every state that meets it: canonical memories in range (R60), registers in range (R21),
`ACC`'s unfilled bits 0 (R31), `ERR` agreeing with `PHASE` (R23, R24), codes and their lengths agreeing (R36), the name written
(R38), and `LEN` the sum of the byte counts (R27). -/
def Obligations.InvariantKeptByEveryStep : Prop := ∀ s t : State, s.Inv → step s = .next t → t.Inv

/-- R61, R72, R120: from every state that meets the invariant of a run, whatever input waits, the step goes on without a fault of the
model and keeps that invariant. -/
def Obligations.RunsNeverFault : Prop := ∀ s : State, s.RunInv → safeStep s

/-- R131, R132(b), (c): from a closed histogram of at least two symbols, `BUILD` and `WALK` give a code of 1 to K − 1 bits to every
present symbol, the end-of-stream symbol among them, and to no other. -/
def Obligations.EveryPresentSymbolHasACode : Prop :=
  ∀ s : State, s.RunInv → s.phase = .counted → 2 ≤ s.k →
    ∃ t, execAll [.build, .walk] s = .next t ∧ t.phase = .coded ∧ countAt t.codeLen 256 ≠ 0 ∧
      ∀ n ≤ 256, (0 < countAt s.freq n ↔ countAt t.codeLen n ≠ 0) ∧ countAt t.codeLen n ≤ s.k - 1 ∧
        (countAt t.codeLen n ≠ 0 → ∃ p, t.codeOf n = some p ∧ p.length = countAt t.codeLen n)

/-- R176(b), R119: an empty input never reaches an artifact: whatever the name and whatever state the block was in, the run ends in
phase `ERROR` with `DEGENERATE` raised by `BUILD`, and nothing has been emitted. -/
def Obligations.EmptyInputEndsInError : Prop :=
  ∀ (s : State) (n : List Byte), n.length ≤ s.cfg.nameMax →
    ∃ t, execAll (expand (.compress n [])) s = .next t ∧ t.phase = .error ∧ t.err = .degenerate ∧ t.errw = 0x5000#16 ∧ t.out = []

/-- R88, R11, R152, R156 (95_test_vectors.md part 5, law 9): for every name and every input within the capacities, whatever state the
block was in, the run of `COMPRESS` ends in phase `DONE` and the decoder's contract reads the input back from `OUT`. -/
def Obligations.CompressRoundTrip : Prop :=
  ∀ (s : State) (n bs : List Byte), s.cfg.wf → n.length ≤ s.cfg.nameMax → 1 ≤ bs.length → bs.length ≤ s.cfg.lenMax →
    ∃ t, execAll (expand (.compress n bs)) s = .next t ∧ t.phase = .done ∧ decodeArtifact t.out = some bs
end

