-- ==== Sys2Proof/Laws/Memory.lean ====
section
/-! SUPPORT. The laws of the internal memories: a read after a write, every other entry left alone, and the canonical form kept by
every memory operation. -/

namespace Sys2Proof.Machine

variable {α : Type}

@[simp] theorem memFind_nil (a : Nat) : memFind ([] : Memory α) a = none := rfl

theorem memFind_put_self (m : Memory α) (a : Nat) (v : α) : memFind (memPut m a v) a = some v := by
  induction m with
  | nil => simp [memPut, memFind]
  | cons c m ih =>
    obtain ⟨b, w⟩ := c
    unfold memPut
    split
    · simp [memFind]
    · split
      · simp [memFind]
      · rename_i h1 h2
        simp only [memFind]
        rw [if_neg (fun e => h2 e.symm)]
        exact ih

theorem memFind_put_ne (m : Memory α) {a b : Nat} (v : α) (h : b ≠ a) : memFind (memPut m a v) b = memFind m b := by
  induction m with
  | nil => simp [memPut, memFind, Ne.symm h]
  | cons c m ih =>
    obtain ⟨k, w⟩ := c
    unfold memPut
    split
    · simp [memFind, Ne.symm h]
    · split
      · rename_i h1 h2
        subst h2
        simp [memFind, Ne.symm h]
      · simp only [memFind]
        split
        · rfl
        · exact ih

/-- What every index holds after a write. -/
theorem memFind_put (m : Memory α) (a b : Nat) (v : α) :
    memFind (memPut m a v) b = if b = a then some v else memFind m b := by
  split
  · rename_i h; subst h; exact memFind_put_self m b v
  · rename_i h; exact memFind_put_ne m v h

theorem memFind_erase_ne (m : Memory α) {a b : Nat} (h : b ≠ a) : memFind (memErase m a) b = memFind m b := by
  induction m with
  | nil => rfl
  | cons c m ih =>
    obtain ⟨k, w⟩ := c
    unfold memErase
    split
    · rename_i h1; subst h1; simp [memFind, Ne.symm h]
    · simp only [memFind]
      split
      · rfl
      · exact ih

/-- An index below every listed one is not listed. -/
theorem memFind_eq_none_of_lt {m : Memory α} {a : Nat} (h : ∀ c ∈ m, a < c.1) : memFind m a = none := by
  induction m with
  | nil => rfl
  | cons c m ih =>
    obtain ⟨k, w⟩ := c
    have hk : a < k := h (k, w) (by simp)
    simp only [memFind]
    rw [if_neg (by omega)]
    exact ih fun c hc => h c (by simp [hc])

theorem memFind_erase_self {m : Memory α} {a : Nat} (h : m.Pairwise fun x y => x.1 < y.1) :
    memFind (memErase m a) a = none := by
  induction m with
  | nil => rfl
  | cons c m ih =>
    obtain ⟨k, w⟩ := c
    rw [List.pairwise_cons] at h
    unfold memErase
    split
    · rename_i h1; subst h1
      exact memFind_eq_none_of_lt fun c hc => h.1 c hc
    · rename_i h1
      simp only [memFind]
      rw [if_neg h1]
      exact ih h.2

theorem mem_of_memFind {m : Memory α} {a : Nat} {v : α} (h : memFind m a = some v) : (a, v) ∈ m := by
  induction m with
  | nil => simp [memFind] at h
  | cons c m ih =>
    obtain ⟨k, w⟩ := c
    simp only [memFind] at h
    split at h
    · rename_i h1; subst h1; simp_all
    · exact List.mem_cons_of_mem _ (ih h)

/-- In a canonical memory, what is listed is what is found. -/
theorem memFind_of_mem {m : Memory α} (hp : m.Pairwise fun x y => x.1 < y.1) {a : Nat} {v : α} (h : (a, v) ∈ m) :
    memFind m a = some v := by
  induction m with
  | nil => simp at h
  | cons c m ih =>
    obtain ⟨k, w⟩ := c
    rw [List.pairwise_cons] at hp
    simp only [memFind]
    rcases List.mem_cons.mp h with h | h
    · cases h; simp
    · have : k < a := hp.1 _ h
      rw [if_neg (by omega)]
      exact ih hp.2 h

/-- Everything listed after a write was listed before or is the entry written. -/
theorem mem_memPut {m : Memory α} {a : Nat} {v : α} {c : Nat × α} (h : c ∈ memPut m a v) : c = (a, v) ∨ c ∈ m := by
  induction m with
  | nil => simp [memPut] at h; exact Or.inl h
  | cons d m ih =>
    obtain ⟨k, w⟩ := d
    unfold memPut at h
    split at h
    · rcases List.mem_cons.mp h with h | h
      · exact Or.inl h
      · exact Or.inr h
    · split at h
      · rcases List.mem_cons.mp h with h | h
        · exact Or.inl h
        · exact Or.inr (List.mem_cons_of_mem _ h)
      · rcases List.mem_cons.mp h with h | h
        · exact Or.inr (by simp [h])
        · rcases ih h with h | h
          · exact Or.inl h
          · exact Or.inr (List.mem_cons_of_mem _ h)

theorem mem_memErase {m : Memory α} {a : Nat} {c : Nat × α} (h : c ∈ memErase m a) : c ∈ m := by
  induction m with
  | nil => exact h
  | cons d m ih =>
    obtain ⟨k, w⟩ := d
    unfold memErase at h
    split at h
    · exact List.mem_cons_of_mem _ h
    · rcases List.mem_cons.mp h with h | h
      · simp [h]
      · exact List.mem_cons_of_mem _ (ih h)

theorem memPut_rising {m : Memory α} (a : Nat) (v : α) (h : m.Pairwise fun x y => x.1 < y.1) :
    (memPut m a v).Pairwise fun x y => x.1 < y.1 := by
  induction m with
  | nil => simp [memPut]
  | cons d m ih =>
    obtain ⟨k, w⟩ := d
    have h' := List.pairwise_cons.mp h
    unfold memPut
    split
    · rename_i hak
      refine List.pairwise_cons.mpr ⟨fun c hc => ?_, h⟩
      rcases List.mem_cons.mp hc with hc | hc
      · subst hc; exact hak
      · exact Nat.lt_trans hak (h'.1 c hc)
    · split
      · rename_i h1 h2; subst h2
        exact List.pairwise_cons.mpr ⟨h'.1, h'.2⟩
      · rename_i h1 h2
        refine List.pairwise_cons.mpr ⟨fun c hc => ?_, ih h'.2⟩
        rcases mem_memPut hc with hc | hc
        · subst hc; show k < a; omega
        · exact h'.1 c hc

theorem memErase_rising {m : Memory α} (a : Nat) (h : m.Pairwise fun x y => x.1 < y.1) :
    (memErase m a).Pairwise fun x y => x.1 < y.1 := by
  induction m with
  | nil => exact h
  | cons d m ih =>
    obtain ⟨k, w⟩ := d
    have h' := List.pairwise_cons.mp h
    unfold memErase
    split
    · exact h'.2
    · exact List.pairwise_cons.mpr ⟨fun c hc => h'.1 c (mem_memErase hc), ih h'.2⟩

/-- The empty memory is canonical. -/
theorem Memory.wf_nil [DecidableEq α] (blank : Option α) (size : Nat) : Memory.wf blank size ([] : Memory α) := by
  simp [Memory.wf]

/-- Listing an entry in range that is not blank keeps the canonical form. -/
theorem Memory.wf_put [DecidableEq α] {blank : Option α} {size : Nat} {m : Memory α} (h : Memory.wf blank size m)
    {a : Nat} {v : α} (ha : a < size) (hv : some v ≠ blank) : Memory.wf blank size (memPut m a v) := by
  refine ⟨memPut_rising a v h.1, fun c hc => ?_⟩
  rcases mem_memPut hc with hc | hc
  · subst hc; exact ⟨ha, hv⟩
  · exact h.2 c hc

/-- Unlisting an entry keeps the canonical form. -/
theorem Memory.wf_erase [DecidableEq α] {blank : Option α} {size : Nat} {m : Memory α} (h : Memory.wf blank size m) (a : Nat) :
    Memory.wf blank size (memErase m a) :=
  ⟨memErase_rising a h.1, fun c hc => h.2 c (mem_memErase hc)⟩

/-- Writing a count keeps the canonical form. -/
theorem Memory.wf_setCount {size : Nat} {m : Memory Nat} (h : Memory.wf countBlank size m) {a : Nat} (ha : a < size) (v : Nat) :
    Memory.wf countBlank size (setCount m a v) := by
  unfold setCount
  split
  · exact Memory.wf_erase h a
  · rename_i hv
    exact Memory.wf_put h ha (by simp [countBlank, hv])

/-- What every index of a counting memory reads after a write. -/
theorem countAt_setCount {m : Memory Nat} (h : m.Pairwise fun x y => x.1 < y.1) (a b v : Nat) :
    countAt (setCount m a v) b = if b = a then v else countAt m b := by
  unfold countAt setCount
  by_cases hb : b = a
  · subst hb
    by_cases hv : v = 0
    · simp [hv, memFind_erase_self h]
    · simp [hv, memFind_put_self]
  · by_cases hv : v = 0
    · simp [hv, hb, memFind_erase_ne m hb]
    · simp [hv, hb, memFind_put_ne m v hb]

/-- The same without the canonical form, for a count that is not zero. -/
theorem countAt_setCount_pos (m : Memory Nat) (a b : Nat) {v : Nat} (hv : v ≠ 0) :
    countAt (setCount m a v) b = if b = a then v else countAt m b := by
  unfold countAt setCount
  by_cases hb : b = a
  · subst hb; simp [hv, memFind_put_self]
  · simp [hv, hb, memFind_put_ne m v hb]

/-- Everything a read can answer. -/
theorem memRead_eq_ok {name : MemName} {size : Nat} {m : Memory α} {i : Nat} {v : α} :
    memRead name size m i = .ok v ↔ i < size ∧ memFind m i = some v := by
  unfold memRead
  by_cases hi : i < size
  · cases hf : memFind m i <;> simp [hi]
  · simp [hi]

/-- Everything a write can answer. -/
theorem memWrite_eq_ok {name : MemName} {size : Nat} {m m' : Memory α} {i : Nat} {v : α} :
    memWrite name size m i v = .ok m' ↔ i < size ∧ m' = memPut m i v := by
  unfold memWrite
  by_cases hi : i < size
  · simp [hi, eq_comm]
  · simp [hi]

/-- A write keeps the canonical form of a memory whose unlisted entries hold no value. -/
theorem Memory.wf_memWrite [DecidableEq α] {name : MemName} {size : Nat} {m m' : Memory α} {i : Nat} {v : α}
    (h : Memory.wf noValue size m) (hw : memWrite name size m i v = .ok m') : Memory.wf noValue size m' := by
  obtain ⟨hi, rfl⟩ := memWrite_eq_ok.mp hw
  exact Memory.wf_put h hi (by simp [noValue])

theorem readTable_eq_ok {t : Memory TableEntry} {i : Nat} {e : TableEntry} :
    readTable t i = .ok e ↔ i < tableSlots ∧ memFind t i = some e := memRead_eq_ok

theorem writeTable_eq_ok {t t' : Memory TableEntry} {i : Nat} {e : TableEntry} :
    writeTable t i e = .ok t' ↔ i < tableSlots ∧ t' = memPut t i e := memWrite_eq_ok

/-- Recording a code keeps both memories canonical. -/
theorem recordCode_wf {c c' : Codes} {g : Int} {p : List Bool} (h : recordCode c g p = .ok c')
    (h1 : Memory.wf countBlank nsym c.codeLen) (h2 : Memory.wf noValue nsym c.codeBits) :
    Memory.wf countBlank nsym c'.codeLen ∧ Memory.wf noValue nsym c'.codeBits := by
  unfold recordCode at h
  split at h
  · split at h
    · rename_i hs
      cases h
      exact ⟨Memory.wf_setCount h1 hs _, Memory.wf_put h2 hs (by simp [noValue])⟩
    · cases h
  · cases h

end Sys2Proof.Machine
end

