-- ==== Sys2Proof/Laws/Builder.lean ====
section
/-! SUPPORT. What each sub-operation of `BUILD` can do when it answers, and that a property of tables kept by every write of a slot is
kept by all of them (the canonical form among these). -/

namespace Sys2Proof.Machine

/-- A property of tables that every write of a slot keeps. -/
def KeptByWrites (P : Memory TableEntry → Prop) : Prop :=
  ∀ t i e t', P t → writeTable t i e = .ok t' → P t'

/-- The canonical form is such a property. -/
theorem keptByWrites_wf : KeptByWrites (Memory.wf noValue tableSlots) :=
  fun _ _ _ _ h hw => Memory.wf_memWrite h hw

theorem moveSlot_eq_ok {t t' : Memory TableEntry} {dst src : Nat} :
    moveSlot t dst src = .ok t' ↔ ∃ x, readTable t src = .ok x ∧ writeTable t dst x = .ok t' := by
  unfold moveSlot
  split <;> simp_all

theorem mergeInto0_eq_ok {t t' : Memory TableEntry} {a b l r : Nat} :
    mergeInto0 t a b l r = .ok t' ↔
      ∃ x y, readTable t a = .ok x ∧ readTable t b = .ok y ∧ writeTable t 0 (mergeNode (x.freq + y.freq) l r) = .ok t' := by
  unfold mergeInto0
  split <;> simp_all

theorem swapSlots_eq_ok {t t' : Memory TableEntry} {i j : Nat} :
    swapSlots t i j = .ok t' ↔
      ∃ x y t1, readTable t i = .ok x ∧ readTable t j = .ok y ∧ writeTable t i y = .ok t1 ∧ writeTable t1 j x = .ok t' := by
  unfold swapSlots
  split
  · split <;> simp_all
  · simp_all
  · simp_all

theorem markedSlot_eq_ok {t : Memory TableEntry} {m : Nat} :
    markedSlot t = .ok m ↔
      ∃ x y, readTable t 1 = .ok x ∧ readTable t 2 = .ok y ∧ m = if x.freq ≤ y.freq then 1 else 2 := by
  unfold markedSlot
  cases readTable t 1 <;> cases readTable t 2 <;> simp [@eq_comm _ m]

theorem pickSmaller_eq_ok {t : Memory TableEntry} {n c s m : Nat} :
    pickSmaller t n c s = .ok m ↔
      (n ≤ c ∧ m = s) ∨
      (c < n ∧ ∃ x y, readTable t c = .ok x ∧ readTable t s = .ok y ∧ m = if x.freq < y.freq then c else s) := by
  unfold pickSmaller
  by_cases hc : c < n
  · rw [if_pos hc]
    have hn : ¬ n ≤ c := by omega
    cases readTable t c <;> cases readTable t s <;> simp [hc, hn, @eq_comm _ m]
  · rw [if_neg hc]
    have hn : n ≤ c := by omega
    simp [hc, hn, @eq_comm _ m]

/-- The slot a sift-down goes to is the slot itself or one of its two children inside the heap. -/
theorem siftTarget_eq_ok {t : Memory TableEntry} {i n s : Nat} (h : siftTarget t i n = .ok s) :
    s = i ∨ (s = 2 * i + 1 ∧ s < n) ∨ (s = 2 * i + 2 ∧ s < n) := by
  unfold siftTarget at h
  split at h
  · cases h
  · rename_i m hm
    have hm' : m = i ∨ (m = 2 * i + 1 ∧ m < n) := by
      rcases pickSmaller_eq_ok.mp hm with ⟨_, h⟩ | ⟨hc, x, y, _, _, h⟩
      · exact .inl h
      · split at h
        · exact .inr ⟨h, by omega⟩
        · exact .inl h
    rcases pickSmaller_eq_ok.mp h with ⟨_, h⟩ | ⟨hc, x, y, _, _, h⟩
    · subst h
      rcases hm' with h | h
      · exact .inl h
      · exact .inr (.inl h)
    · split at h
      · exact .inr (.inr ⟨h, by omega⟩)
      · subst h
        rcases hm' with h | h
        · exact .inl h
        · exact .inr (.inl h)

variable {P : Memory TableEntry → Prop}

theorem moveSlot_keeps (hP : KeptByWrites P) {t t' : Memory TableEntry} {dst src : Nat} (h : moveSlot t dst src = .ok t')
    (ht : P t) : P t' := by
  obtain ⟨x, _, hw⟩ := moveSlot_eq_ok.mp h
  exact hP _ _ _ _ ht hw

theorem mergeInto0_keeps (hP : KeptByWrites P) {t t' : Memory TableEntry} {a b l r : Nat}
    (h : mergeInto0 t a b l r = .ok t') (ht : P t) : P t' := by
  obtain ⟨x, y, _, _, hw⟩ := mergeInto0_eq_ok.mp h
  exact hP _ _ _ _ ht hw

theorem swapSlots_keeps (hP : KeptByWrites P) {t t' : Memory TableEntry} {i j : Nat} (h : swapSlots t i j = .ok t')
    (ht : P t) : P t' := by
  obtain ⟨x, y, t1, _, _, h1, h2⟩ := swapSlots_eq_ok.mp h
  exact hP _ _ _ _ (hP _ _ _ _ ht h1) h2

theorem siftLoop_keeps (hP : KeptByWrites P) {turns i n : Nat} {t t' : Memory TableEntry}
    (h : siftLoop turns i n t = .ok t') (ht : P t) : P t' := by
  induction turns generalizing i t with
  | zero => cases h; exact ht
  | succ turns ih =>
    unfold siftLoop at h
    split at h
    · cases h
    · split at h
      · cases h; exact ht
      · split at h
        · cases h
        · rename_i t1 hs
          exact ih h (swapSlots_keeps hP hs ht)

theorem siftDown_keeps (hP : KeptByWrites P) {i n : Nat} {t t' : Memory TableEntry} (h : siftDown i n t = .ok t')
    (ht : P t) : P t' := siftLoop_keeps hP h ht

theorem reheapFrom_keeps (hP : KeptByWrites P) {c n : Nat} {t t' : Memory TableEntry} (h : reheapFrom c n t = .ok t')
    (ht : P t) : P t' := by
  induction c generalizing t with
  | zero => cases h; exact ht
  | succ c ih =>
    unfold reheapFrom at h
    split at h
    · cases h
    · rename_i t1 hs
      exact ih h (siftDown_keeps hP hs ht)

theorem reheap_keeps (hP : KeptByWrites P) {n : Nat} {t t' : Memory TableEntry} (h : reheap n t = .ok t') (ht : P t) :
    P t' := reheapFrom_keeps hP h ht

theorem except_bind_eq_ok {ε α β : Type} {x : Except ε α} {f : α → Except ε β} {b : β} :
    (x >>= f) = .ok b ↔ ∃ a, x = .ok a ∧ f a = .ok b := by
  cases x <;> simp [bind, Except.bind]

/-- Everything `MERGE_ITER` can do when it answers: its steps a to f, each with the table it leaves. -/
theorem mergeIter_eq_ok {b b' : Builder} :
    mergeIter b = .ok b' ↔
      ∃ m tb tc td te tf tg, markedSlot b.table = .ok m ∧ moveSlot b.table b.firstFree m = .ok tb ∧
        moveSlot tb m b.heapEnd = .ok tc ∧ reheap b.heapEnd tc = .ok td ∧ moveSlot td b.heapEnd 0 = .ok te ∧
        mergeInto0 te b.heapEnd b.firstFree b.heapEnd b.firstFree = .ok tf ∧ reheap b.heapEnd tf = .ok tg ∧
        b' = { table := tg, heapEnd := b.heapEnd - 1, firstFree := b.firstFree + 1 } := by
  unfold mergeIter
  simp only [except_bind_eq_ok, pure, Except.pure, Except.ok.injEq]
  constructor
  · rintro ⟨m, h1, tb, h2, tc, h3, td, h4, te, h5, tf, h6, tg, h7, h8⟩
    exact ⟨m, tb, tc, td, te, tf, tg, h1, h2, h3, h4, h5, h6, h7, h8.symm⟩
  · rintro ⟨m, tb, tc, td, te, tf, tg, h1, h2, h3, h4, h5, h6, h7, h8⟩
    exact ⟨m, h1, tb, h2, tc, h3, td, h4, te, h5, tf, h6, tg, h7, h8.symm⟩

/-- Everything `FINAL_MERGE` can do when it answers. -/
theorem finalMerge_eq_ok {b b' : Builder} :
    finalMerge b = .ok b' ↔
      ∃ ta tb, moveSlot b.table b.firstFree 0 = .ok ta ∧ mergeInto0 ta 1 b.firstFree 1 b.firstFree = .ok tb ∧
        b' = { table := tb, heapEnd := b.heapEnd, firstFree := b.firstFree } := by
  unfold finalMerge
  simp only [except_bind_eq_ok, pure, Except.pure, Except.ok.injEq]
  constructor
  · rintro ⟨ta, h1, tb, h2, h3⟩; exact ⟨ta, tb, h1, h2, h3.symm⟩
  · rintro ⟨ta, tb, h1, h2, h3⟩; exact ⟨ta, h1, tb, h2, h3.symm⟩

/-- Everything the work of `BUILD` can do when it answers. -/
theorem buildTable_eq_ok {f : Memory Nat} {k : Nat} {t : Memory TableEntry} {b : Builder} :
    buildTable f k t = .ok b ↔
      ∃ t1 t2 b1, materialize f t = .ok t1 ∧ sortLeaves k t1 = .ok t2 ∧
        mergeLoop (k - 2) { table := t2, heapEnd := k - 1, firstFree := k } = .ok b1 ∧ finalMerge b1 = .ok b := by
  unfold buildTable
  simp only [except_bind_eq_ok]
  constructor
  · rintro ⟨t1, h1, t2, h2, b1, h3, h4⟩; exact ⟨t1, t2, b1, h1, h2, h3, h4⟩
  · rintro ⟨t1, t2, b1, h1, h2, h3, h4⟩; exact ⟨t1, h1, t2, h2, b1, h3, h4⟩

theorem mergeIter_keeps (hP : KeptByWrites P) {b b' : Builder} (h : mergeIter b = .ok b') (hb : P b.table) :
    P b'.table := by
  obtain ⟨m, tb, tc, td, te, tf, tg, _, h2, h3, h4, h5, h6, h7, rfl⟩ := mergeIter_eq_ok.mp h
  exact reheap_keeps hP h7 (mergeInto0_keeps hP h6 (moveSlot_keeps hP h5 (reheap_keeps hP h4
    (moveSlot_keeps hP h3 (moveSlot_keeps hP h2 hb)))))

theorem mergeLoop_keeps (hP : KeptByWrites P) {n : Nat} {b b' : Builder} (h : mergeLoop n b = .ok b') (hb : P b.table) :
    P b'.table := by
  induction n generalizing b with
  | zero => cases h; exact hb
  | succ n ih =>
    unfold mergeLoop at h
    split at h
    · cases h
    · exact ih h (mergeIter_keeps hP ‹_› hb)

/-- The cursors after `n` iterations (R114 step f). -/
theorem mergeLoop_cursors {n : Nat} {b b' : Builder} (h : mergeLoop n b = .ok b') :
    b'.heapEnd = b.heapEnd - n ∧ b'.firstFree = b.firstFree + n := by
  induction n generalizing b with
  | zero => cases h; simp
  | succ n ih =>
    unfold mergeLoop at h
    split at h
    · cases h
    · rename_i b1 hb1
      obtain ⟨_, _, _, _, _, _, _, _, _, _, _, _, _, _, rfl⟩ := mergeIter_eq_ok.mp hb1
      obtain ⟨h1, h2⟩ := ih h
      simp only at h1 h2
      omega

theorem finalMerge_keeps (hP : KeptByWrites P) {b b' : Builder} (h : finalMerge b = .ok b') (hb : P b.table) :
    P b'.table := by
  obtain ⟨ta, tb, h1, h2, rfl⟩ := finalMerge_eq_ok.mp h
  exact mergeInto0_keeps hP h2 (moveSlot_keeps hP h1 hb)

theorem materializeFrom_keeps (hP : KeptByWrites P) {f : Memory Nat} {ss : List Nat} {j : Nat} {t t' : Memory TableEntry}
    (h : materializeFrom f ss j t = .ok t') (ht : P t) : P t' := by
  induction ss generalizing j t with
  | nil => cases h; exact ht
  | cons s ss ih =>
    unfold materializeFrom at h
    split at h
    · split at h
      · exact ih h (hP _ _ _ _ ht ‹_›)
      · cases h
    · exact ih h ht

theorem writeSlots_keeps (hP : KeptByWrites P) {i : Nat} {xs : List TableEntry} {t t' : Memory TableEntry}
    (h : writeSlots t i xs = .ok t') (ht : P t) : P t' := by
  induction xs generalizing i t with
  | nil => cases h; exact ht
  | cons x xs ih =>
    unfold writeSlots at h
    split at h
    · cases h
    · exact ih h (hP _ _ _ _ ht ‹_›)

theorem sortLeaves_keeps (hP : KeptByWrites P) {k : Nat} {t t' : Memory TableEntry} (h : sortLeaves k t = .ok t')
    (ht : P t) : P t' := by
  unfold sortLeaves at h
  split at h
  · cases h
  · exact writeSlots_keeps hP h ht

/-- A property kept by every write of a slot is kept by `BUILD`. -/
theorem buildTable_keeps (hP : KeptByWrites P) {f : Memory Nat} {k : Nat} {t : Memory TableEntry} {b : Builder}
    (h : buildTable f k t = .ok b) (ht : P t) : P b.table := by
  obtain ⟨t1, t2, b1, h1, h2, h3, h4⟩ := buildTable_eq_ok.mp h
  exact finalMerge_keeps hP h4 (mergeLoop_keeps hP h3 (sortLeaves_keeps hP h2 (materializeFrom_keeps hP h1 ht)))

/-- `BUILD` keeps the canonical form of `TABLE`. -/
theorem buildTable_wf {f : Memory Nat} {k : Nat} {t : Memory TableEntry} {b : Builder} (h : buildTable f k t = .ok b)
    (ht : Memory.wf noValue tableSlots t) : Memory.wf noValue tableSlots b.table :=
  buildTable_keeps keptByWrites_wf h ht

/-- The cursors `BUILD` leaves (10_state.md R30). -/
theorem buildTable_cursors {f : Memory Nat} {k : Nat} {t : Memory TableEntry} {b : Builder} (h : buildTable f k t = .ok b) :
    b.heapEnd = k - 1 - (k - 2) ∧ b.firstFree = k + (k - 2) := by
  obtain ⟨t1, t2, b1, h1, h2, h3, h4⟩ := buildTable_eq_ok.mp h
  obtain ⟨_, _, _, _, rfl⟩ := finalMerge_eq_ok.mp h4
  exact mergeLoop_cursors h3

end Sys2Proof.Machine
end

