-- ==== Sys2Proof/Laws/State.lean ====
section
/-! SUPPORT. One lemma per field per named update of Machine/Ops.lean, so that no later proof unfolds a record update. -/

namespace Sys2Proof.Machine

@[simp] theorem State.withPhase_phase (s : State) (p : Phase) : (s.withPhase p).phase = p := rfl
@[simp] theorem State.withPhase_err (s : State) (p : Phase) : (s.withPhase p).err = s.err := rfl
@[simp] theorem State.withPhase_errw (s : State) (p : Phase) : (s.withPhase p).errw = s.errw := rfl
@[simp] theorem State.withPhase_nameLen (s : State) (p : Phase) : (s.withPhase p).nameLen = s.nameLen := rfl
@[simp] theorem State.withPhase_len (s : State) (p : Phase) : (s.withPhase p).len = s.len := rfl
@[simp] theorem State.withPhase_encCnt (s : State) (p : Phase) : (s.withPhase p).encCnt = s.encCnt := rfl
@[simp] theorem State.withPhase_k (s : State) (p : Phase) : (s.withPhase p).k = s.k := rfl
@[simp] theorem State.withPhase_heapEnd (s : State) (p : Phase) : (s.withPhase p).heapEnd = s.heapEnd := rfl
@[simp] theorem State.withPhase_firstFree (s : State) (p : Phase) : (s.withPhase p).firstFree = s.firstFree := rfl
@[simp] theorem State.withPhase_acc (s : State) (p : Phase) : (s.withPhase p).acc = s.acc := rfl
@[simp] theorem State.withPhase_nbits (s : State) (p : Phase) : (s.withPhase p).nbits = s.nbits := rfl
@[simp] theorem State.withPhase_freq (s : State) (p : Phase) : (s.withPhase p).freq = s.freq := rfl
@[simp] theorem State.withPhase_table (s : State) (p : Phase) : (s.withPhase p).table = s.table := rfl
@[simp] theorem State.withPhase_codeLen (s : State) (p : Phase) : (s.withPhase p).codeLen = s.codeLen := rfl
@[simp] theorem State.withPhase_codeBits (s : State) (p : Phase) : (s.withPhase p).codeBits = s.codeBits := rfl
@[simp] theorem State.withPhase_nameBuf (s : State) (p : Phase) : (s.withPhase p).nameBuf = s.nameBuf := rfl
@[simp] theorem State.withPhase_out (s : State) (p : Phase) : (s.withPhase p).out = s.out := rfl
@[simp] theorem State.withPhase_input (s : State) (p : Phase) : (s.withPhase p).input = s.input := rfl
@[simp] theorem State.withPhase_cfg (s : State) (p : Phase) : (s.withPhase p).cfg = s.cfg := rfl

@[simp] theorem State.withError_phase (s : State) (c : ErrCode) (w : Word) : (s.withError c w).phase = .error := rfl
@[simp] theorem State.withError_err (s : State) (c : ErrCode) (w : Word) : (s.withError c w).err = c := rfl
@[simp] theorem State.withError_errw (s : State) (c : ErrCode) (w : Word) : (s.withError c w).errw = w := rfl
@[simp] theorem State.withError_nameLen (s : State) (c : ErrCode) (w : Word) : (s.withError c w).nameLen = s.nameLen := rfl
@[simp] theorem State.withError_len (s : State) (c : ErrCode) (w : Word) : (s.withError c w).len = s.len := rfl
@[simp] theorem State.withError_encCnt (s : State) (c : ErrCode) (w : Word) : (s.withError c w).encCnt = s.encCnt := rfl
@[simp] theorem State.withError_k (s : State) (c : ErrCode) (w : Word) : (s.withError c w).k = s.k := rfl
@[simp] theorem State.withError_heapEnd (s : State) (c : ErrCode) (w : Word) : (s.withError c w).heapEnd = s.heapEnd := rfl
@[simp] theorem State.withError_firstFree (s : State) (c : ErrCode) (w : Word) : (s.withError c w).firstFree = s.firstFree := rfl
@[simp] theorem State.withError_acc (s : State) (c : ErrCode) (w : Word) : (s.withError c w).acc = s.acc := rfl
@[simp] theorem State.withError_nbits (s : State) (c : ErrCode) (w : Word) : (s.withError c w).nbits = s.nbits := rfl
@[simp] theorem State.withError_freq (s : State) (c : ErrCode) (w : Word) : (s.withError c w).freq = s.freq := rfl
@[simp] theorem State.withError_table (s : State) (c : ErrCode) (w : Word) : (s.withError c w).table = s.table := rfl
@[simp] theorem State.withError_codeLen (s : State) (c : ErrCode) (w : Word) : (s.withError c w).codeLen = s.codeLen := rfl
@[simp] theorem State.withError_codeBits (s : State) (c : ErrCode) (w : Word) : (s.withError c w).codeBits = s.codeBits := rfl
@[simp] theorem State.withError_nameBuf (s : State) (c : ErrCode) (w : Word) : (s.withError c w).nameBuf = s.nameBuf := rfl
@[simp] theorem State.withError_out (s : State) (c : ErrCode) (w : Word) : (s.withError c w).out = s.out := rfl
@[simp] theorem State.withError_input (s : State) (c : ErrCode) (w : Word) : (s.withError c w).input = s.input := rfl
@[simp] theorem State.withError_cfg (s : State) (c : ErrCode) (w : Word) : (s.withError c w).cfg = s.cfg := rfl

@[simp] theorem State.withName_phase (s : State) (b : List Host.Cell) (n : Nat) : (s.withName b n).phase = s.phase := rfl
@[simp] theorem State.withName_err (s : State) (b : List Host.Cell) (n : Nat) : (s.withName b n).err = s.err := rfl
@[simp] theorem State.withName_errw (s : State) (b : List Host.Cell) (n : Nat) : (s.withName b n).errw = s.errw := rfl
@[simp] theorem State.withName_nameLen (s : State) (b : List Host.Cell) (n : Nat) : (s.withName b n).nameLen = n := rfl
@[simp] theorem State.withName_len (s : State) (b : List Host.Cell) (n : Nat) : (s.withName b n).len = s.len := rfl
@[simp] theorem State.withName_encCnt (s : State) (b : List Host.Cell) (n : Nat) : (s.withName b n).encCnt = s.encCnt := rfl
@[simp] theorem State.withName_k (s : State) (b : List Host.Cell) (n : Nat) : (s.withName b n).k = s.k := rfl
@[simp] theorem State.withName_heapEnd (s : State) (b : List Host.Cell) (n : Nat) : (s.withName b n).heapEnd = s.heapEnd := rfl
@[simp] theorem State.withName_firstFree (s : State) (b : List Host.Cell) (n : Nat) : (s.withName b n).firstFree = s.firstFree := rfl
@[simp] theorem State.withName_acc (s : State) (b : List Host.Cell) (n : Nat) : (s.withName b n).acc = s.acc := rfl
@[simp] theorem State.withName_nbits (s : State) (b : List Host.Cell) (n : Nat) : (s.withName b n).nbits = s.nbits := rfl
@[simp] theorem State.withName_freq (s : State) (b : List Host.Cell) (n : Nat) : (s.withName b n).freq = s.freq := rfl
@[simp] theorem State.withName_table (s : State) (b : List Host.Cell) (n : Nat) : (s.withName b n).table = s.table := rfl
@[simp] theorem State.withName_codeLen (s : State) (b : List Host.Cell) (n : Nat) : (s.withName b n).codeLen = s.codeLen := rfl
@[simp] theorem State.withName_codeBits (s : State) (b : List Host.Cell) (n : Nat) : (s.withName b n).codeBits = s.codeBits := rfl
@[simp] theorem State.withName_nameBuf (s : State) (b : List Host.Cell) (n : Nat) : (s.withName b n).nameBuf = b := rfl
@[simp] theorem State.withName_out (s : State) (b : List Host.Cell) (n : Nat) : (s.withName b n).out = s.out := rfl
@[simp] theorem State.withName_input (s : State) (b : List Host.Cell) (n : Nat) : (s.withName b n).input = s.input := rfl
@[simp] theorem State.withName_cfg (s : State) (b : List Host.Cell) (n : Nat) : (s.withName b n).cfg = s.cfg := rfl

@[simp] theorem State.withCount_phase (s : State) (f : Memory Nat) (n : Nat) : (s.withCount f n).phase = s.phase := rfl
@[simp] theorem State.withCount_err (s : State) (f : Memory Nat) (n : Nat) : (s.withCount f n).err = s.err := rfl
@[simp] theorem State.withCount_errw (s : State) (f : Memory Nat) (n : Nat) : (s.withCount f n).errw = s.errw := rfl
@[simp] theorem State.withCount_nameLen (s : State) (f : Memory Nat) (n : Nat) : (s.withCount f n).nameLen = s.nameLen := rfl
@[simp] theorem State.withCount_len (s : State) (f : Memory Nat) (n : Nat) : (s.withCount f n).len = n := rfl
@[simp] theorem State.withCount_encCnt (s : State) (f : Memory Nat) (n : Nat) : (s.withCount f n).encCnt = s.encCnt := rfl
@[simp] theorem State.withCount_k (s : State) (f : Memory Nat) (n : Nat) : (s.withCount f n).k = s.k := rfl
@[simp] theorem State.withCount_heapEnd (s : State) (f : Memory Nat) (n : Nat) : (s.withCount f n).heapEnd = s.heapEnd := rfl
@[simp] theorem State.withCount_firstFree (s : State) (f : Memory Nat) (n : Nat) : (s.withCount f n).firstFree = s.firstFree := rfl
@[simp] theorem State.withCount_acc (s : State) (f : Memory Nat) (n : Nat) : (s.withCount f n).acc = s.acc := rfl
@[simp] theorem State.withCount_nbits (s : State) (f : Memory Nat) (n : Nat) : (s.withCount f n).nbits = s.nbits := rfl
@[simp] theorem State.withCount_freq (s : State) (f : Memory Nat) (n : Nat) : (s.withCount f n).freq = f := rfl
@[simp] theorem State.withCount_table (s : State) (f : Memory Nat) (n : Nat) : (s.withCount f n).table = s.table := rfl
@[simp] theorem State.withCount_codeLen (s : State) (f : Memory Nat) (n : Nat) : (s.withCount f n).codeLen = s.codeLen := rfl
@[simp] theorem State.withCount_codeBits (s : State) (f : Memory Nat) (n : Nat) : (s.withCount f n).codeBits = s.codeBits := rfl
@[simp] theorem State.withCount_nameBuf (s : State) (f : Memory Nat) (n : Nat) : (s.withCount f n).nameBuf = s.nameBuf := rfl
@[simp] theorem State.withCount_out (s : State) (f : Memory Nat) (n : Nat) : (s.withCount f n).out = s.out := rfl
@[simp] theorem State.withCount_input (s : State) (f : Memory Nat) (n : Nat) : (s.withCount f n).input = s.input := rfl
@[simp] theorem State.withCount_cfg (s : State) (f : Memory Nat) (n : Nat) : (s.withCount f n).cfg = s.cfg := rfl

@[simp] theorem State.withHistogram_phase (s : State) (f : Memory Nat) (n : Nat) : (s.withHistogram f n).phase = s.phase := rfl
@[simp] theorem State.withHistogram_err (s : State) (f : Memory Nat) (n : Nat) : (s.withHistogram f n).err = s.err := rfl
@[simp] theorem State.withHistogram_errw (s : State) (f : Memory Nat) (n : Nat) : (s.withHistogram f n).errw = s.errw := rfl
@[simp] theorem State.withHistogram_nameLen (s : State) (f : Memory Nat) (n : Nat) : (s.withHistogram f n).nameLen = s.nameLen := rfl
@[simp] theorem State.withHistogram_len (s : State) (f : Memory Nat) (n : Nat) : (s.withHistogram f n).len = s.len := rfl
@[simp] theorem State.withHistogram_encCnt (s : State) (f : Memory Nat) (n : Nat) : (s.withHistogram f n).encCnt = s.encCnt := rfl
@[simp] theorem State.withHistogram_k (s : State) (f : Memory Nat) (n : Nat) : (s.withHistogram f n).k = n := rfl
@[simp] theorem State.withHistogram_heapEnd (s : State) (f : Memory Nat) (n : Nat) : (s.withHistogram f n).heapEnd = s.heapEnd := rfl
@[simp] theorem State.withHistogram_firstFree (s : State) (f : Memory Nat) (n : Nat) : (s.withHistogram f n).firstFree = s.firstFree := rfl
@[simp] theorem State.withHistogram_acc (s : State) (f : Memory Nat) (n : Nat) : (s.withHistogram f n).acc = s.acc := rfl
@[simp] theorem State.withHistogram_nbits (s : State) (f : Memory Nat) (n : Nat) : (s.withHistogram f n).nbits = s.nbits := rfl
@[simp] theorem State.withHistogram_freq (s : State) (f : Memory Nat) (n : Nat) : (s.withHistogram f n).freq = f := rfl
@[simp] theorem State.withHistogram_table (s : State) (f : Memory Nat) (n : Nat) : (s.withHistogram f n).table = s.table := rfl
@[simp] theorem State.withHistogram_codeLen (s : State) (f : Memory Nat) (n : Nat) : (s.withHistogram f n).codeLen = s.codeLen := rfl
@[simp] theorem State.withHistogram_codeBits (s : State) (f : Memory Nat) (n : Nat) : (s.withHistogram f n).codeBits = s.codeBits := rfl
@[simp] theorem State.withHistogram_nameBuf (s : State) (f : Memory Nat) (n : Nat) : (s.withHistogram f n).nameBuf = s.nameBuf := rfl
@[simp] theorem State.withHistogram_out (s : State) (f : Memory Nat) (n : Nat) : (s.withHistogram f n).out = s.out := rfl
@[simp] theorem State.withHistogram_input (s : State) (f : Memory Nat) (n : Nat) : (s.withHistogram f n).input = s.input := rfl
@[simp] theorem State.withHistogram_cfg (s : State) (f : Memory Nat) (n : Nat) : (s.withHistogram f n).cfg = s.cfg := rfl

@[simp] theorem State.withBuilder_phase (s : State) (b : Builder) : (s.withBuilder b).phase = s.phase := rfl
@[simp] theorem State.withBuilder_err (s : State) (b : Builder) : (s.withBuilder b).err = s.err := rfl
@[simp] theorem State.withBuilder_errw (s : State) (b : Builder) : (s.withBuilder b).errw = s.errw := rfl
@[simp] theorem State.withBuilder_nameLen (s : State) (b : Builder) : (s.withBuilder b).nameLen = s.nameLen := rfl
@[simp] theorem State.withBuilder_len (s : State) (b : Builder) : (s.withBuilder b).len = s.len := rfl
@[simp] theorem State.withBuilder_encCnt (s : State) (b : Builder) : (s.withBuilder b).encCnt = s.encCnt := rfl
@[simp] theorem State.withBuilder_k (s : State) (b : Builder) : (s.withBuilder b).k = s.k := rfl
@[simp] theorem State.withBuilder_heapEnd (s : State) (b : Builder) : (s.withBuilder b).heapEnd = b.heapEnd := rfl
@[simp] theorem State.withBuilder_firstFree (s : State) (b : Builder) : (s.withBuilder b).firstFree = b.firstFree := rfl
@[simp] theorem State.withBuilder_acc (s : State) (b : Builder) : (s.withBuilder b).acc = s.acc := rfl
@[simp] theorem State.withBuilder_nbits (s : State) (b : Builder) : (s.withBuilder b).nbits = s.nbits := rfl
@[simp] theorem State.withBuilder_freq (s : State) (b : Builder) : (s.withBuilder b).freq = s.freq := rfl
@[simp] theorem State.withBuilder_table (s : State) (b : Builder) : (s.withBuilder b).table = b.table := rfl
@[simp] theorem State.withBuilder_codeLen (s : State) (b : Builder) : (s.withBuilder b).codeLen = s.codeLen := rfl
@[simp] theorem State.withBuilder_codeBits (s : State) (b : Builder) : (s.withBuilder b).codeBits = s.codeBits := rfl
@[simp] theorem State.withBuilder_nameBuf (s : State) (b : Builder) : (s.withBuilder b).nameBuf = s.nameBuf := rfl
@[simp] theorem State.withBuilder_out (s : State) (b : Builder) : (s.withBuilder b).out = s.out := rfl
@[simp] theorem State.withBuilder_input (s : State) (b : Builder) : (s.withBuilder b).input = s.input := rfl
@[simp] theorem State.withBuilder_cfg (s : State) (b : Builder) : (s.withBuilder b).cfg = s.cfg := rfl

@[simp] theorem State.withCodes_phase (s : State) (c : Codes) : (s.withCodes c).phase = s.phase := rfl
@[simp] theorem State.withCodes_err (s : State) (c : Codes) : (s.withCodes c).err = s.err := rfl
@[simp] theorem State.withCodes_errw (s : State) (c : Codes) : (s.withCodes c).errw = s.errw := rfl
@[simp] theorem State.withCodes_nameLen (s : State) (c : Codes) : (s.withCodes c).nameLen = s.nameLen := rfl
@[simp] theorem State.withCodes_len (s : State) (c : Codes) : (s.withCodes c).len = s.len := rfl
@[simp] theorem State.withCodes_encCnt (s : State) (c : Codes) : (s.withCodes c).encCnt = s.encCnt := rfl
@[simp] theorem State.withCodes_k (s : State) (c : Codes) : (s.withCodes c).k = s.k := rfl
@[simp] theorem State.withCodes_heapEnd (s : State) (c : Codes) : (s.withCodes c).heapEnd = s.heapEnd := rfl
@[simp] theorem State.withCodes_firstFree (s : State) (c : Codes) : (s.withCodes c).firstFree = s.firstFree := rfl
@[simp] theorem State.withCodes_acc (s : State) (c : Codes) : (s.withCodes c).acc = s.acc := rfl
@[simp] theorem State.withCodes_nbits (s : State) (c : Codes) : (s.withCodes c).nbits = s.nbits := rfl
@[simp] theorem State.withCodes_freq (s : State) (c : Codes) : (s.withCodes c).freq = s.freq := rfl
@[simp] theorem State.withCodes_table (s : State) (c : Codes) : (s.withCodes c).table = s.table := rfl
@[simp] theorem State.withCodes_codeLen (s : State) (c : Codes) : (s.withCodes c).codeLen = c.codeLen := rfl
@[simp] theorem State.withCodes_codeBits (s : State) (c : Codes) : (s.withCodes c).codeBits = c.codeBits := rfl
@[simp] theorem State.withCodes_nameBuf (s : State) (c : Codes) : (s.withCodes c).nameBuf = s.nameBuf := rfl
@[simp] theorem State.withCodes_out (s : State) (c : Codes) : (s.withCodes c).out = s.out := rfl
@[simp] theorem State.withCodes_input (s : State) (c : Codes) : (s.withCodes c).input = s.input := rfl
@[simp] theorem State.withCodes_cfg (s : State) (c : Codes) : (s.withCodes c).cfg = s.cfg := rfl

@[simp] theorem State.withOut_phase (s : State) (o : List Byte) : (s.withOut o).phase = s.phase := rfl
@[simp] theorem State.withOut_err (s : State) (o : List Byte) : (s.withOut o).err = s.err := rfl
@[simp] theorem State.withOut_errw (s : State) (o : List Byte) : (s.withOut o).errw = s.errw := rfl
@[simp] theorem State.withOut_nameLen (s : State) (o : List Byte) : (s.withOut o).nameLen = s.nameLen := rfl
@[simp] theorem State.withOut_len (s : State) (o : List Byte) : (s.withOut o).len = s.len := rfl
@[simp] theorem State.withOut_encCnt (s : State) (o : List Byte) : (s.withOut o).encCnt = s.encCnt := rfl
@[simp] theorem State.withOut_k (s : State) (o : List Byte) : (s.withOut o).k = s.k := rfl
@[simp] theorem State.withOut_heapEnd (s : State) (o : List Byte) : (s.withOut o).heapEnd = s.heapEnd := rfl
@[simp] theorem State.withOut_firstFree (s : State) (o : List Byte) : (s.withOut o).firstFree = s.firstFree := rfl
@[simp] theorem State.withOut_acc (s : State) (o : List Byte) : (s.withOut o).acc = s.acc := rfl
@[simp] theorem State.withOut_nbits (s : State) (o : List Byte) : (s.withOut o).nbits = s.nbits := rfl
@[simp] theorem State.withOut_freq (s : State) (o : List Byte) : (s.withOut o).freq = s.freq := rfl
@[simp] theorem State.withOut_table (s : State) (o : List Byte) : (s.withOut o).table = s.table := rfl
@[simp] theorem State.withOut_codeLen (s : State) (o : List Byte) : (s.withOut o).codeLen = s.codeLen := rfl
@[simp] theorem State.withOut_codeBits (s : State) (o : List Byte) : (s.withOut o).codeBits = s.codeBits := rfl
@[simp] theorem State.withOut_nameBuf (s : State) (o : List Byte) : (s.withOut o).nameBuf = s.nameBuf := rfl
@[simp] theorem State.withOut_out (s : State) (o : List Byte) : (s.withOut o).out = o := rfl
@[simp] theorem State.withOut_input (s : State) (o : List Byte) : (s.withOut o).input = s.input := rfl
@[simp] theorem State.withOut_cfg (s : State) (o : List Byte) : (s.withOut o).cfg = s.cfg := rfl

@[simp] theorem State.withPacker_phase (s : State) (p : Packer) : (s.withPacker p).phase = s.phase := rfl
@[simp] theorem State.withPacker_err (s : State) (p : Packer) : (s.withPacker p).err = s.err := rfl
@[simp] theorem State.withPacker_errw (s : State) (p : Packer) : (s.withPacker p).errw = s.errw := rfl
@[simp] theorem State.withPacker_nameLen (s : State) (p : Packer) : (s.withPacker p).nameLen = s.nameLen := rfl
@[simp] theorem State.withPacker_len (s : State) (p : Packer) : (s.withPacker p).len = s.len := rfl
@[simp] theorem State.withPacker_encCnt (s : State) (p : Packer) : (s.withPacker p).encCnt = s.encCnt := rfl
@[simp] theorem State.withPacker_k (s : State) (p : Packer) : (s.withPacker p).k = s.k := rfl
@[simp] theorem State.withPacker_heapEnd (s : State) (p : Packer) : (s.withPacker p).heapEnd = s.heapEnd := rfl
@[simp] theorem State.withPacker_firstFree (s : State) (p : Packer) : (s.withPacker p).firstFree = s.firstFree := rfl
@[simp] theorem State.withPacker_acc (s : State) (p : Packer) : (s.withPacker p).acc = p.acc := rfl
@[simp] theorem State.withPacker_nbits (s : State) (p : Packer) : (s.withPacker p).nbits = p.nbits := rfl
@[simp] theorem State.withPacker_freq (s : State) (p : Packer) : (s.withPacker p).freq = s.freq := rfl
@[simp] theorem State.withPacker_table (s : State) (p : Packer) : (s.withPacker p).table = s.table := rfl
@[simp] theorem State.withPacker_codeLen (s : State) (p : Packer) : (s.withPacker p).codeLen = s.codeLen := rfl
@[simp] theorem State.withPacker_codeBits (s : State) (p : Packer) : (s.withPacker p).codeBits = s.codeBits := rfl
@[simp] theorem State.withPacker_nameBuf (s : State) (p : Packer) : (s.withPacker p).nameBuf = s.nameBuf := rfl
@[simp] theorem State.withPacker_out (s : State) (p : Packer) : (s.withPacker p).out = p.out := rfl
@[simp] theorem State.withPacker_input (s : State) (p : Packer) : (s.withPacker p).input = s.input := rfl
@[simp] theorem State.withPacker_cfg (s : State) (p : Packer) : (s.withPacker p).cfg = s.cfg := rfl

@[simp] theorem State.withEncCnt_phase (s : State) (n : Nat) : (s.withEncCnt n).phase = s.phase := rfl
@[simp] theorem State.withEncCnt_err (s : State) (n : Nat) : (s.withEncCnt n).err = s.err := rfl
@[simp] theorem State.withEncCnt_errw (s : State) (n : Nat) : (s.withEncCnt n).errw = s.errw := rfl
@[simp] theorem State.withEncCnt_nameLen (s : State) (n : Nat) : (s.withEncCnt n).nameLen = s.nameLen := rfl
@[simp] theorem State.withEncCnt_len (s : State) (n : Nat) : (s.withEncCnt n).len = s.len := rfl
@[simp] theorem State.withEncCnt_encCnt (s : State) (n : Nat) : (s.withEncCnt n).encCnt = n := rfl
@[simp] theorem State.withEncCnt_k (s : State) (n : Nat) : (s.withEncCnt n).k = s.k := rfl
@[simp] theorem State.withEncCnt_heapEnd (s : State) (n : Nat) : (s.withEncCnt n).heapEnd = s.heapEnd := rfl
@[simp] theorem State.withEncCnt_firstFree (s : State) (n : Nat) : (s.withEncCnt n).firstFree = s.firstFree := rfl
@[simp] theorem State.withEncCnt_acc (s : State) (n : Nat) : (s.withEncCnt n).acc = s.acc := rfl
@[simp] theorem State.withEncCnt_nbits (s : State) (n : Nat) : (s.withEncCnt n).nbits = s.nbits := rfl
@[simp] theorem State.withEncCnt_freq (s : State) (n : Nat) : (s.withEncCnt n).freq = s.freq := rfl
@[simp] theorem State.withEncCnt_table (s : State) (n : Nat) : (s.withEncCnt n).table = s.table := rfl
@[simp] theorem State.withEncCnt_codeLen (s : State) (n : Nat) : (s.withEncCnt n).codeLen = s.codeLen := rfl
@[simp] theorem State.withEncCnt_codeBits (s : State) (n : Nat) : (s.withEncCnt n).codeBits = s.codeBits := rfl
@[simp] theorem State.withEncCnt_nameBuf (s : State) (n : Nat) : (s.withEncCnt n).nameBuf = s.nameBuf := rfl
@[simp] theorem State.withEncCnt_out (s : State) (n : Nat) : (s.withEncCnt n).out = s.out := rfl
@[simp] theorem State.withEncCnt_input (s : State) (n : Nat) : (s.withEncCnt n).input = s.input := rfl
@[simp] theorem State.withEncCnt_cfg (s : State) (n : Nat) : (s.withEncCnt n).cfg = s.cfg := rfl

@[simp] theorem State.withInput_phase (s : State) (q : List HostInput) : (s.withInput q).phase = s.phase := rfl
@[simp] theorem State.withInput_err (s : State) (q : List HostInput) : (s.withInput q).err = s.err := rfl
@[simp] theorem State.withInput_errw (s : State) (q : List HostInput) : (s.withInput q).errw = s.errw := rfl
@[simp] theorem State.withInput_nameLen (s : State) (q : List HostInput) : (s.withInput q).nameLen = s.nameLen := rfl
@[simp] theorem State.withInput_len (s : State) (q : List HostInput) : (s.withInput q).len = s.len := rfl
@[simp] theorem State.withInput_encCnt (s : State) (q : List HostInput) : (s.withInput q).encCnt = s.encCnt := rfl
@[simp] theorem State.withInput_k (s : State) (q : List HostInput) : (s.withInput q).k = s.k := rfl
@[simp] theorem State.withInput_heapEnd (s : State) (q : List HostInput) : (s.withInput q).heapEnd = s.heapEnd := rfl
@[simp] theorem State.withInput_firstFree (s : State) (q : List HostInput) : (s.withInput q).firstFree = s.firstFree := rfl
@[simp] theorem State.withInput_acc (s : State) (q : List HostInput) : (s.withInput q).acc = s.acc := rfl
@[simp] theorem State.withInput_nbits (s : State) (q : List HostInput) : (s.withInput q).nbits = s.nbits := rfl
@[simp] theorem State.withInput_freq (s : State) (q : List HostInput) : (s.withInput q).freq = s.freq := rfl
@[simp] theorem State.withInput_table (s : State) (q : List HostInput) : (s.withInput q).table = s.table := rfl
@[simp] theorem State.withInput_codeLen (s : State) (q : List HostInput) : (s.withInput q).codeLen = s.codeLen := rfl
@[simp] theorem State.withInput_codeBits (s : State) (q : List HostInput) : (s.withInput q).codeBits = s.codeBits := rfl
@[simp] theorem State.withInput_nameBuf (s : State) (q : List HostInput) : (s.withInput q).nameBuf = s.nameBuf := rfl
@[simp] theorem State.withInput_out (s : State) (q : List HostInput) : (s.withInput q).out = s.out := rfl
@[simp] theorem State.withInput_input (s : State) (q : List HostInput) : (s.withInput q).input = q := rfl
@[simp] theorem State.withInput_cfg (s : State) (q : List HostInput) : (s.withInput q).cfg = s.cfg := rfl

@[simp] theorem State.emit_phase (s : State) (bs : List Byte) : (s.emit bs).phase = s.phase := rfl
@[simp] theorem State.emit_err (s : State) (bs : List Byte) : (s.emit bs).err = s.err := rfl
@[simp] theorem State.emit_errw (s : State) (bs : List Byte) : (s.emit bs).errw = s.errw := rfl
@[simp] theorem State.emit_nameLen (s : State) (bs : List Byte) : (s.emit bs).nameLen = s.nameLen := rfl
@[simp] theorem State.emit_len (s : State) (bs : List Byte) : (s.emit bs).len = s.len := rfl
@[simp] theorem State.emit_encCnt (s : State) (bs : List Byte) : (s.emit bs).encCnt = s.encCnt := rfl
@[simp] theorem State.emit_k (s : State) (bs : List Byte) : (s.emit bs).k = s.k := rfl
@[simp] theorem State.emit_heapEnd (s : State) (bs : List Byte) : (s.emit bs).heapEnd = s.heapEnd := rfl
@[simp] theorem State.emit_firstFree (s : State) (bs : List Byte) : (s.emit bs).firstFree = s.firstFree := rfl
@[simp] theorem State.emit_acc (s : State) (bs : List Byte) : (s.emit bs).acc = s.acc := rfl
@[simp] theorem State.emit_nbits (s : State) (bs : List Byte) : (s.emit bs).nbits = s.nbits := rfl
@[simp] theorem State.emit_freq (s : State) (bs : List Byte) : (s.emit bs).freq = s.freq := rfl
@[simp] theorem State.emit_table (s : State) (bs : List Byte) : (s.emit bs).table = s.table := rfl
@[simp] theorem State.emit_codeLen (s : State) (bs : List Byte) : (s.emit bs).codeLen = s.codeLen := rfl
@[simp] theorem State.emit_codeBits (s : State) (bs : List Byte) : (s.emit bs).codeBits = s.codeBits := rfl
@[simp] theorem State.emit_nameBuf (s : State) (bs : List Byte) : (s.emit bs).nameBuf = s.nameBuf := rfl
@[simp] theorem State.emit_out (s : State) (bs : List Byte) : (s.emit bs).out = s.out ++ bs := rfl
@[simp] theorem State.emit_input (s : State) (bs : List Byte) : (s.emit bs).input = s.input := rfl
@[simp] theorem State.emit_cfg (s : State) (bs : List Byte) : (s.emit bs).cfg = s.cfg := rfl

@[simp] theorem State.cleared_phase (s : State) : s.cleared.phase = .load := rfl
@[simp] theorem State.cleared_err (s : State) : s.cleared.err = .noError := rfl
@[simp] theorem State.cleared_errw (s : State) : s.cleared.errw = 0#16 := rfl
@[simp] theorem State.cleared_nameLen (s : State) : s.cleared.nameLen = 0 := rfl
@[simp] theorem State.cleared_len (s : State) : s.cleared.len = 0 := rfl
@[simp] theorem State.cleared_encCnt (s : State) : s.cleared.encCnt = 0 := rfl
@[simp] theorem State.cleared_k (s : State) : s.cleared.k = 0 := rfl
@[simp] theorem State.cleared_heapEnd (s : State) : s.cleared.heapEnd = 0 := rfl
@[simp] theorem State.cleared_firstFree (s : State) : s.cleared.firstFree = 0 := rfl
@[simp] theorem State.cleared_acc (s : State) : s.cleared.acc = 0#8 := rfl
@[simp] theorem State.cleared_nbits (s : State) : s.cleared.nbits = 0 := rfl
@[simp] theorem State.cleared_freq (s : State) : s.cleared.freq = [] := rfl
@[simp] theorem State.cleared_table (s : State) : s.cleared.table = [] := rfl
@[simp] theorem State.cleared_codeLen (s : State) : s.cleared.codeLen = [] := rfl
@[simp] theorem State.cleared_codeBits (s : State) : s.cleared.codeBits = [] := rfl
@[simp] theorem State.cleared_nameBuf (s : State) : s.cleared.nameBuf = [] := rfl
@[simp] theorem State.cleared_out (s : State) : s.cleared.out = [] := rfl
@[simp] theorem State.cleared_input (s : State) : s.cleared.input = s.input := rfl
@[simp] theorem State.cleared_cfg (s : State) : s.cleared.cfg = s.cfg := rfl

@[simp] theorem State.codes_codeLen (s : State) : s.codes.codeLen = s.codeLen := rfl
@[simp] theorem State.codes_codeBits (s : State) : s.codes.codeBits = s.codeBits := rfl
@[simp] theorem State.packer_acc (s : State) : s.packer.acc = s.acc := rfl
@[simp] theorem State.packer_nbits (s : State) : s.packer.nbits = s.nbits := rfl
@[simp] theorem State.packer_out (s : State) : s.packer.out = s.out := rfl

/-- Two states are equal when all their fields are. -/
theorem State.ext_fields {s t : State}
    (h0 : s.phase = t.phase)
    (h1 : s.err = t.err)
    (h2 : s.errw = t.errw)
    (h3 : s.nameLen = t.nameLen)
    (h4 : s.len = t.len)
    (h5 : s.encCnt = t.encCnt)
    (h6 : s.k = t.k)
    (h7 : s.heapEnd = t.heapEnd)
    (h8 : s.firstFree = t.firstFree)
    (h9 : s.acc = t.acc)
    (h10 : s.nbits = t.nbits)
    (h11 : s.freq = t.freq)
    (h12 : s.table = t.table)
    (h13 : s.codeLen = t.codeLen)
    (h14 : s.codeBits = t.codeBits)
    (h15 : s.nameBuf = t.nameBuf)
    (h16 : s.out = t.out)
    (h17 : s.input = t.input)
    (h18 : s.cfg = t.cfg) : s = t := by
  cases s; cases t; simp_all

/-- What `CLR` and reset leave (10_state.md R44): the state after reset with the block's parameters, the inputs still waiting. -/
theorem State.cleared_eq_reset (s : State) : s.cleared = (State.resetWith s.cfg).withInput s.input := rfl

end Sys2Proof.Machine
end

