-- ==== Sys2Proof/Laws/Ops.lean ====
section
/-! SUPPORT. What each shared operation of Machine/Ops.lean can do, said once. -/

namespace Sys2Proof.Machine

@[simp] theorem finish_ok (s : State) : finish (.ok s) = .next s := rfl

@[simp] theorem finish_error (f : Fault) : finish (.error f) = .fault f := rfl

/-- A command's work ends in a next state exactly when it computed one. -/
theorem finish_eq_next {r : Except Fault State} {t : State} : finish r = .next t ↔ r = .ok t := by
  cases r <;> simp [finish]

/-- The same through the last update of the command. -/
theorem finish_map_eq_next {α : Type} {r : Except Fault α} {g : α → State} {t : State} :
    finish (r.map g) = .next t ↔ ∃ a, r = .ok a ∧ g a = t := by
  cases r <;> simp [finish, Except.map]

theorem raise_eq_next {code : ErrCode} {w : Word} {s t : State} : raise code w s = .next t ↔ t = s.withError code w := by
  simp [raise, eq_comm]

theorem raiseBy_eq_next {i : Instr} {code : ErrCode} {s t : State} :
    raiseBy i code s = .next t ↔ t = s.withError code (encode i) := by
  simp [raiseBy, raise_eq_next]

theorem onlyIn_error (home : Phase) : onlyIn home .error = .ignored := by simp [onlyIn]

theorem onlyIn_home {home : Phase} (h : home ≠ .error) : onlyIn home home = .accepted := by simp [onlyIn, h]

theorem onlyIn_other {home p : Phase} (h1 : p ≠ .error) (h2 : p ≠ home) : onlyIn home p = .outOfPhase := by
  simp [onlyIn, h1, h2]

/-- Everything the dispatch can do when it answers a next state. -/
theorem dispatch_eq_next {i : Instr} {s t : State} {rule : State → Result} (h : dispatch i s rule = .next t) :
    (acceptance i s.phase = .accepted ∧ rule s = .next t) ∨
    (acceptance i s.phase = .outOfPhase ∧ t = s.withError .protocol (encode i)) ∨
    (acceptance i s.phase = .ignored ∧ t = s) := by
  unfold dispatch at h
  split at h
  · exact .inl ⟨‹_›, h⟩
  · exact .inr (.inl ⟨‹_›, raiseBy_eq_next.mp h⟩)
  · cases h; exact .inr (.inr ⟨‹_›, rfl⟩)

theorem dispatch_accepted {i : Instr} {s : State} {rule : State → Result} (h : acceptance i s.phase = .accepted) :
    dispatch i s rule = rule s := by
  simp [dispatch, h]

theorem dispatch_outOfPhase {i : Instr} {s : State} {rule : State → Result} (h : acceptance i s.phase = .outOfPhase) :
    dispatch i s rule = .next (s.withError .protocol (encode i)) := by
  simp [dispatch, h, raiseBy, raise]

theorem dispatch_ignored {i : Instr} {s : State} {rule : State → Result} (h : acceptance i s.phase = .ignored) :
    dispatch i s rule = .next s := by
  simp [dispatch, h]

/-- Everything an illegal word can do. -/
theorem execIllegal_eq (w : Word) (s : State) :
    execIllegal w s = .next (if s.phase = .error then s else s.withError .illegalCmd w) := by
  unfold execIllegal raise
  split <;> rfl

end Sys2Proof.Machine
end

