-- ==== Sys2Proof/Laws/Exec.lean ====
section
/-! SUPPORT. Everything a command can do when it answers a next state, said once: invariants and frames are derived from this. -/

namespace Sys2Proof.Machine

/-- A command accepted in one phase, when it answers: it ran its own rule there, or raised `PROTOCOL`, or was ignored. -/
theorem onlyIn_cases {i : Instr} {s t : State} {home : Phase} {rule : State → Result}
    (ha : acceptance i s.phase = onlyIn home s.phase) (h : dispatch i s rule = .next t) :
    t = s ∨ (s.phase ≠ .error ∧ ∃ code, code ≠ .noError ∧ t = s.withError code (encode i)) ∨
    (s.phase = home ∧ s.phase ≠ .error ∧ rule s = .next t) := by
  rcases dispatch_eq_next h with ⟨h1, h2⟩ | ⟨h1, h2⟩ | ⟨_, h2⟩
  · rw [ha] at h1
    unfold onlyIn at h1
    split at h1
    · cases h1
    · split at h1
      · exact .inr (.inr ⟨‹_›, ‹_›, h2⟩)
      · cases h1
  · rw [ha] at h1
    unfold onlyIn at h1
    split at h1
    · cases h1
    · exact .inr (.inl ⟨‹_›, .protocol, by decide, h2⟩)
  · exact .inl h2

/-- The outcomes of the ten commands: unchanged, cleared, an error, or the effect of one command in its own phase. -/
inductive Effect (i : Instr) (s t : State) : Prop where
  | same (h : t = s)
  | clear (hi : i = .clr) (h : t = s.cleared)
  | err (hp : s.phase ≠ .error) (code : ErrCode) (hc : code ≠ .noError) (h : t = s.withError code (encode i))
  | name (d : Byte) (m : List Host.Cell) (hi : i = .name d) (hp : s.phase = .load) (hn : s.nameLen ≠ s.cfg.nameMax)
      (hw : writeName s.cfg s.nameBuf s.nameLen d = .ok m) (h : t = s.withName m (s.nameLen + 1))
  | cnt (d : Byte) (hi : i = .cnt d) (hp : s.phase = .load) (hn : s.len ≠ s.cfg.lenMax)
      (h : t = s.withCount (countOne s.freq (symbolOf d)) (s.len + 1))
  | eop (hi : i = .eop) (hp : s.phase = .load)
      (h : t = (s.withHistogram (setCount s.freq eos 1) (presentCount (setCount s.freq eos 1))).withPhase .counted)
  | build (b : Builder) (hi : i = .build) (hp : s.phase = .counted) (hk : 2 ≤ s.k) (hb : buildTable s.freq s.k s.table = .ok b)
      (h : t = (s.withBuilder b).withPhase .built)
  | walk (c : Codes) (hi : i = .walk) (hp : s.phase = .built) (hc : walkTable s.table s.codes = .ok c)
      (h : t = (s.withCodes c).withPhase .coded)
  | hdr (bytes : List Byte) (hi : i = .hdr) (hp : s.phase = .coded) (hb : headerBytes s = .ok bytes)
      (h : t = (s.emit bytes).withPhase .encode)
  | enc (d : Byte) (p : Packer) (hi : i = .enc d) (hp : s.phase = .encode) (hl : s.encCnt ≠ s.len)
      (hc : countAt s.codeLen (symbolOf d) ≠ 0) (ha : appendCode s.codes (symbolOf d) s.packer = .ok p)
      (h : t = (s.withPacker p).withEncCnt (s.encCnt + 1))
  | fin (p : Packer) (hi : i = .fin) (hp : s.phase = .encode) (hl : s.encCnt = s.len) (hc : countAt s.codeLen eos ≠ 0)
      (ha : appendCode s.codes eos s.packer = .ok p) (h : t = (s.withPacker (padLast p)).withPhase .done)

/-- Everything a command can do when it answers a next state. -/
theorem exec_effect {i : Instr} {s t : State} (h : exec i s = .next t) : Effect i s t := by
  cases i with
  | nop =>
    simp only [exec, execNop] at h
    rcases dispatch_eq_next h with ⟨_, h⟩ | ⟨h, _⟩ | ⟨h, _⟩
    · cases h; exact .same rfl
    · cases h
    · cases h
  | clr =>
    simp only [exec, execClr] at h
    rcases dispatch_eq_next h with ⟨_, h⟩ | ⟨h, _⟩ | ⟨h, _⟩
    · cases h; exact .clear rfl rfl
    · cases h
    · cases h
  | name d =>
    simp only [exec, execName] at h
    rcases onlyIn_cases (home := .load) rfl h with h | ⟨hp, c, hc, h⟩ | ⟨hh, hp, h⟩
    · exact .same h
    · exact .err hp c hc h
    · split at h
      · exact .err hp _ (by decide) (raiseBy_eq_next.mp h)
      · obtain ⟨m, hm, ht⟩ := finish_map_eq_next.mp h
        exact .name d m rfl hh ‹_› hm ht.symm
  | cnt d =>
    simp only [exec, execCnt] at h
    rcases onlyIn_cases (home := .load) rfl h with h | ⟨hp, c, hc, h⟩ | ⟨hh, hp, h⟩
    · exact .same h
    · exact .err hp c hc h
    · split at h
      · exact .err hp _ (by decide) (raiseBy_eq_next.mp h)
      · cases h; exact .cnt d rfl hh ‹_› rfl
  | eop =>
    simp only [exec, execEop] at h
    rcases onlyIn_cases (home := .load) rfl h with h | ⟨hp, c, hc, h⟩ | ⟨hh, hp, h⟩
    · exact .same h
    · exact .err hp c hc h
    · cases h; exact .eop rfl hh rfl
  | build =>
    simp only [exec, execBuild] at h
    rcases onlyIn_cases (home := .counted) rfl h with h | ⟨hp, c, hc, h⟩ | ⟨hh, hp, h⟩
    · exact .same h
    · exact .err hp c hc h
    · split at h
      · exact .err hp _ (by decide) (raiseBy_eq_next.mp h)
      · obtain ⟨b, hb, ht⟩ := finish_map_eq_next.mp h
        exact .build b rfl hh (by omega) hb ht.symm
  | walk =>
    simp only [exec, execWalk] at h
    rcases onlyIn_cases (home := .built) rfl h with h | ⟨hp, c, hc, h⟩ | ⟨hh, hp, h⟩
    · exact .same h
    · exact .err hp c hc h
    · obtain ⟨c, hc, ht⟩ := finish_map_eq_next.mp h
      exact .walk c rfl hh hc ht.symm
  | hdr =>
    simp only [exec, execHdr] at h
    rcases onlyIn_cases (home := .coded) rfl h with h | ⟨hp, c, hc, h⟩ | ⟨hh, hp, h⟩
    · exact .same h
    · exact .err hp c hc h
    · obtain ⟨c, hc, ht⟩ := finish_map_eq_next.mp h
      exact .hdr c rfl hh hc ht.symm
  | enc d =>
    simp only [exec, execEnc] at h
    rcases onlyIn_cases (home := .encode) rfl h with h | ⟨hp, c, hc, h⟩ | ⟨hh, hp, h⟩
    · exact .same h
    · exact .err hp c hc h
    · split at h
      · exact .err hp _ (by decide) (raiseBy_eq_next.mp h)
      · split at h
        · exact .err hp _ (by decide) (raiseBy_eq_next.mp h)
        · obtain ⟨p, hq, ht⟩ := finish_map_eq_next.mp h
          exact .enc d p rfl hh ‹_› ‹_› hq ht.symm
  | fin =>
    simp only [exec, execFin] at h
    rcases onlyIn_cases (home := .encode) rfl h with h | ⟨hp, c, hc, h⟩ | ⟨hh, hp, h⟩
    · exact .same h
    · exact .err hp c hc h
    · split at h
      · exact .err hp _ (by decide) (raiseBy_eq_next.mp h)
      · split at h
        · exact .err hp _ (by decide) (raiseBy_eq_next.mp h)
        · obtain ⟨p, hq, ht⟩ := finish_map_eq_next.mp h
          exact .fin p rfl hh (by omega) ‹_› hq ht.symm

end Sys2Proof.Machine
end

