-- ==== Sys2Proof/Laws/Packer.lean ====
section
/-! SUPPORT. What the byte aligner does with a bit, a code and the padding. -/

namespace Sys2Proof.Machine

@[simp] theorem appendBits_nil (p : Packer) : appendBits p [] = p := rfl

@[simp] theorem appendBits_cons (p : Packer) (b : Bool) (bs : List Bool) :
    appendBits p (b :: bs) = appendBits (appendBit p b) bs := rfl

theorem appendBits_append (p : Packer) (as bs : List Bool) : appendBits p (as ++ bs) = appendBits (appendBits p as) bs := by
  simp [appendBits, List.foldl_append]

/-- A bit only adds bytes at the end of the stream. -/
theorem appendBit_out_prefix (p : Packer) (b : Bool) : p.out <+: (appendBit p b).out := by
  unfold appendBit flushByte
  split
  · exact List.prefix_append _ _
  · exact List.prefix_refl _

theorem appendBits_out_prefix (p : Packer) (bs : List Bool) : p.out <+: (appendBits p bs).out := by
  induction bs generalizing p with
  | nil => exact List.prefix_refl _
  | cons b bs ih => exact (appendBit_out_prefix p b).trans (ih _)

theorem padLast_out_prefix (p : Packer) : p.out <+: (padLast p).out := by
  unfold padLast flushByte
  split
  · exact List.prefix_refl _
  · exact List.prefix_append _ _

/-- Everything reading a code can answer. -/
theorem readCode_eq_ok {c : Codes} {s : Nat} {bits : List Bool} :
    readCode c s = .ok bits ↔
      (countAt c.codeLen s = 0 ∧ bits = []) ∨
      (countAt c.codeLen s ≠ 0 ∧ s < nsym ∧ ∃ all, memFind c.codeBits s = some all ∧ countAt c.codeLen s ≤ all.length ∧
        bits = all.take (countAt c.codeLen s)) := by
  unfold readCode
  by_cases h0 : countAt c.codeLen s = 0
  · simp [h0, eq_comm]
  · simp only [h0, if_false, false_and, false_or, ne_eq, not_false_eq_true, true_and]
    cases hr : memRead .codeBits nsym c.codeBits s with
    | error f =>
      constructor
      · intro h; cases h
      · rintro ⟨hs, all, hall, _⟩
        rw [memRead_eq_ok.mpr ⟨hs, hall⟩] at hr
        cases hr
    | ok all =>
      obtain ⟨hs, hall⟩ := memRead_eq_ok.mp hr
      simp only [hs, hall, true_and, Option.some.injEq, exists_eq_left']
      by_cases hl : all.length < countAt c.codeLen s
      · simp [hl]
      · simp [hl, eq_comm]; omega

/-- Everything `APPEND(s)` can answer. -/
theorem appendCode_eq_ok {c : Codes} {s : Nat} {p p' : Packer} :
    appendCode c s p = .ok p' ↔ ∃ bits, readCode c s = .ok bits ∧ p' = appendBits p bits := by
  unfold appendCode
  cases readCode c s <;> simp [Except.map, eq_comm]

end Sys2Proof.Machine
end

