-- ==== Sys2Proof/Laws/PerInstr.lean ====
section
/-! SUPPORT. Statements about every command as syntax, one lemma per constructor. -/

namespace Sys2Proof.Laws.OpcodeRow

/-- The family: a command's word is hit by exactly the rows of the opcode map (30_encoding.md R83) that carry its mnemonic. -/
def Statement (i : Instr) : Prop := ∀ r ∈ opcodeMap, r.hits (encode i) = decide (r.mnemonic = i.mnemonic)

theorem nop : Statement .nop := by unfold Statement; decide

theorem clr : Statement .clr := by unfold Statement; decide

set_option maxRecDepth 20000 in
theorem nameAll : ∀ n : Fin 256, ∀ r ∈ opcodeMap,
    r.hits (encode (.name (BitVec.ofFin n))) = decide (r.mnemonic = "NAME") := by decide +kernel

theorem name (d : Byte) : Statement (.name d) := nameAll d.toFin

set_option maxRecDepth 20000 in
theorem cntAll : ∀ n : Fin 256, ∀ r ∈ opcodeMap,
    r.hits (encode (.cnt (BitVec.ofFin n))) = decide (r.mnemonic = "CNT") := by decide +kernel

theorem cnt (d : Byte) : Statement (.cnt d) := cntAll d.toFin

theorem eop : Statement .eop := by unfold Statement; decide

theorem build : Statement .build := by unfold Statement; decide

theorem walk : Statement .walk := by unfold Statement; decide

theorem hdr : Statement .hdr := by unfold Statement; decide

set_option maxRecDepth 20000 in
theorem encAll : ∀ n : Fin 256, ∀ r ∈ opcodeMap,
    r.hits (encode (.enc (BitVec.ofFin n))) = decide (r.mnemonic = "ENC") := by decide +kernel

theorem enc (d : Byte) : Statement (.enc d) := encAll d.toFin

theorem fin : Statement .fin := by unfold Statement; decide

end Sys2Proof.Laws.OpcodeRow
end

