-- ==== Sys2Proof/Laws/Step.lean ====
section
/-! SUPPORT. What a step does, by the input it consumes. -/

namespace Sys2Proof.Machine

theorem step_idle {s : State} (h : s.input = []) : step s = .next s := by
  simp [step, h, idle]

theorem step_reset {s : State} {rest : List HostInput} (h : s.input = .reset :: rest) :
    step s = .next (s.withInput rest).cleared := by
  simp [step, h, applyReset]

theorem step_word {s : State} {w : Word} {rest : List HostInput} (h : s.input = .word w :: rest) :
    step s = stepWord w (s.withInput rest) := by
  simp [step, h]

theorem stepWord_legal {w : Word} {i : Instr} (h : decode w = .ok i) (s : State) : stepWord w s = exec i s := by
  simp [stepWord, h]

theorem stepWord_illegal {w : Word} {e : DecodeError} (h : decode w = .error e) (s : State) :
    stepWord w s = execIllegal w s := by
  simp [stepWord, h]

/-- Every next state of a step: idle, a reset, a command executed, or an illegal word. -/
theorem step_cases {s t : State} (h : step s = .next t) :
    (s.input = [] ∧ t = s) ∨
    (∃ rest, s.input = .reset :: rest ∧ t = (s.withInput rest).cleared) ∨
    (∃ w rest i, s.input = .word w :: rest ∧ decode w = .ok i ∧ exec i (s.withInput rest) = .next t) ∨
    (∃ w rest e, s.input = .word w :: rest ∧ decode w = .error e ∧
      t = if s.phase = .error then s.withInput rest else (s.withInput rest).withError .illegalCmd w) := by
  rcases hin : s.input with _ | ⟨_ | _, rest⟩
  · rw [step_idle hin] at h; cases h; exact .inl ⟨rfl, rfl⟩
  · rename_i w
    rw [step_word hin] at h
    cases hd : decode w with
    | ok i => rw [stepWord_legal hd] at h; exact .inr (.inr (.inl ⟨w, rest, i, rfl, hd, h⟩))
    | error e =>
      rw [stepWord_illegal hd, execIllegal_eq] at h
      cases h
      exact .inr (.inr (.inr ⟨w, rest, e, rfl, hd, rfl⟩))
  · rw [step_reset hin] at h; cases h; exact .inr (.inl ⟨rest, rfl, rfl⟩)

end Sys2Proof.Machine
end

