-- ==== Sys2Proof/Laws/Walk.lean ====
section
/-! SUPPORT. What `VISIT` keeps: a property of the code memories that every recorded code keeps. -/

namespace Sys2Proof.Machine

/-- A property of the code memories that recording a code of at most `CODE_MAX` bits keeps. -/
def KeptByCodes (P : Codes → Prop) : Prop :=
  ∀ c g p c', P c → p.length ≤ codeMax → recordCode c g p = .ok c' → P c'

/-- Everything `recordCode` can do when it answers. -/
theorem recordCode_eq_ok {c c' : Codes} {g : Int} {p : List Bool} (h : recordCode c g p = .ok c') :
    ∃ s, g = Int.ofNat s ∧ s < nsym ∧ c' = { codeLen := setCount c.codeLen s p.length, codeBits := memPut c.codeBits s p } := by
  unfold recordCode at h
  split at h
  · split at h
    · cases h; exact ⟨_, rfl, ‹_›, rfl⟩
    · cases h
  · cases h

theorem visit_keeps {P : Codes → Prop} (hP : KeptByCodes P) {t : Memory TableEntry} {depth : Nat} {i : Int} {p : List Bool}
    {c c' : Codes} (h : visit t depth i p c = .ok c') (hd : p.length + depth ≤ codeMax + 1) (hc : P c) : P c' := by
  induction depth generalizing i p c c' with
  | zero => cases h
  | succ depth ih =>
    unfold visit at h
    split at h
    · cases h
    · split at h
      · exact hP _ _ _ _ hc (by omega) h
      · split at h
        · cases h
        · rename_i c1 h1
          exact ih h (by simp; omega) (ih h1 (by simp; omega) hc)

/-- A property kept by every recorded code is kept by the walk. -/
theorem walkTable_keeps {P : Codes → Prop} (hP : KeptByCodes P) {t : Memory TableEntry} {c c' : Codes}
    (h : walkTable t c = .ok c') (hc : P c) : P c' := visit_keeps hP h (by simp) hc

/-- `WALK` keeps the canonical form of `CODELEN` and `CODEBITS`. -/
theorem walkTable_wf {t : Memory TableEntry} {c c' : Codes} (h : walkTable t c = .ok c')
    (hc : Memory.wf countBlank nsym c.codeLen ∧ Memory.wf noValue nsym c.codeBits) :
    Memory.wf countBlank nsym c'.codeLen ∧ Memory.wf noValue nsym c'.codeBits :=
  walkTable_keeps (P := fun c => Memory.wf countBlank nsym c.codeLen ∧ Memory.wf noValue nsym c.codeBits)
    (fun _ _ _ _ hc _ hr => recordCode_wf hr hc.1 hc.2) h hc

end Sys2Proof.Machine
end

