-- ==== Sys2Proof/Tests/Slice0.lean ====
section
/-! SUPPORT. The model's own tests: the smoke test of the word checks, words written out from the formats, one step of each command on
the spec's worked values (95_test_vectors.md), and for every statement with hypotheses a witness that meets them. -/

namespace Sys2Proof.Tests

open Sys2Proof Sys2Proof.Machine

/-! ## Helpers -/

/-- A field of the next state of an outcome. -/
def after {α : Type} (r : Result) (f : State → α) : Option α :=
  match r with
  | .next t => some (f t)
  | .fault _ => none
  | .refused _ => none

/-- A table from slot 0 on, of leaves given as (symbol, frequency). -/
def leaves (xs : List (Nat × Nat)) : Memory TableEntry := xs.zipIdx.map fun x => (x.2, leaf x.1.1 x.1.2)

/-- The (glyph, freq) pairs of a table that was computed. -/
def shown (r : Except Fault (Memory TableEntry)) : Option (List (Int × Nat)) :=
  match r with
  | .ok t => some (t.map fun c => (c.2.glyph, c.2.freq))
  | .error _ => none

/-- The reset state with words waiting on the command port. -/
def offered (ws : List Word) : State := { State.reset with input := ws.map .word }

/-- Scenario A (95_test_vectors.md part 1.1) with the histogram closed. -/
def stCounted : State := { State.reset with phase := .counted, freq := [(0x41, 4), (256, 1)], len := 4, k := 2 }

/-- Scenario A with the merge tree built (41_table_builder.md R110, example). -/
def stBuilt : State :=
  { stCounted with phase := .built, heapEnd := 1, firstFree := 2, table := [(0, mergeNode 5 1 2), (1, leaf 0x41 4), (2, leaf 256 1)] }

/-- Scenario A with the codes derived (42_code_generator.md R130, example), and the name "a". -/
def stCoded : State :=
  { stBuilt with phase := .coded, codeLen := [(0x41, 1), (256, 1)], codeBits := [(0x41, [false]), (256, [true])], nameLen := 1,
                 nameBuf := [(0, 0x61#8)] }

/-- Scenario A after `HDR`, its emitted bytes left out. -/
def stEncode : State := { stCoded with phase := .encode }

/-- Scenario A after the four `ENC`. -/
def stEncoded : State := { stEncode with encCnt := 4, nbits := 4 }

/-- Phase `ERROR` as P3 leaves it (95_test_vectors.md). -/
def stError : State := { State.reset with phase := .error, err := .degenerate, errw := 0x5000#16, freq := [(256, 1)], k := 1 }

/-- The codes of "abracadabra" (95_test_vectors.md part 2.7). -/
def abraCodes : State :=
  { State.reset with
    phase := .encode, len := 11, k := 6,
    codeLen := [(0x61, 1), (0x62, 3), (0x63, 4), (0x64, 4), (0x72, 3), (256, 3)],
    codeBits := [(0x61, [true]), (0x62, [false, false, true]), (0x63, [false, true, true, false]),
                 (0x64, [false, true, true, true]), (0x72, [false, true, false]), (256, [false, false, false])] }

/-! ## Words -/

/-- 95_test_vectors.md part 2.1: one ill-formed word for each check. -/
theorem test_illformed_reserved : rsvClear 0x3141#16 = false := by decide
theorem test_illformed_opcode : opDefined 0xA000#16 = false := by decide
theorem test_illformed_low : lowClear 0x4001#16 = false := by decide
theorem test_illformed_words :
    [0x0001#16, 0x1001#16, 0x4001#16, 0x90FF#16, 0x0F00#16, 0x3141#16, 0x8142#16, 0xA000#16, 0xF000#16, 0xFFFF#16].all
      (fun w => !legalWord w && !(decode w).isOk) = true := by decide
theorem test_wellformed_words :
    [0x0000#16, 0x1000#16, 0x2000#16, 0x20FF#16, 0x3041#16, 0x30FF#16, 0x4000#16, 0x5000#16, 0x6000#16, 0x7000#16, 0x8000#16,
     0x8041#16, 0x9000#16].all (fun w => legalWord w && (decode w).isOk) = true := by decide

/-- Parameters outside R6 as the model reads it: no bit for a count, a name longer than an int32 can say. -/
theorem test_illformed_freqW : ¬ Config.wf { freqW := 0, nameMax := 256 } := by decide
theorem test_illformed_nameMax : ¬ Config.wf { freqW := 32, nameMax := 2 ^ 31 } := by decide
theorem test_default_wf : Config.default.wf := by decide

/-- No two rows of the opcode map are hit by one word: where both masks are set the rows differ (R83). -/
theorem test_rows_disjoint :
    opcodeMap.Pairwise (fun a b => a.mask &&& b.mask &&& (a.matchBits ^^^ b.matchBits) ≠ 0#16) := by decide

/-- Each family's words, bit by bit from R81 and R82 (95_test_vectors.md part 2.1). -/
theorem test_decode_control : decode 0b0001000000000000#16 = .ok .clr := by decide
theorem test_decode_frequency : decode 0b0011000001000001#16 = .ok (.cnt 0x41#8) := by decide
theorem test_decode_table : decode 0b0101000000000000#16 = .ok .build := by decide
theorem test_decode_code : decode 0b0110000000000000#16 = .ok .walk := by decide
theorem test_decode_packer : decode 0b1000000001000001#16 = .ok (.enc 0x41#8) := by decide
theorem test_decode_artifact : decode 0b0010000011111111#16 = .ok (.name 0xFF#8) := by decide
theorem test_decode_rest :
    [0x0000#16, 0x4000#16, 0x7000#16, 0x9000#16].map (fun w => (decode w).toOption) =
      [some .nop, some .eop, some .hdr, some .fin] := by decide

/-! ## Steps and errors -/

/-- E2, E3 (95_test_vectors.md part 4). -/
theorem test_step_illegal : after (step (offered [0xA000#16])) State.status = some 0xA0000017#32 := by decide
theorem test_step_nonzero_low : after (step (offered [0x4001#16])) State.status = some 0x40010017#32 := by decide

/-- E20: `ENC` in phase `LOAD` reports `PROTOCOL`. -/
theorem test_step_protocol : after (step (offered [0x8042#16])) State.status = some 0x80420027#32 := by decide

/-- E11, E12: the first error is kept; `CLR` leaves it. -/
theorem test_error_kept : after (step { stError with input := [.word 0xFFFF#16] }) State.status = some 0x50000057#32 := by decide
theorem test_error_left : after (step { stError with input := [.word 0x1000#16] }) State.status = some 0x00000000#32 := by decide

/-- `withFetchWord` puts the row's word next: `CNT 0x41` as the first command after reset (R100, example). -/
theorem test_fetch_word : after (step (State.reset.withFetchWord 16 0x3041)) State.len = some 1 := by decide

/-! ## Commands -/

theorem test_nop : after (exec .nop stEncoded) id = some stEncoded := by decide

/-- Part 2.10: `CLR` in phase `ENCODE`. -/
theorem test_clr : after (exec .clr stEncoded) id = some State.reset := by decide

/-- R150, example; E13. -/
theorem test_name : after (exec (.name 0x61#8) State.reset) (fun t => (t.nameBuf, t.nameLen)) = some ([(0, 0x61#8)], 1) := by decide
theorem test_name_full :
    after (exec (.name 0x63#8) { State.resetWith { freqW := 32, nameMax := 2 } with nameLen := 2 }) State.status =
      some 0x20630037#32 := by decide

/-- Part 2.2; E14. -/
theorem test_cnt : after (exec (.cnt 0xFF#8) State.reset) (fun t => (t.freq, t.len)) = some ([(255, 1)], 1) := by decide
theorem test_cnt_overflow :
    after (exec (.cnt 0x41#8) { State.resetWith { freqW := 2, nameMax := 256 } with len := 2, freq := [(0x41, 2)] }) State.status =
      some 0x30410047#32 := by decide

/-- Part 2.2: `CNT 'A'` four times, then `EOP`. -/
theorem test_eop :
    after (exec .eop { State.reset with freq := [(0x41, 4)], len := 4 }) (fun t => (t.freq, t.k, t.phase)) =
      some ([(0x41, 4), (256, 1)], 2, .counted) := by decide +kernel

/-- Part 2.6: 'A':1 'B':1 (the sort puts EOS last). -/
theorem test_build :
    after (exec .build { stCounted with freq := [(0x41, 1), (0x42, 1), (256, 1)], len := 2, k := 3 }) State.table =
      some [(0, mergeNode 3 1 4), (1, mergeNode 2 2 3), (2, leaf 0x41 1), (3, leaf 0x42 1), (4, leaf 256 1)] := by decide +kernel
theorem test_build_degenerate :
    after (exec .build { stCounted with freq := [(256, 1)], len := 0, k := 1 }) State.status = some 0x50000057#32 := by decide

/-- Part 2.7: the table of "AAB"; the codes "0", "10", "11". -/
theorem test_walk :
    after (exec .walk { stBuilt with table := [(0, mergeNode 4 1 4), (1, leaf 0x41 2), (2, leaf 0x42 1), (3, leaf 256 1), (4, mergeNode 2 2 3)] })
        (fun t => (t.codeLen, t.codeBits)) =
      some ([(0x41, 1), (0x42, 2), (256, 2)], [(0x41, [false]), (0x42, [true, false]), (256, [true, true])]) := by decide

/-- R151, example: the 45 bytes of Scenario A with the name "a". -/
theorem test_hdr :
    after (exec .hdr stCoded) State.out = some
      ([0x01#8, 0x00#8, 0x00#8, 0x00#8, 0x61#8, 0x03#8, 0x00#8, 0x00#8, 0x00#8] ++
       [0xFF#8, 0xFF#8, 0xFF#8, 0xFF#8, 0x01#8, 0x00#8, 0x00#8, 0x00#8, 0x02#8, 0x00#8, 0x00#8, 0x00#8] ++
       [0x41#8, 0x00#8, 0x00#8, 0x00#8, 0xFF#8, 0xFF#8, 0xFF#8, 0xFF#8, 0xFF#8, 0xFF#8, 0xFF#8, 0xFF#8] ++
       [0x00#8, 0x01#8, 0x00#8, 0x00#8, 0xFF#8, 0xFF#8, 0xFF#8, 0xFF#8, 0xFF#8, 0xFF#8, 0xFF#8, 0xFF#8]) := by decide

/-- Part 2.8, the seventh line: "0111" from `NBITS` = 5 emits D6 and leaves one bit. -/
theorem test_enc :
    after (exec (.enc 0x64#8) { abraCodes with encCnt := 6, acc := 0x16#8, nbits := 5 })
        (fun t => (t.acc, t.nbits, t.encCnt, t.out)) = some (0x01#8, 1, 7, [0xD6#8]) := by decide

/-- E22: `LENGTH_MISMATCH` before `MISSING_CODE`. -/
theorem test_enc_length_first :
    after (exec (.enc 0x42#8) { stEncode with encCnt := 4 }) State.status = some 0x80420077#32 := by decide

/-- P1: the end-of-stream bit and the padding give the byte 10; P6: a byte boundary takes no padding byte. -/
theorem test_fin : after (exec .fin stEncoded) (fun t => (t.out, t.nbits, t.phase)) = some ([0x10#8], 0, .done) := by decide
theorem test_fin_boundary :
    after (exec .fin { stEncode with len := 7, encCnt := 7, nbits := 7 }) (fun t => (t.out, t.acc)) = some ([0x80#8], 0#8) := by decide

/-! ## Sub-operations -/

/-- Part 2.3, S2, S4, S5, S10 (a letter is a glyph 1, 2, ...). -/
theorem test_sift_tie_left : shown (siftDown 0 3 (leaves [(1, 5), (2, 3), (3, 3)])) = some [(2, 3), (1, 5), (3, 3)] := by decide
theorem test_sift_two_levels :
    shown (siftDown 0 5 (leaves [(1, 9), (2, 2), (3, 3), (4, 4), (5, 1)])) = some [(2, 2), (5, 1), (3, 3), (4, 4), (1, 9)] := by decide
theorem test_sift_outside :
    shown (siftDown 0 4 (leaves [(1, 9), (2, 2), (3, 3), (4, 4), (5, 1)])) = some [(2, 2), (4, 4), (3, 3), (1, 9), (5, 1)] := by decide

/-- Part 2.4, H1, H7. -/
theorem test_reheap :
    shown (reheap 7 (leaves [(1, 9), (2, 8), (3, 7), (4, 6), (5, 5), (6, 4), (7, 3)])) =
      some [(7, 3), (5, 5), (6, 4), (4, 6), (2, 8), (1, 9), (3, 7)] := by decide
theorem test_reheap_order :
    shown (reheap 5 (leaves [(1, 5), (2, 4), (3, 3), (4, 2), (5, 1)])) = some [(5, 1), (4, 2), (3, 3), (1, 5), (2, 4)] := by decide

/-- Part 2.5: the case `m = HEAPEND`. -/
theorem test_merge_last_slot :
    (mergeIter { table := [(0, leaf 256 1), (1, mergeNode 2 3 4), (2, leaf 0x63 1)], heapEnd := 2, firstFree := 5 }).toOption =
      some { table := [(0, mergeNode 2 2 5), (1, mergeNode 2 3 4), (2, leaf 256 1), (5, leaf 0x63 1)], heapEnd := 1, firstFree := 6 } := by
  decide

/-- Part 2.9: `le32`. -/
theorem test_le32 :
    [0, 7, 256, 513, -1].map le32 =
      [[0x00#8, 0x00#8, 0x00#8, 0x00#8], [0x07#8, 0x00#8, 0x00#8, 0x00#8], [0x00#8, 0x01#8, 0x00#8, 0x00#8],
       [0x01#8, 0x02#8, 0x00#8, 0x00#8], [0xFF#8, 0xFF#8, 0xFF#8, 0xFF#8]] := by decide

/-- Part 2.8: "111111111" gives FF 01, "1011" gives 0D. -/
theorem test_packed_bits :
    packed (List.replicate 9 true) = [0xFF#8, 0x01#8] ∧ packed [true, false, true, true] = [0x0D#8] := by decide

/-- P2, P5: assembler text and pseudo-instructions to words (R87, R88). -/
theorem test_assemble : assemble "CNTB 0x41 65 'B' ; three bytes" = some [0x3041#16, 0x3041#16, 0x3042#16] := by decide
theorem test_expand :
    wordsOf (expand (.compress [0x61#8] [0x41#8])) =
      [0x1000#16, 0x2061#16, 0x3041#16, 0x4000#16, 0x5000#16, 0x6000#16, 0x7000#16, 0x8041#16, 0x9000#16] := by decide

/-- Part 1.4: "a.b" gives the stem "a", "x" is its own stem (R155). -/
theorem test_file_name :
    fileStem [0x61#8, 0x2E#8, 0x62#8] = [0x61#8] ∧ outputFileName [0x78#8] = [0x78#8, 0x2E#8, 0x68#8, 0x75#8, 0x66#8] := by decide

/-- P7: the decoder reads the smallest artifact back (R156). -/
theorem test_decoder :
    decodeArtifact
      ([0x00#8, 0x00#8, 0x00#8, 0x00#8, 0x03#8, 0x00#8, 0x00#8, 0x00#8] ++
       [0xFF#8, 0xFF#8, 0xFF#8, 0xFF#8, 0x01#8, 0x00#8, 0x00#8, 0x00#8, 0x02#8, 0x00#8, 0x00#8, 0x00#8] ++
       [0x00#8, 0x01#8, 0x00#8, 0x00#8, 0xFF#8, 0xFF#8, 0xFF#8, 0xFF#8, 0xFF#8, 0xFF#8, 0xFF#8, 0xFF#8] ++
       [0x41#8, 0x00#8, 0x00#8, 0x00#8, 0xFF#8, 0xFF#8, 0xFF#8, 0xFF#8, 0xFF#8, 0xFF#8, 0xFF#8, 0xFF#8, 0x01#8]) = some [0x41#8] := by
  decide

/-! ## Witnesses: for every statement with hypotheses, values that meet them all, clause by clause -/

theorem witness_StepRunsTheDecodedCommand :
    (offered [0x3041#16]).input = .word 0x3041#16 :: [] ∧ decode 0x3041#16 = .ok (.cnt 0x41#8) := by decide

theorem witness_IllegalWordsRaiseIllegalCmd :
    (offered [0x8142#16]).input = .word 0x8142#16 :: [] ∧ decode 0x8142#16 = .error .reservedBits ∧
    (offered [0x8142#16]).phase ≠ .error ∧ stError.phase = .error := by decide

theorem witness_OpcodeMapIsTheDecoder : opcodeMap[3]? = some ⟨"CNT", .b, 0x3000#16, 0xFF00#16⟩ := by decide

theorem witness_NopDoesNothing :
    1 ≤ (0x0001#16).toNat ∧ (0x0001#16).toNat ≤ 0x0FFF ∧ 1 ≤ (0x0FFF#16).toNat ∧ (0x0FFF#16).toNat ≤ 0x0FFF := by decide

theorem witness_MaterializeListsPresentSymbols : presentCount [(65, 2), (256, 1)] ≤ 2 ∧ ¬ presentCount [(65, 2), (256, 1)] ≤ 1 := by
  decide

theorem witness_ResetInputAndIdle :
    ({ stEncoded with input := [.reset, .word 0x0000#16] } : State).input = .reset :: [.word 0x0000#16] ∧ stEncoded.input = [] := by
  decide

theorem witness_ResetValues : ∃ s r, exec .clr s = .next r := ⟨stEncoded, State.reset, rfl⟩

theorem witness_StepConsumesOneInput : ∃ t, step (offered [0x3041#16]) = .next t := ⟨_, rfl⟩

theorem witness_AcceptanceByPhase :
    stError.phase = .error ∧ Instr.build ≠ .clr ∧ homePhase .build = some .counted ∧ State.reset.phase ≠ .error ∧
    State.reset.phase ≠ .counted ∧ stCounted.phase = .counted ∧ homePhase .nop = none ∧ homePhase .clr = none ∧
    decode 0xF000#16 = .error .reservedOpcode := by decide

/-- The error a command raises in its own phase (clause 3 of `AcceptanceByPhase`). -/
theorem witness_AcceptanceByPhase_own_error :
    ∃ s t, s.phase = .counted ∧ exec .build s = .next t ∧ t.phase = .error :=
  ⟨{ stCounted with k := 1 }, _, rfl, rfl, rfl⟩

theorem witness_PhaseTransitions : ∃ t, exec .eop State.reset = .next t ∧ t.phase = .counted := ⟨_, rfl, rfl⟩

theorem witness_ErrorsArePrecise :
    ∃ t, step (offered [0xA000#16]) = .next t ∧ (offered [0xA000#16]).phase ≠ .error ∧ t.phase = .error :=
  ⟨_, rfl, by decide, rfl⟩

theorem witness_ErrorPhaseIsSticky :
    stError.phase = .error ∧ ({ stError with input := [.word 0x1001#16] } : State).input = .word 0x1001#16 :: [] ∧
    (0x1001#16 : Word) ≠ 0x1000#16 := by decide

theorem witness_OnlyClrOrResetLeavesError :
    ∃ t u, step { stError with input := [.word 0x1000#16] } = .next t ∧ t.phase ≠ .error ∧
      step { stError with input := [.reset] } = .next u ∧ u.phase ≠ .error :=
  ⟨_, _, rfl, by decide, rfl, by decide⟩

theorem witness_ErrorPriority :
    stError.phase = .error ∧ decode 0x8142#16 = .error .reservedBits ∧ decode 0x8042#16 = .ok (.enc 0x42#8) ∧
    homePhase (.enc 0x42#8) = some .encode ∧ State.reset.phase = .load ∧ stEncode.phase = .encode ∧
    stEncode.encCnt ≠ stEncode.len ∧ countAt stEncode.codeLen (0x42#8 : Byte).toNat = 0 ∧ stEncoded.encCnt = stEncoded.len ∧
    decode 0x9000#16 = .ok .fin ∧ countAt ({ stEncoded with codeLen := [] } : State).codeLen 256 = 0 := by decide

theorem witness_NameAppendsOneByte :
    State.reset.phase = .load ∧ State.reset.nameLen < State.reset.cfg.nameMax ∧
    ({ State.reset with nameLen := 255 } : State).nameLen < State.reset.cfg.nameMax ∧
    ({ State.reset with nameLen := 256 } : State).nameLen = State.reset.cfg.nameMax := by decide

theorem witness_CntCountsOneByte :
    State.reset.phase = .load ∧ ({ State.reset with len := 2 ^ 32 - 3 } : State).len ≠ 2 ^ State.reset.cfg.freqW - 2 ∧
    ({ State.reset with len := 2 ^ 32 - 2 } : State).len = 2 ^ State.reset.cfg.freqW - 2 := by decide

theorem witness_EopClosesTheHistogram :
    State.reset.phase = .load ∧ (∀ n < 256, countAt State.reset.freq n = 0) ∧
    ∀ n < 256, 0 < countAt ((List.range 256).map fun n => (n, 1)) n := by decide +kernel

/-- A state in phase `LOAD` that meets the invariant, four bytes counted. -/
theorem witness_HistogramAfterEop :
    ({ State.reset with freq := [(0x41, 4)], len := 4 } : State).Inv ∧
    ∃ t, exec .eop { State.reset with freq := [(0x41, 4)], len := 4 } = .next t :=
  ⟨by decide +kernel, _, rfl⟩

theorem witness_SortOrdersTheLeaves :
    (readSlots (leaves [(0x41, 4), (256, 1)]) 0 2).toOption = some [leaf 0x41 4, leaf 256 1] ∧
    ([leaf 0x41 4, leaf 256 1].map TableEntry.glyph).Nodup := by decide

theorem witness_SiftDownIsItsLoop : slotsWritten (leaves [(1, 5), (2, 3), (3, 3)]) 3 ∧ 2 < 3 ∧ 3 ≤ 513 := by decide

/-- Slot 0 out of order (step e). -/
theorem witness_ReheapIsOneSiftDown :
    slotsWritten (leaves [(1, 5), (2, 3), (3, 4), (4, 6)]) 4 ∧
    (∀ i < 4, 1 ≤ i → (i - 1) / 2 ≠ 0 → heapAt (leaves [(1, 5), (2, 3), (3, 4), (4, 6)]) i) ∧
    (∀ i < 4, 1 ≤ i → (i - 1) / 2 = 0 → 1 ≤ 0 →
      weightAt (leaves [(1, 5), (2, 3), (3, 4), (4, 6)]) ((0 - 1) / 2) ≤ weightAt (leaves [(1, 5), (2, 3), (3, 4), (4, 6)]) i) :=
  ⟨by decide, by decide, by decide⟩

/-- Slot 1 out of order (step c). -/
theorem witness_ReheapIsOneSiftDown_slot1 :
    slotsWritten (leaves [(1, 1), (2, 9), (3, 4), (4, 2), (5, 3)]) 5 ∧
    (∀ i < 5, 1 ≤ i → (i - 1) / 2 ≠ 1 → heapAt (leaves [(1, 1), (2, 9), (3, 4), (4, 2), (5, 3)]) i) ∧
    (∀ i < 5, 1 ≤ i → (i - 1) / 2 = 1 → 1 ≤ 1 →
      weightAt (leaves [(1, 1), (2, 9), (3, 4), (4, 2), (5, 3)]) ((1 - 1) / 2) ≤
        weightAt (leaves [(1, 1), (2, 9), (3, 4), (4, 2), (5, 3)]) i) :=
  ⟨by decide, by decide, by decide⟩

/-- The tie of slots 1 and 2, and `HEAPEND` at its least value. -/
theorem witness_MergeIterTakesTheTwoLightest :
    (let b : Builder := { table := leaves [(0x61, 1), (0x62, 1), (256, 1)], heapEnd := 2, firstFree := 3 }
     2 ≤ b.heapEnd ∧ b.heapEnd < b.firstFree ∧ b.firstFree ≤ 512 ∧ slotsWritten b.table (b.heapEnd + 1) ∧
     heapOrdered b.table (b.heapEnd + 1) ∧ weightAt b.table 1 = weightAt b.table 2) := by decide

theorem witness_BuildCompletes :
    stCounted.phase = .counted ∧ 2 ≤ stCounted.k ∧ stCounted.k = presentCount stCounted.freq ∧
    ({ stCounted with k := 1 } : State).k < 2 := by decide +kernel

theorem witness_BuildTableIsAMergeTree :
    stCounted.phase = .counted ∧ 2 ≤ stCounted.k ∧ stCounted.k = presentCount stCounted.freq := by decide +kernel

theorem witness_BuildPlacesEveryLeafOnce :
    stCounted.phase = .counted ∧ 2 ≤ stCounted.k ∧ stCounted.k = presentCount stCounted.freq ∧
    after (exec .build stCounted) State.phase = some .built := by decide +kernel

theorem witness_TableDependsOnHistogramOnly :
    (let s' := { stCounted with table := [(7, leaf 9 9)], nameLen := 1 }
     s'.phase = .counted ∧ stCounted.freq = s'.freq ∧ stCounted.k = s'.k ∧ 2 ≤ stCounted.k ∧
     stCounted.k = presentCount stCounted.freq ∧ after (exec .build stCounted) State.phase = some .built ∧
     after (exec .build s') State.phase = some .built) := by decide +kernel

/-- The tree of Scenario A. -/
def treeA : CodeTree := .node (.leaf 0x41) (.leaf 256)

theorem witness_WalkAssignsThePaths :
    stBuilt.phase = .built ∧ treeAt stBuilt.table 0 treeA = true ∧ treeA.depth ≤ 256 ∧ treeA.symbols.Nodup ∧
    (∀ n ∈ treeA.symbols, n ≤ 256) ∧ Memory.wf countBlank nsym stBuilt.codeLen := by decide

theorem witness_CodesArePrefixFree :
    stBuilt.phase = .built ∧ treeAt stBuilt.table 0 (.node (.leaf 0x41) (.leaf 256)) = true ∧ treeA.depth ≤ 256 ∧
    treeA.symbols.Nodup ∧ stBuilt.codeLen = [] ∧ after (exec .walk stBuilt) State.phase = some .coded := by decide

theorem witness_IntegersAreLittleEndian :
    (-2 ^ 31 : Int) ≤ -2 ^ 31 ∧ (-2 ^ 31 : Int) < 2 ^ 31 ∧ ((2 ^ 31 - 1 : Nat) < 2 ^ 31) := by decide

theorem witness_HdrEmitsHeaderAndTable :
    stCoded.phase = .coded ∧ stCoded.nameLen ≤ stCoded.cfg.nameMax ∧ 1 ≤ stCoded.k ∧ stCoded.k ≤ 257 ∧
    ([0x61#8] : List Byte).length = stCoded.nameLen ∧ (∀ i < stCoded.nameLen, memFind stCoded.nameBuf i = [0x61#8][i]?) ∧
    [mergeNode 5 1 2, leaf 0x41 4, leaf 256 1].length = 2 * stCoded.k - 1 ∧
    ∀ j < 2 * stCoded.k - 1, memFind stCoded.table j = [mergeNode 5 1 2, leaf 0x41 4, leaf 256 1][j]? := by decide

theorem witness_EncAppendsTheCode :
    stEncode.phase = .encode ∧ stEncode.encCnt ≠ stEncode.len ∧ countAt stEncode.codeLen (0x41#8 : Byte).toNat ≠ 0 ∧
    memFind stEncode.codeBits (0x41#8 : Byte).toNat = some [false] ∧
    countAt stEncode.codeLen (0x41#8 : Byte).toNat ≤ [false].length ∧ stEncode.acc.toNat < 2 ^ stEncode.nbits.val ∧
    stEncoded.encCnt = stEncoded.len ∧ countAt stEncode.codeLen (0x42#8 : Byte).toNat = 0 := by decide

theorem witness_FinPadsTheLastByte :
    stEncoded.phase = .encode ∧ stEncoded.encCnt = stEncoded.len ∧ countAt stEncoded.codeLen 256 ≠ 0 ∧
    memFind stEncoded.codeBits 256 = some [true] ∧ countAt stEncoded.codeLen 256 ≤ [true].length ∧
    stEncoded.acc.toNat < 2 ^ stEncoded.nbits.val ∧ stEncode.encCnt ≠ stEncode.len ∧
    countAt ({ stEncoded with codeLen := [] } : State).codeLen 256 = 0 := by decide

theorem witness_PackedBytesAreTheBitSequence :
    (let bs : List Byte := [0x41#8, 0x41#8, 0x41#8, 0x41#8]
     stEncode.phase = .encode ∧ stEncode.acc = 0#8 ∧ stEncode.nbits = 0 ∧ stEncode.encCnt = 0 ∧ stEncode.len = bs.length ∧
     stEncode.codesAgree ∧ (∀ b ∈ bs, countAt stEncode.codeLen b.toNat ≠ 0) ∧ countAt stEncode.codeLen 256 ≠ 0) := by decide

theorem witness_MemoriesWrittenOnlyByTheirCommands :
    ∃ t, exec .walk stBuilt = .next t ∧ t.codeLen ≠ stBuilt.codeLen := ⟨_, rfl, by decide⟩

theorem witness_RegistersWrittenOnlyByTheirCommands :
    ∃ t, exec (.enc 0x41#8) stEncode = .next t ∧ t.encCnt ≠ stEncode.encCnt := ⟨_, rfl, by decide⟩

theorem witness_OutputOnlyGrows :
    ∃ t, step { stEncoded with input := [.word 0x9000#16] } = .next t ∧ t.out ≠ stEncoded.out := ⟨_, rfl, by decide⟩

theorem witness_InvariantsHoldAtReset : Config.wf { freqW := 1, nameMax := 2 ^ 31 - 1 } ∧ Config.default.wf := by decide

theorem witness_InvariantKeptByEveryStep :
    ({ stEncode with input := [.word 0x8041#16] } : State).Inv ∧ ∃ t, step { stEncode with input := [.word 0x8041#16] } = .next t :=
  ⟨by decide +kernel, _, rfl⟩

theorem witness_RunsNeverFault : State.reset.RunInv := ⟨by decide +kernel, by decide, by decide +kernel⟩
theorem witness_RunsNeverFault_built : stBuilt.RunInv := ⟨by decide +kernel, by decide, by decide +kernel⟩
theorem witness_RunsNeverFault_encode : stEncoded.RunInv := ⟨by decide +kernel, by decide, by decide +kernel⟩
theorem witness_RunsNeverFault_error : stError.RunInv := ⟨by decide +kernel, by decide, by decide +kernel⟩

theorem witness_EveryPresentSymbolHasACode : stCounted.RunInv ∧ stCounted.phase = .counted ∧ 2 ≤ stCounted.k :=
  ⟨⟨by decide +kernel, by decide, by decide +kernel⟩, rfl, by decide⟩

theorem witness_EmptyInputEndsInError : ([0x65#8] : List Byte).length ≤ stError.cfg.nameMax := by decide

theorem witness_CompressRoundTrip :
    State.reset.cfg.wf ∧ ([] : List Byte).length ≤ State.reset.cfg.nameMax ∧ 1 ≤ ([0x41#8] : List Byte).length ∧
    ([0x41#8] : List Byte).length ≤ State.reset.cfg.lenMax := by decide

end Sys2Proof.Tests
end

/-! # The state: what every step keeps, and what a step leaves alone (10_state.md) -/

/-! ## Memories, after a write -/

namespace Sys2Proof.Machine

/-- Everything listed after a count is written was listed before at another index, or is the count written. -/
theorem mem_setCount {m : Memory Nat} (hm : m.Pairwise fun x y => x.1 < y.1) {a v : Nat} {c : Nat × Nat}
    (h : c ∈ setCount m a v) : c = (a, v) ∨ c.1 ≠ a ∧ c ∈ m := by
  unfold setCount at h
  split at h
  · have hfound : memFind (memErase m a) c.1 = some c.2 := memFind_of_mem (memErase_rising a hm) h
    refine .inr ⟨fun hc => ?_, mem_memErase h⟩
    simp [hc, memFind_erase_self hm] at hfound
  · have hfound : memFind (memPut m a v) c.1 = some c.2 := memFind_of_mem (memPut_rising a v hm) h
    rw [memFind_put] at hfound
    split at hfound
    · exact .inl (Prod.ext ‹_› (Option.some.inj hfound).symm)
    · exact .inr ⟨‹_›, mem_of_memFind hfound⟩

@[simp] theorem countAt_nil (n : Nat) : countAt [] n = 0 := rfl

theorem byteSum_nil : byteSum [] = 0 :=
  List.sum_eq_zero fun _ hx => by
    obtain ⟨n, -, rfl⟩ := List.mem_map.mp hx
    exact countAt_nil n

/-- A number that is added at one index below `n` is added once to the sum over `0 .. n − 1`. -/
theorem sum_range_add_indicator (g : Nat → Nat) {a n : Nat} (ha : a < n) :
    ((List.range n).map fun b => g b + if b = a then 1 else 0).sum = ((List.range n).map g).sum + 1 := by
  have hone : ((List.range n).map fun b => if b = a then 1 else 0).sum = 1 :=
    (Finset.sum_ite_eq' (Finset.range n) a fun _ => 1).trans (if_pos (Finset.mem_range.mpr ha))
  rw [List.sum_map_add, hone]

/-- `CNT` adds one to the sum of the byte counts (10_state.md R27). -/
theorem byteSum_countOne (f : Memory Nat) (d : Byte) : byteSum (countOne f (symbolOf d)) = byteSum f + 1 := by
  have hd : symbolOf d < 256 := d.isLt
  have hcount : countAt (countOne f (symbolOf d)) = fun b => countAt f b + if b = symbolOf d then 1 else 0 := by
    funext b
    rw [countOne, countAt_setCount_pos _ _ _ (Nat.succ_ne_zero _)]
    split <;> simp [*]
  rw [byteSum, hcount, sum_range_add_indicator _ hd, byteSum]

/-- The count of the end-of-stream symbol is no part of the sum of the byte counts (10_state.md R27). -/
theorem byteSum_setCount_eos (f : Memory Nat) : byteSum (setCount f eos 1) = byteSum f := by
  refine congrArg List.sum (List.map_congr_left fun b hb => ?_)
  have hne : b ≠ eos := Nat.ne_of_lt (List.mem_range.mp hb)
  rw [countAt_setCount_pos _ _ _ one_ne_zero, if_neg hne]

theorem presentCount_le_nsym (f : Memory Nat) : presentCount f ≤ nsym :=
  (List.length_filter_le _ _).trans_eq List.length_range

end Sys2Proof.Machine

/-! ## What `WALK` keeps of the codes -/

namespace Sys2Proof.Machine

/-- The part of `State.Inv` that speaks of `CODELEN` and `CODEBITS` (20_memory.md R60, 10_state.md R36). -/
structure Codes.Inv (c : Codes) : Prop where
  lenWf : Memory.wf countBlank nsym c.codeLen
  bitsWf : Memory.wf noValue nsym c.codeBits
  lenLe : ∀ e ∈ c.codeLen, e.2 ≤ codeMax
  agree : ∀ e ∈ c.codeLen, (memFind c.codeBits e.1).map List.length = some e.2

/-- Recording a code that fits changes one symbol's length and bits together. -/
theorem Codes.inv_keptByCodes : KeptByCodes Codes.Inv := by
  intro c g p c' ⟨hlen, hbits, hle, hagree⟩ hp hrec
  obtain ⟨hlen', hbits'⟩ := recordCode_wf hrec hlen hbits
  obtain ⟨s, -, -, rfl⟩ := recordCode_eq_ok hrec
  refine ⟨hlen', hbits', fun e he => ?_, fun e he => ?_⟩
  · rcases mem_setCount hlen.1 he with rfl | ⟨-, hold⟩
    · exact hp
    · exact hle e hold
  · rcases mem_setCount hlen.1 he with rfl | ⟨hne, hold⟩
    · simp [memFind_put_self]
    · rw [memFind_put_ne _ _ hne]
      exact hagree e hold

end Sys2Proof.Machine

/-! ## What the Bit Packer keeps of the accumulator -/

namespace Sys2Proof.Machine

/-- The unfilled bits of `ACC` are 0 (10_state.md R31): the part of `State.inRange` that speaks of the packer. -/
abbrev Packer.unfilledZero (p : Packer) : Prop := p.acc.toNat < 2 ^ p.nbits.val

theorem bitAt_toNat_le : ∀ (b : Bool) (n : Fin 8), (bitAt b n).toNat ≤ 2 ^ n.val := by decide

theorem flushByte_unfilledZero (p : Packer) (acc : Byte) : (flushByte p acc).unfilledZero := by
  simp [flushByte, Packer.unfilledZero]

theorem appendBit_unfilledZero {p : Packer} (h : p.unfilledZero) (b : Bool) : (appendBit p b).unfilledZero := by
  unfold appendBit
  split
  · exact flushByte_unfilledZero p _
  · rename_i hfull
    have hnext : (p.nbits + 1).val = p.nbits.val + 1 := Fin.val_add_one_of_lt (Fin.lt_last_iff_ne_last.mpr hfull)
    calc (p.acc + bitAt b p.nbits).toNat
        ≤ p.acc.toNat + (bitAt b p.nbits).toNat := by rw [BitVec.toNat_add]; exact Nat.mod_le _ _
      _ < 2 ^ p.nbits.val + 2 ^ p.nbits.val := Nat.add_lt_add_of_lt_of_le h (bitAt_toNat_le b _)
      _ = 2 ^ (p.nbits + 1).val := by rw [hnext]; omega

theorem appendBits_unfilledZero {p : Packer} (h : p.unfilledZero) (bits : List Bool) :
    (appendBits p bits).unfilledZero := by
  induction bits generalizing p with
  | nil => exact h
  | cons b bits ih => exact ih (appendBit_unfilledZero h b)

theorem appendCode_unfilledZero {c : Codes} {n : Nat} {p p' : Packer} (h : p.unfilledZero)
    (ha : appendCode c n p = .ok p') : p'.unfilledZero := by
  obtain ⟨bits, -, rfl⟩ := appendCode_eq_ok.mp ha
  exact appendBits_unfilledZero h bits

theorem padLast_unfilledZero {p : Packer} (h : p.unfilledZero) : (padLast p).unfilledZero := by
  unfold padLast
  split
  · exact h
  · exact flushByte_unfilledZero p _

theorem appendCode_out_prefix {c : Codes} {n : Nat} {p p' : Packer} (ha : appendCode c n p = .ok p') :
    p.out <+: p'.out := by
  obtain ⟨bits, -, rfl⟩ := appendCode_eq_ok.mp ha
  exact appendBits_out_prefix p bits

end Sys2Proof.Machine

/-! ## The invariant, update by update -/

namespace Sys2Proof.Machine

variable {s t : State}

theorem State.Inv.codes_inv (h : s.Inv) : s.codes.Inv := by
  obtain ⟨⟨-, -, hlen, hbits, -⟩, ⟨-, -, -, -, -, -, -, hle⟩, -, hagree, -, -⟩ := h
  exact ⟨hlen, hbits, hle, hagree⟩

/-- The state of R44 meets the invariant, whatever the parameters and the waiting inputs. -/
theorem State.inv_resetWith (cfg : Config) : (State.resetWith cfg).Inv := by
  refine ⟨?canonical, ?inRange, ?errorsAgree, ?codesAgree, ?nameWritten, ?lenIsSum⟩
  case canonical =>
    exact ⟨Memory.wf_nil _ _, Memory.wf_nil _ _, Memory.wf_nil _ _, Memory.wf_nil _ _, Memory.wf_nil _ _⟩
  case inRange => simp [State.inRange, State.resetWith]
  case errorsAgree => simp [State.errorsAgree, State.resetWith]
  case codesAgree => simp [State.codesAgree, State.resetWith]
  case nameWritten => simp [State.nameWritten, State.resetWith]
  case lenIsSum => exact byteSum_nil

/-- The waiting inputs are no part of the invariant (log 2). -/
theorem State.Inv.withInput (h : s.Inv) (q : List HostInput) : (s.withInput q).Inv := h

theorem State.inv_cleared (s : State) : s.cleared.Inv := by
  rw [s.cleared_eq_reset]
  exact (State.inv_resetWith s.cfg).withInput s.input

/-- Raising an error writes `ERR`, `ERRW` and `PHASE` together (60_exceptions.md R172). -/
theorem State.Inv.withError (h : s.Inv) {code : ErrCode} (hc : code ≠ .noError) (w : Word) :
    (s.withError code w).Inv := by
  obtain ⟨hcan, hrange, -, hrest⟩ := h
  exact ⟨hcan, hrange, by simp [State.errorsAgree, hc], hrest⟩

/-- A move between two phases other than `ERROR` leaves `ERR` at 0. -/
theorem State.Inv.withPhase (h : s.Inv) (hs : s.phase ≠ .error) {p : Phase} (hp : p ≠ .error) : (s.withPhase p).Inv := by
  obtain ⟨hcan, hrange, ⟨herr, herrw⟩, hrest⟩ := h
  refine ⟨hcan, hrange, ⟨?_, herrw⟩, hrest⟩
  simp [hp, herr, hs]

theorem State.Inv.withName (h : s.Inv) {d : Byte} {m : List Host.Cell} (hn : s.nameLen ≠ s.cfg.nameMax)
    (hw : writeName s.cfg s.nameBuf s.nameLen d = .ok m) : (s.withName m (s.nameLen + 1)).Inv := by
  obtain ⟨⟨hfreq, htable, hlen, hbits, hname⟩, ⟨hle, hrange⟩, herr, hcodes, hwritten, hsum⟩ := h
  refine ⟨⟨hfreq, htable, hlen, hbits, Memory.wf_memWrite hname hw⟩, ⟨Nat.lt_of_le_of_ne hle hn, hrange⟩, herr, hcodes,
    fun i hi => ?_, hsum⟩
  obtain ⟨-, rfl⟩ := memWrite_eq_ok.mp hw
  rw [State.withName_nameBuf, memFind_put]
  split
  · rfl
  · exact hwritten i (Nat.lt_of_le_of_ne (Nat.le_of_lt_succ hi) ‹_›)

theorem State.Inv.withCount (h : s.Inv) (hn : s.len ≠ s.cfg.lenMax) (d : Byte) :
    (s.withCount (countOne s.freq (symbolOf d)) (s.len + 1)).Inv := by
  obtain ⟨⟨hfreq, hcan⟩, ⟨hnl, hle, henc, hrange⟩, herr, hcodes, hwritten, hsum⟩ := h
  have hd : symbolOf d < nsym := Nat.lt_succ_of_lt d.isLt
  exact ⟨⟨Memory.wf_setCount hfreq hd (countAt s.freq (symbolOf d) + 1), hcan⟩,
    ⟨hnl, Nat.lt_of_le_of_ne hle hn, Nat.le_succ_of_le henc, hrange⟩, herr, hcodes, hwritten,
    (byteSum_countOne s.freq d).trans (congrArg (· + 1) hsum)⟩

theorem State.Inv.withHistogram (h : s.Inv) :
    (s.withHistogram (setCount s.freq eos 1) (presentCount (setCount s.freq eos 1))).Inv := by
  obtain ⟨⟨hfreq, hcan⟩, ⟨hnl, hle, henc, -, hrange⟩, herr, hcodes, hwritten, hsum⟩ := h
  exact ⟨⟨Memory.wf_setCount hfreq (by decide) 1, hcan⟩, ⟨hnl, hle, henc, presentCount_le_nsym _, hrange⟩, herr, hcodes,
    hwritten, (byteSum_setCount_eos s.freq).trans hsum⟩

/-- `BUILD` leaves the cursors at 1 and `2K − 2` (10_state.md R30). -/
theorem State.Inv.withBuilder (h : s.Inv) (hk : 2 ≤ s.k) {b : Builder} (hb : buildTable s.freq s.k s.table = .ok b) :
    (s.withBuilder b).Inv := by
  obtain ⟨⟨hfreq, htable, hcan⟩, ⟨hnl, hle, henc, hkle, -, -, hrange⟩, hrest⟩ := h
  obtain ⟨hend, hfree⟩ := buildTable_cursors hb
  have hkle' : s.k ≤ 257 := hkle
  exact ⟨⟨hfreq, buildTable_wf hb htable, hcan⟩,
    ⟨hnl, hle, henc, hkle, by simp only [State.withBuilder_heapEnd]; omega,
      by simp only [State.withBuilder_firstFree]; omega, hrange⟩, hrest⟩

theorem State.Inv.withCodes (h : s.Inv) {c : Codes} (hc : c.Inv) : (s.withCodes c).Inv := by
  obtain ⟨hclen, hcbits, hcle, hcagree⟩ := hc
  obtain ⟨⟨hfreq, htable, -, -, hname⟩, ⟨hnl, hle, henc, hk, hend, hfree, hacc, -⟩, herr, -, hrest⟩ := h
  exact ⟨⟨hfreq, htable, hclen, hcbits, hname⟩, ⟨hnl, hle, henc, hk, hend, hfree, hacc, hcle⟩, herr, hcagree, hrest⟩

/-- `OUT` is no part of the invariant. -/
theorem State.Inv.emit (h : s.Inv) (bytes : List Byte) : (s.emit bytes).Inv := h

theorem State.Inv.withPacker (h : s.Inv) {p : Packer} (hp : p.unfilledZero) : (s.withPacker p).Inv := by
  obtain ⟨hcan, ⟨hnl, hle, henc, hk, hend, hfree, -, hcl⟩, hrest⟩ := h
  exact ⟨hcan, ⟨hnl, hle, henc, hk, hend, hfree, hp, hcl⟩, hrest⟩

theorem State.Inv.withEncCnt (h : s.Inv) {n : Nat} (hn : n ≤ s.len) : (s.withEncCnt n).Inv := by
  obtain ⟨hcan, ⟨hnl, hle, -, hrange⟩, hrest⟩ := h
  exact ⟨hcan, ⟨hnl, hle, hn, hrange⟩, hrest⟩

theorem State.Inv.packer_unfilledZero (h : s.Inv) : s.packer.unfilledZero := by
  obtain ⟨-, ⟨-, -, -, -, -, -, hacc, -⟩, -⟩ := h
  exact hacc

theorem State.Inv.encCnt_le (h : s.Inv) : s.encCnt ≤ s.len := by
  obtain ⟨-, ⟨-, -, henc, -⟩, -⟩ := h
  exact henc

/-- Every command keeps the invariant. -/
theorem exec_inv {i : Instr} (hs : s.Inv) (h : exec i s = .next t) : t.Inv := by
  cases exec_effect h with
  | same ht => exact ht ▸ hs
  | clear _ ht => exact ht ▸ s.inv_cleared
  | err _ code hc ht => exact ht ▸ hs.withError hc _
  | name d m _ _ hn hw ht => exact ht ▸ hs.withName hn hw
  | cnt d _ _ hn ht => exact ht ▸ hs.withCount hn d
  | eop _ hp ht => exact ht ▸ hs.withHistogram.withPhase (by simp [hp]) (by decide)
  | build b _ hp hk hb ht => exact ht ▸ (hs.withBuilder hk hb).withPhase (by simp [hp]) (by decide)
  | walk c _ hp hc ht =>
    exact ht ▸ (hs.withCodes (walkTable_keeps Codes.inv_keptByCodes hc hs.codes_inv)).withPhase (by simp [hp]) (by decide)
  | hdr bytes _ hp _ ht => exact ht ▸ (hs.emit bytes).withPhase (by simp [hp]) (by decide)
  | enc d p _ _ hl _ ha ht =>
    exact ht ▸ (hs.withPacker (appendCode_unfilledZero hs.packer_unfilledZero ha)).withEncCnt
      (Nat.lt_of_le_of_ne hs.encCnt_le hl)
  | fin p _ hp _ _ ha ht =>
    exact ht ▸ (hs.withPacker (padLast_unfilledZero (appendCode_unfilledZero hs.packer_unfilledZero ha))).withPhase
      (by simp [hp]) (by decide)

/-- Settles O42: `exec_inv` for a command word, and the invariant of the reset state, of an error and of a consumed input for the
other steps. -/
theorem invariantKeptByEveryStep : Obligations.InvariantKeptByEveryStep := by
  intro s t hs h
  rcases step_cases h with ⟨-, rfl⟩ | ⟨rest, -, rfl⟩ | ⟨w, rest, i, -, -, hexec⟩ | ⟨w, rest, e, -, -, rfl⟩
  · exact hs
  · exact State.inv_cleared _
  · exact exec_inv (hs.withInput rest) hexec
  · split
    · exact hs.withInput rest
    · exact (hs.withInput rest).withError (by decide) w

/-- The state of R44 meets what each phase promises. -/
theorem State.phaseFacts_resetWith (cfg : Config) : (State.resetWith cfg).phaseFacts := by
  simp [State.phaseFacts, State.resetWith, Phase.counting, Phase.hasTable]

/-- Settles O41. -/
theorem invariantsHoldAtReset : Obligations.InvariantsHoldAtReset :=
  have hrun (cfg : Config) (hcfg : cfg.wf) : (State.resetWith cfg).RunInv :=
    ⟨State.inv_resetWith cfg, hcfg, State.phaseFacts_resetWith cfg⟩
  ⟨State.inv_resetWith, hrun, hrun Config.default (by decide)⟩

end Sys2Proof.Machine

/-! ## What a command leaves alone -/

namespace Sys2Proof.Machine

variable {i : Instr} {s t : State}

/-- No command reads or writes the inputs still waiting (log 2). -/
theorem exec_input (h : exec i s = .next t) : t.input = s.input := by
  cases exec_effect h <;> subst t <;> simp

/-- No command writes the parameters (log 1). -/
theorem exec_cfg (h : exec i s = .next t) : t.cfg = s.cfg := by
  cases exec_effect h <;> subst t <;> simp

/-- Settles O8: a command leaves the inputs behind its own word as they are. -/
theorem stepConsumesOneInput : Obligations.StepConsumesOneInput := by
  intro s t h
  rcases step_cases h with ⟨hin, rfl⟩ | ⟨rest, hin, rfl⟩ | ⟨w, rest, i, hin, -, hexec⟩ | ⟨w, rest, e, hin, -, rfl⟩
  · simp [hin]
  · simp [hin]
  · simp [exec_input hexec, exec_cfg hexec, hin]
  · split <;> simp [hin]

/-- Settles O10: each outcome of a command names the phase it came from and the phase it leaves. -/
theorem phaseTransitions : Obligations.PhaseTransitions := by
  intro i s t h
  cases exec_effect h with
  | same ht => simp [ht]
  | clear hi ht => simp [hi, ht]
  | err _ code _ ht => simp [ht]
  | name d m _ _ _ _ ht => simp [ht]
  | cnt d _ _ _ ht => simp [ht]
  | eop hi hp ht => simp [hi, hp, ht]
  | build b hi hp _ _ ht => simp [hi, hp, ht]
  | walk c hi hp _ ht => simp [hi, hp, ht]
  | hdr bytes hi hp _ ht => simp [hi, hp, ht]
  | enc d p _ _ _ _ _ ht => simp [ht]
  | fin p hi hp _ _ _ ht => simp [hi, hp, ht]

/-- Settles O39: an outcome that writes a register is the effect of the command that is listed for it. -/
theorem registersWrittenOnlyByTheirCommands : Obligations.RegistersWrittenOnlyByTheirCommands := by
  intro i s t h
  refine ⟨exec_cfg h, exec_input h, fun hclr => ?_⟩
  cases exec_effect h with
  | same ht => simp [ht]
  | clear hi _ => exact absurd hi hclr
  | err _ code _ ht => simp [ht]
  | name d m hi _ _ _ ht => simp [hi, ht]
  | cnt d hi _ _ ht => simp [hi, ht]
  | eop hi _ ht => simp [hi, ht]
  | build b hi _ _ _ ht => simp [hi, ht]
  | walk c _ _ _ ht => simp [ht]
  | hdr bytes _ _ _ ht => simp [ht]
  | enc d p hi _ _ _ _ ht => simp [hi, ht]
  | fin p hi _ _ _ _ ht => simp [hi, ht]

end Sys2Proof.Machine

/-! ## The word of a command, and the output stream -/

namespace Sys2Proof

/-- A word is its opcode, its reserved bits and its low byte (30_encoding.md R81, R82). -/
theorem opField_append_rsvField_append_lowField (w : Word) : opField w ++ rsvField w ++ lowField w = w := by
  have hhigh : opField w ++ rsvField w = w.extractLsb' 8 8 := BitVec.extractLsb'_append_extractLsb'_eq_extractLsb' rfl
  have hall : w.extractLsb' 8 8 ++ lowField w = w.extractLsb' 0 16 :=
    BitVec.extractLsb'_append_extractLsb'_eq_extractLsb' rfl
  rw [hhigh, hall, BitVec.extractLsb'_eq_self]

theorem decodeZ_eq_ok {i j : Instr} {d : Byte} : decodeZ i d = .ok j ↔ d = 0#8 ∧ i = j := by
  unfold decodeZ
  split <;> simp [*]

/-- The command an opcode selects has that opcode and the low byte as its operand. -/
theorem decodeOp_eq_ok {op : BitVec 4} {d : Byte} {i : Instr} (h : decodeOp op d = .ok i) :
    opcodeOf i = op ∧ operandOf i = d := by
  unfold decodeOp at h
  split at h
  case h_3 hop | h_4 hop | h_9 hop =>
    cases h
    exact ⟨(BitVec.eq_of_toNat_eq hop).symm, rfl⟩
  case h_11 => cases h
  all_goals
    rename_i hop
    obtain ⟨rfl, rfl⟩ := decodeZ_eq_ok.mp h
    exact ⟨(BitVec.eq_of_toNat_eq hop).symm, rfl⟩

/-- Every legal word is the encoding of the command it decodes to (30_encoding.md R86). -/
theorem encode_of_decode {w : Word} {i : Instr} (h : decode w = .ok i) : encode i = w := by
  unfold decode at h
  split at h
  · cases h
  · rename_i hrsv
    obtain ⟨hop, hlow⟩ := decodeOp_eq_ok h
    rw [encode, hop, hlow, ← not_not.mp hrsv, opField_append_rsvField_append_lowField]

end Sys2Proof

namespace Sys2Proof.Machine

/-- Every command but `CLR` only appends to `OUT` (10_state.md R37). -/
theorem exec_out_prefix {i : Instr} {s t : State} (hclr : i ≠ .clr) (h : exec i s = .next t) : s.out <+: t.out := by
  cases exec_effect h with
  | clear hi _ => exact absurd hi hclr
  | hdr bytes _ _ _ ht => exact ht ▸ List.prefix_append _ _
  | enc d p _ _ _ _ ha ht => exact ht ▸ appendCode_out_prefix ha
  | fin p _ _ _ _ ha ht => exact ht ▸ (appendCode_out_prefix ha).trans (padLast_out_prefix p)
  | same ht => rw [ht]
  | err _ code _ ht => simp [ht]
  | name d m _ _ _ _ ht => simp [ht]
  | cnt d _ _ _ ht => simp [ht]
  | eop _ _ ht => simp [ht]
  | build b _ _ _ _ ht => simp [ht]
  | walk c _ _ _ ht => simp [ht]

/-- Settles O40: the word `0x1000` is the only one that decodes to `CLR`. -/
theorem outputOnlyGrows : Obligations.OutputOnlyGrows := by
  intro s t h hreset hclr
  rcases step_cases h with ⟨-, rfl⟩ | ⟨rest, hin, -⟩ | ⟨w, rest, i, hin, hdec, hexec⟩ | ⟨w, rest, e, -, -, rfl⟩
  · exact List.prefix_rfl
  · exact absurd hin (hreset rest)
  · have hne : i ≠ .clr := by
      rintro rfl
      have hw : 0x1000#16 = w := encode_of_decode hdec
      exact hclr rest (hw ▸ hin)
    exact exec_out_prefix (s := s.withInput rest) hne hexec
  · split <;> simp

end Sys2Proof.Machine

/-! ## The reset values and the `STATUS` view -/

namespace Sys2Proof.Machine

/-- What `CLR` leaves, in any phase (45_control.md R161). -/
theorem exec_clr (s : State) : exec .clr s = .next s.cleared := rfl

/-- A read of an index in range of a memory with nothing listed. -/
theorem memRead_nil {α : Type} {name : MemName} {size i : Nat} (h : i < size) :
    memRead name size ([] : Memory α) i = .error (.unwritten name i) := by
  simp [memRead, h]

theorem State.status_withInput_resetWith (c : Config) (q : List HostInput) :
    ((State.resetWith c).withInput q).status = 0#32 := by
  change 0#16 ++ 0#8 ++ ErrCode.noError.code ++ 0#1 ++ Phase.load.code = 0#32
  decide

/-- Settles O7: both states are the reset state of some parameters, the waiting inputs apart. -/
theorem resetValues : Obligations.ResetValues := by
  intro cfg r h
  obtain ⟨c, q, rfl⟩ : ∃ c q, r = (State.resetWith c).withInput q := by
    rcases h with rfl | ⟨s, hs⟩
    · exact ⟨cfg, [], rfl⟩
    · rw [exec_clr, s.cleared_eq_reset] at hs
      cases hs
      exact ⟨s.cfg, s.input, rfl⟩
  exact ⟨rfl, rfl, rfl, State.status_withInput_resetWith c q, rfl, rfl, rfl, rfl, rfl, rfl, rfl, rfl, rfl,
    fun _ => rfl, fun _ => rfl, fun i hi => memRead_nil (Nat.lt_succ_of_le hi), fun _ => rfl, fun i hi => memRead_nil hi⟩

variable (s : State)

theorem State.status_phase : s.status.extractLsb' 0 3 = s.phase.code := BitVec.extractLsb'_append_eq_right

theorem State.status_bit3 : s.status.extractLsb' 3 1 = 0#1 := by
  rw [State.status, BitVec.extractLsb'_append_eq_of_le (by decide)]
  exact BitVec.extractLsb'_append_eq_right

theorem State.status_err : s.status.extractLsb' 4 4 = s.err.code := by
  rw [State.status, BitVec.extractLsb'_append_eq_of_le (by decide), BitVec.extractLsb'_append_eq_of_le (by decide)]
  exact BitVec.extractLsb'_append_eq_right

theorem State.status_byte1 : s.status.extractLsb' 8 8 = 0#8 := by
  rw [State.status, BitVec.extractLsb'_append_eq_of_le (by decide), BitVec.extractLsb'_append_eq_of_le (by decide),
    BitVec.extractLsb'_append_eq_of_le (by decide)]
  exact BitVec.extractLsb'_append_eq_right

theorem State.status_errw : s.status.extractLsb' 16 16 = s.errw := by
  rw [State.status, BitVec.extractLsb'_append_eq_of_le (by decide), BitVec.extractLsb'_append_eq_of_le (by decide),
    BitVec.extractLsb'_append_eq_of_le (by decide)]
  exact BitVec.extractLsb'_append_eq_left

/-- Settles O15: the fields one by one, then the numbers of `PHASE` and `ERR`. -/
theorem statusLayout : Obligations.StatusLayout := by
  intro s
  refine ⟨?phase, s.status_bit3, ?err, s.status_byte1, s.status_errw, ?done, ?error⟩
  case phase => rw [s.status_phase]; cases s.phase <;> rfl
  case err => rw [s.status_err]; cases s.err <;> rfl
  case done => simp [State.doneLine]
  case error => simp [State.errorLine]

end Sys2Proof.Machine

/-! # The memories: no step of a run meets a fault, and who writes what (20_memory.md) -/

/-! ## Slots of `TABLE`: what they hold, and reads and writes that complete -/

namespace Sys2Proof.Machine

variable {t t' : Memory TableEntry} {P Q : TableEntry → Prop}

/-- Slot `j` holds an entry with property `P`. -/
def SlotHolds (P : TableEntry → Prop) (t : Memory TableEntry) (j : Nat) : Prop := ∃ e, memFind t j = some e ∧ P e

theorem SlotHolds.mono {j : Nat} (h : SlotHolds P t j) (hPQ : ∀ e, P e → Q e) : SlotHolds Q t j := by
  obtain ⟨e, he, hPe⟩ := h
  exact ⟨e, he, hPQ e hPe⟩

theorem SlotHolds.of_eq {i j : Nat} (h : SlotHolds P t j) (heq : memFind t' i = memFind t j) : SlotHolds P t' i := by
  obtain ⟨e, he, hPe⟩ := h
  exact ⟨e, heq.trans he, hPe⟩

theorem SlotHolds.put {a j : Nat} {v : TableEntry} (hv : j = a → P v) (h : j ≠ a → SlotHolds P t j) :
    SlotHolds P (memPut t a v) j := by
  by_cases hj : j = a
  · exact ⟨v, hj ▸ memFind_put_self t a v, hv hj⟩
  · exact (h hj).of_eq (memFind_put_ne t v hj)

theorem SlotHolds.of_memFind {j : Nat} {e : TableEntry} (h : SlotHolds P t j) (he : memFind t j = some e) : P e := by
  obtain ⟨e', he', hP⟩ := h
  exact Option.some.inj (he.symm.trans he') ▸ hP

theorem SlotHolds.isSome {j : Nat} (h : SlotHolds P t j) : (memFind t j).isSome := by
  obtain ⟨e, he, -⟩ := h
  simp [he]

theorem slotsWritten_put {n : Nat} (hw : slotsWritten t n) (a : Nat) (v : TableEntry) : slotsWritten (memPut t a v) n := by
  intro j hj
  rw [memFind_put]
  split
  · rfl
  · exact hw j hj

theorem exists_readTable {n i : Nat} (hn : n ≤ tableSlots) (hw : slotsWritten t n) (hi : i < n) :
    ∃ e, readTable t i = .ok e := by
  obtain ⟨e, he⟩ := Option.isSome_iff_exists.mp (hw i hi)
  exact ⟨e, readTable_eq_ok.mpr ⟨hi.trans_le hn, he⟩⟩

theorem writeTable_of_lt {i : Nat} (hi : i < tableSlots) (t : Memory TableEntry) (e : TableEntry) :
    writeTable t i e = .ok (memPut t i e) := writeTable_eq_ok.mpr ⟨hi, rfl⟩

theorem moveSlot_of_found {dst src : Nat} {x : TableEntry} (hd : dst < tableSlots) (hs : src < tableSlots)
    (hx : memFind t src = some x) : moveSlot t dst src = .ok (memPut t dst x) :=
  moveSlot_eq_ok.mpr ⟨x, readTable_eq_ok.mpr ⟨hs, hx⟩, writeTable_of_lt hd t x⟩

theorem mergeInto0_of_found {a b : Nat} {x y : TableEntry} (ha : a < tableSlots) (hb : b < tableSlots)
    (hx : memFind t a = some x) (hy : memFind t b = some y) (l r : Nat) :
    mergeInto0 t a b l r = .ok (memPut t 0 (mergeNode (x.freq + y.freq) l r)) :=
  mergeInto0_eq_ok.mpr ⟨x, y, readTable_eq_ok.mpr ⟨ha, hx⟩, readTable_eq_ok.mpr ⟨hb, hy⟩,
    writeTable_of_lt (by decide) t _⟩

/-- Written slots in range read back as a list, in order. -/
theorem readSlots_completes {i n : Nat} (hn : i + n ≤ tableSlots) (hw : ∀ j < n, (memFind t (i + j)).isSome) :
    ∃ xs, readSlots t i n = .ok xs ∧ xs.length = n ∧ ∀ j < n, memFind t (i + j) = xs[j]? := by
  induction n generalizing i with
  | zero => exact ⟨[], rfl, rfl, fun j hj => absurd hj (Nat.not_lt_zero j)⟩
  | succ n ih =>
    obtain ⟨x, hx⟩ := Option.isSome_iff_exists.mp (hw 0 (Nat.succ_pos n))
    have hread : readTable t i = .ok x := readTable_eq_ok.mpr ⟨by omega, hx⟩
    obtain ⟨xs, hxs, hlen, hget⟩ := ih (i := i + 1) (by omega) fun j hj => by
      rw [Nat.add_assoc, Nat.add_comm 1 j]
      exact hw (j + 1) (Nat.succ_lt_succ hj)
    refine ⟨x :: xs, by simp [readSlots, hread, hxs], by simp [hlen], fun j hj => ?_⟩
    cases j with
    | zero => exact hx
    | succ j =>
      rw [Nat.add_comm j 1, ← Nat.add_assoc, hget j (Nat.lt_of_succ_lt_succ hj), Nat.add_comm 1 j, List.getElem?_cons_succ]

theorem writeSlots_completes {xs : List TableEntry} {i : Nat} (h : i + xs.length ≤ tableSlots) (t : Memory TableEntry) :
    ∃ t', writeSlots t i xs = .ok t' ∧
      ∀ j, memFind t' j = if i ≤ j ∧ j < i + xs.length then xs[j - i]? else memFind t j := by
  induction xs generalizing i t with
  | nil => exact ⟨t, rfl, fun j => (if_neg (by simp)).symm⟩
  | cons x xs ih =>
    rw [List.length_cons] at h
    have hwrite : writeTable t i x = .ok (memPut t i x) := writeTable_of_lt (by omega) t x
    obtain ⟨t', ht', hget⟩ := ih (i := i + 1) (by omega) (memPut t i x)
    refine ⟨t', by simp [writeSlots, hwrite, ht'], fun j => ?_⟩
    rw [hget j, memFind_put, List.length_cons]
    rcases Nat.lt_trichotomy j i with hj | rfl | hj
    · rw [if_neg (by omega), if_neg (by omega), if_neg (by omega)]
    · simp
    · obtain ⟨d, rfl⟩ := Nat.exists_eq_add_of_lt hj
      simp only [show i + d + 1 - (i + 1) = d by omega, show i + d + 1 - i = d + 1 by omega, List.getElem?_cons_succ,
        show i + d + 1 ≠ i by omega, if_false]
      congr 1
      simp only [eq_iff_iff]
      omega

end Sys2Proof.Machine

/-! ## The heap: `REHEAP` completes and only permutes the slots of the heap -/

namespace Sys2Proof.Machine

variable {t t' t'' : Memory TableEntry} {n : Nat}

/-- The table `t'` is `t` with the entries of slots 0 .. n − 1 permuted and every other slot as it was. -/
def SlotsPermuted (n : Nat) (t t' : Memory TableEntry) : Prop :=
  ∃ σ : Equiv.Perm Nat, (∀ j, n ≤ j → σ j = j) ∧ ∀ j, memFind t' j = memFind t (σ j)

theorem SlotsPermuted.refl (n : Nat) (t : Memory TableEntry) : SlotsPermuted n t t :=
  ⟨Equiv.refl Nat, fun _ _ => rfl, fun _ => rfl⟩

theorem SlotsPermuted.trans (h : SlotsPermuted n t t') (h' : SlotsPermuted n t' t'') : SlotsPermuted n t t'' := by
  obtain ⟨σ, hσ, hget⟩ := h
  obtain ⟨τ, hτ, hget'⟩ := h'
  refine ⟨σ * τ, fun j hj => ?_, fun j => (hget' j).trans (hget _)⟩
  rw [Equiv.Perm.mul_apply, hτ j hj, hσ j hj]

theorem SlotsPermuted.outside (h : SlotsPermuted n t t') {j : Nat} (hj : n ≤ j) : memFind t' j = memFind t j := by
  obtain ⟨σ, hσ, hget⟩ := h
  rw [hget, hσ j hj]

theorem SlotsPermuted.exists_source (h : SlotsPermuted n t t') {j : Nat} (hj : j < n) :
    ∃ i < n, memFind t' j = memFind t i := by
  obtain ⟨σ, hσ, hget⟩ := h
  refine ⟨σ j, not_le.mp fun hle => ?_, hget j⟩
  have hfix : σ j = j := σ.injective (hσ _ hle)
  omega

theorem SlotsPermuted.slotsWritten (h : SlotsPermuted n t t') (hw : slotsWritten t n) : slotsWritten t' n := by
  intro j hj
  obtain ⟨i, hi, heq⟩ := h.exists_source hj
  exact heq ▸ hw i hi

theorem SlotsPermuted.slotHolds {P : TableEntry → Prop} (h : SlotsPermuted n t t') (hP : ∀ i < n, SlotHolds P t i) {j : Nat}
    (hj : j < n) : SlotHolds P t' j := by
  obtain ⟨i, hi, heq⟩ := h.exists_source hj
  exact (hP i hi).of_eq heq

theorem swapSlots_completes {i j : Nat} (hn : n ≤ tableSlots) (hw : slotsWritten t n) (hi : i < n) (hj : j < n) :
    ∃ t', swapSlots t i j = .ok t' ∧ SlotsPermuted n t t' := by
  obtain ⟨x, hx⟩ := exists_readTable hn hw hi
  obtain ⟨y, hy⟩ := exists_readTable hn hw hj
  refine ⟨memPut (memPut t i y) j x, swapSlots_eq_ok.mpr ⟨x, y, memPut t i y, hx, hy, writeTable_of_lt (hi.trans_le hn) _ _,
    writeTable_of_lt (hj.trans_le hn) _ _⟩, Equiv.swap i j, fun k hk => Equiv.swap_apply_of_ne_of_ne (by omega) (by omega),
    fun k => ?_⟩
  rw [memFind_put, memFind_put, Equiv.swap_apply_def]
  obtain ⟨-, hfx⟩ := readTable_eq_ok.mp hx
  obtain ⟨-, hfy⟩ := readTable_eq_ok.mp hy
  split_ifs with hkj hki hki
  · rw [← hfx, ← hki, hkj]
  · exact hfx.symm
  · exact hfy.symm
  · rfl

theorem pickSmaller_completes {c s : Nat} (hn : n ≤ tableSlots) (hw : slotsWritten t n) (hs : s < n) :
    ∃ m < n, pickSmaller t n c s = .ok m := by
  by_cases hc : c < n
  · obtain ⟨x, hx⟩ := exists_readTable hn hw hc
    obtain ⟨y, hy⟩ := exists_readTable hn hw hs
    exact ⟨_, by split <;> assumption, pickSmaller_eq_ok.mpr (.inr ⟨hc, x, y, hx, hy, rfl⟩)⟩
  · exact ⟨s, hs, pickSmaller_eq_ok.mpr (.inl ⟨not_lt.mp hc, rfl⟩)⟩

theorem siftTarget_completes {i : Nat} (hn : n ≤ tableSlots) (hw : slotsWritten t n) (hi : i < n) :
    ∃ s < n, siftTarget t i n = .ok s := by
  obtain ⟨m, hm, hleft⟩ := pickSmaller_completes (c := 2 * i + 1) hn hw hi
  obtain ⟨s, hs, hright⟩ := pickSmaller_completes (c := 2 * i + 2) hn hw hm
  exact ⟨s, hs, by simp [siftTarget, hleft, hright]⟩

theorem siftLoop_completes (hn : n ≤ tableSlots) {turns i : Nat} (hw : slotsWritten t n) (hi : i < n) :
    ∃ t', siftLoop turns i n t = .ok t' ∧ SlotsPermuted n t t' := by
  induction turns generalizing i t with
  | zero => exact ⟨t, rfl, .refl n t⟩
  | succ turns ih =>
    obtain ⟨s, hs, htarget⟩ := siftTarget_completes hn hw hi
    by_cases hsi : s = i
    · exact ⟨t, by simp [siftLoop, htarget, hsi], .refl n t⟩
    · obtain ⟨t1, hswap, hperm⟩ := swapSlots_completes hn hw hi hs
      obtain ⟨t2, hrest, hperm'⟩ := ih (hperm.slotsWritten hw) hs
      exact ⟨t2, by simp [siftLoop, htarget, hsi, hswap, hrest], hperm.trans hperm'⟩

theorem reheapFrom_completes (hn : n ≤ tableSlots) {c : Nat} (hw : slotsWritten t n) (hc : c ≤ n) :
    ∃ t', reheapFrom c n t = .ok t' ∧ SlotsPermuted n t t' := by
  induction c generalizing t with
  | zero => exact ⟨t, rfl, .refl n t⟩
  | succ c ih =>
    obtain ⟨t1, hsift, hperm⟩ := siftLoop_completes (turns := n) hn hw hc
    obtain ⟨t2, hrest, hperm'⟩ := ih (hperm.slotsWritten hw) (Nat.le_of_succ_le hc)
    exact ⟨t2, by simp [reheapFrom, siftDown, hsift, hrest], hperm.trans hperm'⟩

/-- `REHEAP(n)` of written slots completes and permutes them (41_table_builder.md R116). -/
theorem reheap_completes (hn : n ≤ tableSlots) (hw : slotsWritten t n) :
    ∃ t', reheap n t = .ok t' ∧ SlotsPermuted n t t' := reheapFrom_completes hn hw (Nat.div_le_self n 2)

end Sys2Proof.Machine

/-! ## The leaves: `MATERIALIZE` and `SORT` complete -/

namespace Sys2Proof.Machine

/-- The leaves of the present symbols, symbols ascending (41_table_builder.md R111). -/
def presentLeaves (f : Memory Nat) : List TableEntry :=
  ((List.range nsym).filter fun s => 0 < countAt f s).map fun s => leaf s (countAt f s)

theorem presentLeaves_length (f : Memory Nat) : (presentLeaves f).length = presentCount f := List.length_map _

theorem isLeafEntry_of_mem_presentLeaves {f : Memory Nat} {e : TableEntry} (h : e ∈ presentLeaves f) : isLeafEntry e := by
  obtain ⟨s, hs, rfl⟩ := List.mem_map.mp h
  have hlt : s < 257 := List.mem_range.mp (List.mem_filter.mp hs).1
  refine ⟨rfl, rfl, Int.natCast_nonneg s, ?_⟩
  change (s : Int) ≤ 256
  omega

theorem materializeFrom_eq_writeSlots (f : Memory Nat) (ss : List Nat) (j : Nat) (t : Memory TableEntry) :
    materializeFrom f ss j t =
      writeSlots t j ((ss.filter fun s => 0 < countAt f s).map fun s => leaf s (countAt f s)) := by
  induction ss generalizing j t with
  | nil => rfl
  | cons s ss ih =>
    by_cases hs : 0 < countAt f s
    · simp only [materializeFrom, hs, if_true, decide_true, List.filter_cons_of_pos, List.map_cons, writeSlots]
      cases writeTable t j (leaf s (countAt f s)) with
      | ok t1 => exact ih (j + 1) t1
      | error e => rfl
    · simp [materializeFrom, hs, ih]

/-- `MATERIALIZE` writes the leaves of the present symbols from slot 0 on (R111). -/
theorem materialize_eq_writeSlots (f : Memory Nat) (t : Memory TableEntry) :
    materialize f t = writeSlots t 0 (presentLeaves f) := materializeFrom_eq_writeSlots f _ 0 t

/-- A list written from slot 0 on puts one of its entries into each slot it fills. -/
theorem writeSlots_zero_slotHolds {P : TableEntry → Prop} {xs : List TableEntry} (hlen : xs.length ≤ tableSlots)
    (hP : ∀ x ∈ xs, P x) (t : Memory TableEntry) :
    ∃ t', writeSlots t 0 xs = .ok t' ∧ ∀ j < xs.length, SlotHolds P t' j := by
  obtain ⟨t', ht', hget⟩ := writeSlots_completes (i := 0) ((Nat.zero_add _).trans_le hlen) t
  refine ⟨t', ht', fun j hj => ⟨xs[j], ?_, hP _ (List.getElem_mem hj)⟩⟩
  rw [hget j, if_pos (by omega), Nat.sub_zero, List.getElem?_eq_getElem hj]

/-- `SORT` completes, and what every one of the `k` slots held, every one of them still holds (R112). -/
theorem sortLeaves_completes {P : TableEntry → Prop} {k : Nat} {t : Memory TableEntry} (hk : k ≤ tableSlots)
    (h : ∀ j < k, SlotHolds P t j) : ∃ t', sortLeaves k t = .ok t' ∧ ∀ j < k, SlotHolds P t' j := by
  obtain ⟨xs, hread, hlen, hget⟩ := readSlots_completes (t := t) (i := 0) (n := k) (by omega) fun j hj => by
    rw [Nat.zero_add]; exact (h j hj).isSome
  have hxs : ∀ x ∈ xs.insertionSort leafLe, P x := by
    intro x hx
    obtain ⟨j, hj, rfl⟩ := List.mem_iff_getElem.mp ((List.perm_insertionSort leafLe xs).mem_iff.mp hx)
    have hfound := hget j (hlen ▸ hj)
    rw [Nat.zero_add, List.getElem?_eq_getElem hj] at hfound
    exact (h j (hlen ▸ hj)).of_memFind hfound
  have hlen' : (xs.insertionSort leafLe).length = k := (List.length_insertionSort leafLe xs).trans hlen
  obtain ⟨t', hwrite, hholds⟩ := writeSlots_zero_slotHolds (hlen'.trans_le hk) hxs t
  exact ⟨t', by simp [sortLeaves, hread, hwrite], fun j hj => hholds j (hlen'.symm ▸ hj)⟩

end Sys2Proof.Machine

/-! ## The merges: `BUILD` completes and leaves a finite tree -/

namespace Sys2Proof.Machine

/-- Everything `MERGE_ITER` does, step by step, when the heap is written and the cursors are in range: `y` is the entry of the
marked slot `m`, `z` the last of the heap, `x` the root after step c (41_table_builder.md R114). -/
theorem mergeIter_completes {b : Builder} (hend : 2 ≤ b.heapEnd) (hlt : b.heapEnd < b.firstFree) (hfree : b.firstFree ≤ 512)
    (hw : slotsWritten b.table (b.heapEnd + 1)) :
    ∃ m x y z td tg, (m = 1 ∨ m = 2) ∧ memFind b.table m = some y ∧ memFind b.table b.heapEnd = some z ∧
      SlotsPermuted b.heapEnd (memPut (memPut b.table b.firstFree y) m z) td ∧ memFind td 0 = some x ∧
      SlotsPermuted b.heapEnd
        (memPut (memPut td b.heapEnd x) 0 (mergeNode (x.freq + y.freq) b.heapEnd b.firstFree)) tg ∧
      mergeIter b = .ok { table := tg, heapEnd := b.heapEnd - 1, firstFree := b.firstFree + 1 } := by
  have hendSize : b.heapEnd < tableSlots := by simp only [tableSlots]; omega
  have hfreeSize : b.firstFree < tableSlots := Nat.lt_succ_of_le hfree
  obtain ⟨e1, he1⟩ := exists_readTable hendSize hw (i := 1) (by omega)
  obtain ⟨e2, he2⟩ := exists_readTable hendSize hw (i := 2) (by omega)
  obtain ⟨m, hm, hmark⟩ : ∃ m, (m = 1 ∨ m = 2) ∧ markedSlot b.table = .ok m :=
    ⟨_, ite_eq_or_eq _ _ _, markedSlot_eq_ok.mpr ⟨e1, e2, he1, he2, rfl⟩⟩
  have hmEnd : m ≤ b.heapEnd := by omega
  have hmSize : m < tableSlots := hmEnd.trans_lt hendSize
  obtain ⟨y, hy⟩ := Option.isSome_iff_exists.mp (hw m (Nat.lt_succ_of_le hmEnd))
  obtain ⟨z, hz⟩ := Option.isSome_iff_exists.mp (hw b.heapEnd (Nat.lt_succ_self _))
  have hb := moveSlot_of_found hfreeSize hmSize hy
  have hc := moveSlot_of_found (t := memPut b.table b.firstFree y) hmSize hendSize
    ((memFind_put_ne _ _ hlt.ne).trans hz)
  have hwc := slotsWritten_put (slotsWritten_put (fun j hj => hw j (Nat.lt_succ_of_lt hj)) b.firstFree y) m z
  obtain ⟨td, hd, hpermd⟩ := reheap_completes hendSize.le hwc
  have hwd : slotsWritten td b.heapEnd := hpermd.slotsWritten hwc
  obtain ⟨x, hx⟩ := Option.isSome_iff_exists.mp (hwd 0 (by omega))
  have he := moveSlot_of_found hendSize (by decide) hx
  have hyd : memFind (memPut td b.heapEnd x) b.firstFree = some y := by
    rw [memFind_put_ne _ _ hlt.ne', hpermd.outside hlt.le, memFind_put_ne _ _ (hmEnd.trans_lt hlt).ne', memFind_put_self]
  have hf := mergeInto0_of_found hendSize hfreeSize (memFind_put_self td b.heapEnd x) hyd b.heapEnd b.firstFree
  have hwf := slotsWritten_put (slotsWritten_put hwd b.heapEnd x) 0 (mergeNode (x.freq + y.freq) b.heapEnd b.firstFree)
  obtain ⟨tg, hg, hpermg⟩ := reheap_completes hendSize.le hwf
  exact ⟨m, x, y, z, td, tg, hm, hy, hz, hpermd, hx, hpermg,
    mergeIter_eq_ok.mpr ⟨m, _, _, td, _, _, tg, hmark, hb, hc, hd, he, hf, hg, rfl⟩⟩

/-- A leaf, or a merge node made by one of the first `r` merges of a table of `k` leaves. -/
def EarlierEntry (k r : Nat) (e : TableEntry) : Prop := isLeafEntry e ∨ ∃ q < r, isMergeEntry k q e

theorem EarlierEntry.mono {k r r' : Nat} {e : TableEntry} (h : EarlierEntry k r e) (hr : r ≤ r') : EarlierEntry k r' e :=
  h.imp_right fun ⟨q, hq, he⟩ => ⟨q, hq.trans_le hr, he⟩

theorem isMergeEntry_mergeNode {k r left right : Nat} (hl : left = k - 1 - r) (hr : right = k + r) (f : Nat) :
    isMergeEntry k r (mergeNode f left right) := ⟨rfl, congrArg Int.ofNat hl, congrArg Int.ofNat hr⟩

/-- The lower of the two slots merge `r` parks its entries in. -/
theorem slotRank_left {k r : Nat} (hr : r < k) : slotRank k (k - 1 - r) = r := by
  unfold slotRank
  rw [if_pos (by omega)]
  omega

/-- The upper of the two. -/
theorem slotRank_right (k r : Nat) : slotRank k (k + r) = r := by simp [slotRank]

theorem mergesBelow_root (k : Nat) : mergesBelow k 0 = k - 1 := rfl

theorem mergesBelow_of_ne {k j : Nat} (hj : j ≠ 0) : mergesBelow k j = slotRank k j := if_neg hj

theorem mergesBelow_le {k j : Nat} (hj : j < 2 * k - 1) : mergesBelow k j ≤ k - 1 := by
  unfold mergesBelow slotRank
  split_ifs <;> omega

theorem any_decide_iff_slotHolds {P : TableEntry → Prop} [DecidablePred P] {t : Memory TableEntry} {j : Nat} :
    (memFind t j).any (fun e => decide (P e)) = true ↔ SlotHolds P t j := by
  simp [SlotHolds, Option.any_eq_true]

/-- `slotOrdered` as a property of the entry the slot holds. -/
theorem slotOrdered_iff {t : Memory TableEntry} {k j : Nat} :
    slotOrdered t k j ↔ SlotHolds (EarlierEntry k (mergesBelow k j)) t j := any_decide_iff_slotHolds

/-- A table of `k` leaves after `r` merges (41_table_builder.md R113, R114): the heap and the two runs of slots parked around it
hold leaves and earlier merges. -/
structure Merging (k r : Nat) (b : Builder) : Prop where
  heapEnd_eq : b.heapEnd = k - 1 - r
  firstFree_eq : b.firstFree = k + r
  heap : ∀ j ≤ b.heapEnd, SlotHolds (EarlierEntry k r) b.table j
  parked : ∀ j, b.heapEnd < j → j < b.firstFree → SlotHolds (EarlierEntry k (slotRank k j)) b.table j

/-- One `MERGE_ITER` parks two entries of the heap in the slots of merge `r` and puts their merge node into the heap. -/
theorem Merging.mergeIter {k r : Nat} {b : Builder} (h : Merging k r b) (hk : k ≤ nsym) (hr : r < k - 2) :
    ∃ b', Machine.mergeIter b = .ok b' ∧ Merging k (r + 1) b' := by
  obtain ⟨hend, hfree, hheap, hparked⟩ := h
  have hk' : k ≤ 257 := hk
  obtain ⟨m, x, y, z, td, tg, hm, hy, hz, hpermd, hx, hpermg, hiter⟩ :=
    mergeIter_completes (b := b) (by omega) (by omega) (by omega) fun j hj => (hheap j (Nat.le_of_lt_succ hj)).isSome
  have hyE : EarlierEntry k r y := (hheap m (by omega)).of_memFind hy
  have hzE : EarlierEntry k r z := (hheap _ le_rfl).of_memFind hz
  have hheapd {j : Nat} (hj : j < b.heapEnd) : SlotHolds (EarlierEntry k r) td j :=
    hpermd.slotHolds (fun i hi => .put (fun _ => hzE) fun _ => .put (fun _ => hyE) fun _ => hheap i hi.le) hj
  have hxE : EarlierEntry k r x := (hheapd (j := 0) (by omega)).of_memFind hx
  refine ⟨_, hiter, by simp only; omega, by simp only; omega, fun j hj => ?heap, fun j hlo hhi => ?parked⟩
  case heap =>
    refine hpermg.slotHolds (fun i hi => .put (fun _ => ?_) fun _ => .put (fun hie => absurd hie hi.ne) fun _ => ?_)
      (show j < b.heapEnd by simp only at hj; omega)
    · exact .inr ⟨r, Nat.lt_succ_self r, isMergeEntry_mergeNode hend hfree _⟩
    · exact (hheapd hi).mono fun e he => he.mono (Nat.le_succ r)
  case parked =>
    simp only at hlo hhi
    refine SlotHolds.of_eq (.put (fun _ => by omega) fun _ => .put (fun hj => ?_) fun hj => ?_)
      (hpermg.outside (by omega))
    · rwa [hj, hend, slotRank_left (by omega)]
    · refine SlotHolds.of_eq (.put (fun _ => by omega) fun _ => .put (fun hj' => ?_) fun hj' => ?_)
        (hpermd.outside (by omega))
      · rwa [hj', hfree, slotRank_right]
      · exact hparked j (by omega) (by omega)

theorem Merging.mergeLoop {k r n : Nat} {b : Builder} (h : Merging k r b) (hk : k ≤ nsym) (hn : r + n ≤ k - 2) :
    ∃ b', Machine.mergeLoop n b = .ok b' ∧ Merging k (r + n) b' := by
  induction n generalizing r b with
  | zero => exact ⟨b, rfl, h⟩
  | succ n ih =>
    obtain ⟨b1, hb1, h1⟩ := h.mergeIter hk (by omega)
    obtain ⟨b2, hb2, h2⟩ := ih h1 (by omega)
    exact ⟨b2, by simp [Machine.mergeLoop, hb1, hb2], by rwa [Nat.add_assoc, Nat.add_comm 1 n] at h2⟩

/-- `FINAL_MERGE` parks the last entry of the heap and leaves the root (41_table_builder.md R117). -/
theorem Merging.finalMerge {k : Nat} {b : Builder} (h : Merging k (k - 2) b) (hk2 : 2 ≤ k) (hk : k ≤ nsym) :
    ∃ b', Machine.finalMerge b = .ok b' ∧ tableOrdered b'.table k := by
  obtain ⟨hend, hfree, hheap, hparked⟩ := h
  have hk' : k ≤ 257 := hk
  have hfreeSize : b.firstFree < tableSlots := by simp only [tableSlots]; omega
  obtain ⟨x, hx, hxE⟩ := hheap 0 (Nat.zero_le _)
  obtain ⟨y, hy, hyE⟩ := hheap 1 (by omega)
  have hmove := moveSlot_of_found hfreeSize (by decide) hx
  have hy' : memFind (memPut b.table b.firstFree x) 1 = some y := (memFind_put_ne _ _ (by omega)).trans hy
  have hroot := mergeInto0_of_found (by decide) hfreeSize hy' (memFind_put_self _ _ x) 1 b.firstFree
  have hmerge := isMergeEntry_mergeNode (k := k) (r := k - 2) (left := 1) (by omega) hfree (y.freq + x.freq)
  refine ⟨_, finalMerge_eq_ok.mpr ⟨_, _, hmove, hroot, rfl⟩, fun j hj => slotOrdered_iff.mpr ?slots,
    any_decide_iff_slotHolds.mpr ?root⟩
  case root => exact .put (fun _ => hmerge) fun h0 => absurd rfl h0
  case slots =>
    refine .put (fun hj0 => ?_) fun hj0 => ?_
    · refine .inr ⟨k - 2, ?_, hmerge⟩
      rw [hj0, mergesBelow_root]
      omega
    rw [mergesBelow_of_ne hj0]
    refine .put (fun hjf => ?_) fun hjf => ?_
    · rwa [hjf, hfree, slotRank_right]
    rcases Nat.lt_or_ge b.heapEnd j with hlo | hlo
    · exact hparked j hlo (by omega)
    · have hslot : slotRank k j = k - 2 := by
        rw [show j = k - 1 - (k - 2) by omega, slotRank_left (by omega)]
      exact hslot ▸ hheap j hlo

/-- The work of `BUILD` on a closed histogram completes and leaves a finite tree (41_table_builder.md R118, R120). -/
theorem buildTable_completes {f : Memory Nat} {k : Nat} (hk2 : 2 ≤ k) (hk : k = presentCount f) (t : Memory TableEntry) :
    ∃ b, buildTable f k t = .ok b ∧ tableOrdered b.table k := by
  have hkle : k ≤ nsym := hk ▸ presentCount_le_nsym f
  have hlen : (presentLeaves f).length = k := (presentLeaves_length f).trans hk.symm
  have hksize : k ≤ tableSlots := hkle.trans (by decide)
  obtain ⟨t1, hmat, hleaf⟩ :=
    writeSlots_zero_slotHolds (hlen.trans_le hksize) (fun _ => isLeafEntry_of_mem_presentLeaves) t
  obtain ⟨t2, hsort, hleaf'⟩ := sortLeaves_completes hksize (hlen ▸ hleaf)
  have hstart : Merging k 0 { table := t2, heapEnd := k - 1, firstFree := k } :=
    ⟨rfl, rfl, fun j hj => (hleaf' j (by simp only at hj; omega)).mono fun _ => .inl,
      fun j hlo hhi => by simp only at hlo hhi; omega⟩
  obtain ⟨b1, hloop, hmerged⟩ := hstart.mergeLoop (n := k - 2) hkle (Nat.zero_add _).le
  obtain ⟨b, hfinal, hordered⟩ := (Nat.zero_add (k - 2) ▸ hmerged).finalMerge hk2 hkle
  exact ⟨b, buildTable_eq_ok.mpr ⟨t1, t2, b1, (materialize_eq_writeSlots f t).trans hmat, hsort, hloop, hfinal⟩, hordered⟩

end Sys2Proof.Machine

/-! ## The walk, the header and the codes complete -/

namespace Sys2Proof.Machine

theorem recordCode_of_le {g : Int} (h0 : 0 ≤ g) (h256 : g ≤ 256) (c : Codes) (p : List Bool) :
    ∃ c', recordCode c g p = .ok c' := by
  obtain ⟨n, rfl⟩ := Int.eq_ofNat_of_zero_le h0
  have hn : n < nsym := by simp only [nsym]; omega
  exact ⟨_, if_pos hn⟩

/-- `VISIT` of a leaf records its code (42_code_generator.md R130). -/
theorem visit_of_leaf {t : Memory TableEntry} {i : Int} {e : TableEntry} (he : readChild t i = .ok e) (hl : e.left = -1)
    (hr : e.right = -1) (depth : Nat) (p : List Bool) (c : Codes) :
    visit t (depth + 1) i p c = recordCode c e.glyph p := by
  rw [visit, he]
  exact if_pos ⟨hl, hr⟩

/-- `VISIT` of a merge node visits its right subtree after its left one (R130). -/
theorem visit_of_node {t : Memory TableEntry} {depth : Nat} {i : Int} {e : TableEntry} {p : List Bool} {c c' : Codes}
    (he : readChild t i = .ok e) (hne : ¬(e.left = -1 ∧ e.right = -1))
    (hleft : visit t depth e.left (p ++ [false]) c = .ok c') :
    visit t (depth + 1) i p c = visit t depth e.right (p ++ [true]) c' := by
  rw [visit, he]
  simp only [if_neg hne, hleft]

/-- `VISIT` of a slot of a finite tree completes when it may go deeper than there are merges below the slot
(42_code_generator.md R130). -/
theorem visit_completes {t : Memory TableEntry} {k : Nat} (hk : k ≤ nsym) (ht : ∀ j < 2 * k - 1, slotOrdered t k j)
    {depth j : Nat} (hj : j < 2 * k - 1) (hd : mergesBelow k j < depth) (p : List Bool) (c : Codes) :
    ∃ c', visit t depth (Int.ofNat j) p c = .ok c' := by
  induction depth generalizing j p c with
  | zero => exact absurd hd (Nat.not_lt_zero _)
  | succ depth ih =>
    have hk' : k ≤ 257 := hk
    have hjSize : j < tableSlots := by simp only [tableSlots]; omega
    obtain ⟨e, he, hE⟩ := slotOrdered_iff.mp (ht j hj)
    have hread : readChild t (Int.ofNat j) = .ok e := readTable_eq_ok.mpr ⟨hjSize, he⟩
    rcases hE with ⟨hl, hr, h0, h256⟩ | ⟨q, hq, -, hl, hr⟩
    · rw [visit_of_leaf hread hl hr]
      exact recordCode_of_le h0 h256 c p
    · have hqk : q < k - 1 := hq.trans_le (mergesBelow_le hj)
      have hleft : mergesBelow k (k - 1 - q) = q := (mergesBelow_of_ne (by omega)).trans (slotRank_left (by omega))
      have hright : mergesBelow k (k + q) = q := (mergesBelow_of_ne (by omega)).trans (slotRank_right k q)
      obtain ⟨c1, h1⟩ := ih (j := k - 1 - q) (by omega) (by omega) (p ++ [false]) c
      rw [visit_of_node hread (by simp [hl]) (hl ▸ h1), hr]
      exact ih (j := k + q) (by omega) (by omega) (p ++ [true]) c1

theorem walkTable_completes {t : Memory TableEntry} {k : Nat} (hk2 : 2 ≤ k) (hk : k ≤ nsym) (ht : tableOrdered t k)
    (c : Codes) : ∃ c', walkTable t c = .ok c' := by
  have hk' : k ≤ 257 := hk
  refine visit_completes hk ht.1 (j := 0) (by omega) ?_ [] c
  rw [mergesBelow_root, codeMax]
  omega

/-- The written bytes of the name read back (44_artifact_writer.md R151). -/
theorem readNames_completes {cfg : Config} {m : List Host.Cell} {i n : Nat} (hn : i + n ≤ cfg.nameMax)
    (hw : ∀ j < i + n, (memFind m j).isSome) : ∃ bs, readNames cfg m i n = .ok bs := by
  induction n generalizing i with
  | zero => exact ⟨[], rfl⟩
  | succ n ih =>
    obtain ⟨d, hd⟩ := Option.isSome_iff_exists.mp (hw i (by omega))
    have hread : readName cfg m i = .ok d := memRead_eq_ok.mpr ⟨by omega, hd⟩
    obtain ⟨bs, hbs⟩ := ih (i := i + 1) (by omega) fun j hj => hw j (by omega)
    exact ⟨d :: bs, by simp [readNames, hread, hbs]⟩

theorem headerBytes_completes {s : State} (hs : s.Inv) (ht : tableOrdered s.table s.k) :
    ∃ bytes, headerBytes s = .ok bytes := by
  obtain ⟨-, ⟨hname, -, -, hk, -⟩, -, -, hwritten, -⟩ := hs
  have hk' : s.k ≤ 257 := hk
  obtain ⟨name, hnames⟩ := readNames_completes (cfg := s.cfg) (m := s.nameBuf) (i := 0) (n := s.nameLen) (by omega)
    fun j hj => hwritten j (by omega)
  obtain ⟨es, hes, -⟩ := readSlots_completes (t := s.table) (i := 0) (n := 2 * s.k - 1) (by simp only [tableSlots]; omega)
    fun j hj => by rw [Nat.zero_add]; exact (slotOrdered_iff.mp (ht.1 j hj)).isSome
  rw [headerBytes, hnames, hes]
  exact ⟨_, rfl⟩

/-- A symbol with a code has its bits (10_state.md R36). -/
theorem Codes.Inv.appendCode_completes {c : Codes} (hc : c.Inv) (n : Nat) (p : Packer) :
    ∃ p', appendCode c n p = .ok p' := by
  suffices h : ∃ bits, readCode c n = .ok bits by
    obtain ⟨bits, hbits⟩ := h
    exact ⟨_, appendCode_eq_ok.mpr ⟨bits, hbits, rfl⟩⟩
  cases hlen : memFind c.codeLen n with
  | none => exact ⟨[], readCode_eq_ok.mpr (.inl ⟨by simp [countAt, hlen], rfl⟩)⟩
  | some len =>
    have hmem := mem_of_memFind hlen
    obtain ⟨hsize, hne⟩ := hc.lenWf.2 _ hmem
    obtain ⟨bits, hbits, hbitsLen⟩ := Option.map_eq_some_iff.mp (hc.agree _ hmem)
    have hcount : countAt c.codeLen n = len := by simp [countAt, hlen]
    refine ⟨bits.take len, readCode_eq_ok.mpr (.inr ⟨?_, hsize, bits, hbits, ?_, by rw [hcount]⟩)⟩
    · rw [hcount]
      rintro rfl
      exact hne rfl
    · rw [hcount]
      exact hbitsLen.ge

end Sys2Proof.Machine

/-! ## The invariant of a run, command by command -/

namespace Sys2Proof.Machine

variable {s t : State}

/-- Nothing has been emitted and the byte aligner is empty (44_artifact_writer.md R151, 60_exceptions.md R176). -/
abbrev State.pass2Blank (s : State) : Prop := s.encCnt = 0 ∧ s.acc = 0#8 ∧ s.nbits = 0 ∧ s.out = []

/-- The histogram is closed and `K` counts its symbols (10_state.md R29). -/
abbrev State.histogramClosed (s : State) : Prop := countAt s.freq eos = 1 ∧ s.k = presentCount s.freq

/-- `TABLE` holds the merge tree and the cursors stand where `BUILD` leaves them (10_state.md R30). -/
abbrev State.treeBuilt (s : State) : Prop :=
  2 ≤ s.k ∧ s.heapEnd = 1 ∧ s.firstFree = 2 * s.k - 2 ∧ tableOrdered s.table s.k

theorem State.phaseFacts_load (hp : s.phase = .load) :
    s.phaseFacts ↔ (s.k = 0 ∧ s.heapEnd = 0 ∧ s.firstFree = 0 ∧ countAt s.freq eos = 0) ∧ s.codeLen = [] ∧ s.pass2Blank := by
  simp [State.phaseFacts, hp, Phase.counting, Phase.hasTable, Phase.beforeWalk, Phase.beforePass2]

theorem State.phaseFacts_counted (hp : s.phase = .counted) :
    s.phaseFacts ↔ s.histogramClosed ∧ s.codeLen = [] ∧ s.pass2Blank := by
  simp [State.phaseFacts, hp, Phase.counting, Phase.hasTable, Phase.beforeWalk, Phase.beforePass2]

theorem State.phaseFacts_built (hp : s.phase = .built) :
    s.phaseFacts ↔ s.histogramClosed ∧ s.treeBuilt ∧ s.codeLen = [] ∧ s.pass2Blank := by
  simp [State.phaseFacts, hp, Phase.counting, Phase.hasTable, Phase.beforeWalk, Phase.beforePass2]

theorem State.phaseFacts_coded (hp : s.phase = .coded) :
    s.phaseFacts ↔ s.histogramClosed ∧ s.treeBuilt ∧ s.pass2Blank := by
  simp [State.phaseFacts, hp, Phase.counting, Phase.hasTable, Phase.beforeWalk, Phase.beforePass2]

theorem State.phaseFacts_encode (hp : s.phase = .encode) : s.phaseFacts ↔ s.histogramClosed ∧ s.treeBuilt := by
  simp [State.phaseFacts, hp, Phase.counting, Phase.hasTable, Phase.beforeWalk, Phase.beforePass2]

theorem State.phaseFacts_done (hp : s.phase = .done) :
    s.phaseFacts ↔ s.histogramClosed ∧ s.treeBuilt ∧ s.encCnt = s.len ∧ s.acc = 0#8 ∧ s.nbits = 0 := by
  simp [State.phaseFacts, hp, Phase.counting, Phase.hasTable, Phase.beforeWalk, Phase.beforePass2]

/-- Phase `ERROR` promises nothing. -/
theorem State.phaseFacts_error (hp : s.phase = .error) : s.phaseFacts := by
  simp [State.phaseFacts, hp, Phase.counting, Phase.hasTable, Phase.beforeWalk, Phase.beforePass2]

/-- The count of the end-of-stream symbol is not touched by counting a byte. -/
theorem countAt_countOne_eos (f : Memory Nat) (d : Byte) : countAt (countOne f (symbolOf d)) eos = countAt f eos := by
  have hne : eos ≠ symbolOf d := (show symbolOf d < 256 from d.isLt).ne'
  rw [countOne, countAt_setCount_pos _ _ _ (Nat.succ_ne_zero _), if_neg hne]

/-- `EOP` forces the count of the end-of-stream symbol (40_frequency_analyzer.md R101). -/
theorem countAt_setCount_eos (f : Memory Nat) : countAt (setCount f eos 1) eos = 1 := by
  rw [countAt_setCount_pos _ _ _ one_ne_zero, if_pos rfl]

/-- After the padding the byte aligner is empty (43_bit_packer.md R142). -/
theorem padLast_blank {p : Packer} (h : p.unfilledZero) : (padLast p).acc = 0#8 ∧ (padLast p).nbits = 0 := by
  unfold padLast
  split
  · rename_i hn
    refine ⟨BitVec.eq_of_toNat_eq ?_, hn⟩
    rw [Packer.unfilledZero, hn] at h
    exact Nat.lt_one_iff.mp h
  · exact ⟨rfl, rfl⟩

theorem State.phaseFacts_cleared (s : State) : s.cleared.phaseFacts := by
  rw [s.cleared_eq_reset]
  exact State.phaseFacts_resetWith s.cfg

/-- `BUILD` leaves what phase `BUILT` promises. -/
theorem treeBuilt_of_buildTable {b : Builder} (hk2 : 2 ≤ s.k) (hk : s.k = presentCount s.freq)
    (hb : buildTable s.freq s.k s.table = .ok b) : (s.withBuilder b).treeBuilt := by
  obtain ⟨b', hb', hordered⟩ := buildTable_completes hk2 hk s.table
  obtain rfl : b' = b := Except.ok.inj (hb'.symm.trans hb)
  obtain ⟨hend, hfree⟩ := buildTable_cursors hb
  exact ⟨hk2, hend.trans (by omega), hfree.trans (by simp only [State.withBuilder_k]; omega), hordered⟩

/-- Every command keeps what the phases promise. -/
theorem exec_phaseFacts {i : Instr} (hs : s.Inv) (hfacts : s.phaseFacts) (h : exec i s = .next t) : t.phaseFacts := by
  cases exec_effect h with
  | same ht => exact ht ▸ hfacts
  | clear _ ht => exact ht ▸ s.phaseFacts_cleared
  | err _ code _ ht => exact State.phaseFacts_error (ht ▸ rfl)
  | name d m _ hp _ _ ht =>
    rw [State.phaseFacts_load (s := t) (ht ▸ hp), ht]
    exact (State.phaseFacts_load hp).mp hfacts
  | cnt d _ hp _ ht =>
    obtain ⟨⟨hk, hend, hfree, heos⟩, hrest⟩ := (State.phaseFacts_load hp).mp hfacts
    rw [State.phaseFacts_load (s := t) (ht ▸ hp), ht]
    exact ⟨⟨hk, hend, hfree, (countAt_countOne_eos s.freq d).trans heos⟩, hrest⟩
  | eop _ hp ht =>
    obtain ⟨-, hrest⟩ := (State.phaseFacts_load hp).mp hfacts
    rw [State.phaseFacts_counted (s := t) (ht ▸ rfl), ht]
    exact ⟨⟨countAt_setCount_eos s.freq, by simp⟩, hrest⟩
  | build b _ hp hk hb ht =>
    obtain ⟨hclosed, hrest⟩ := (State.phaseFacts_counted hp).mp hfacts
    have htree := treeBuilt_of_buildTable hk hclosed.2 hb
    rw [State.phaseFacts_built (s := t) (ht ▸ rfl), ht]
    exact ⟨hclosed, htree, hrest⟩
  | walk c _ hp _ ht =>
    obtain ⟨hclosed, htree, -, hblank⟩ := (State.phaseFacts_built hp).mp hfacts
    rw [State.phaseFacts_coded (s := t) (ht ▸ rfl), ht]
    exact ⟨hclosed, htree, hblank⟩
  | hdr bytes _ hp _ ht =>
    obtain ⟨hclosed, htree, -⟩ := (State.phaseFacts_coded hp).mp hfacts
    rw [State.phaseFacts_encode (s := t) (ht ▸ rfl), ht]
    exact ⟨hclosed, htree⟩
  | enc d p _ hp _ _ _ ht =>
    rw [State.phaseFacts_encode (s := t) (ht ▸ hp), ht]
    exact (State.phaseFacts_encode hp).mp hfacts
  | fin p _ hp hl _ ha ht =>
    obtain ⟨hclosed, htree⟩ := (State.phaseFacts_encode hp).mp hfacts
    rw [State.phaseFacts_done (s := t) (ht ▸ rfl), ht]
    exact ⟨hclosed, htree, hl, padLast_blank (appendCode_unfilledZero hs.packer_unfilledZero ha)⟩

/-- Every command keeps the invariant of a run. -/
theorem exec_runInv {i : Instr} (hs : s.RunInv) (h : exec i s = .next t) : t.RunInv := by
  obtain ⟨hinv, hcfg, hfacts⟩ := hs
  exact ⟨exec_inv hinv h, exec_cfg h ▸ hcfg, exec_phaseFacts hinv hfacts h⟩

theorem eq_of_onlyIn_accepted {home p : Phase} (h : onlyIn home p = .accepted) : p = home := by
  unfold onlyIn at h
  split at h
  · cases h
  · split at h
    · assumption
    · cases h

/-- A command completes when its own rule does in the one phase that accepts it. -/
theorem dispatch_completes (i : Instr) (s : State) (home : Phase) {rule : State → Result}
    (ha : acceptance i s.phase = onlyIn home s.phase) (h : s.phase = home → ∃ t, rule s = .next t) :
    ∃ t, dispatch i s rule = .next t := by
  cases hacc : acceptance i s.phase with
  | accepted => rw [dispatch_accepted hacc]; exact h (eq_of_onlyIn_accepted (ha.symm.trans hacc))
  | outOfPhase => exact ⟨_, dispatch_outOfPhase hacc⟩
  | ignored => exact ⟨_, dispatch_ignored hacc⟩

theorem finish_completes {α : Type} {r : Except Fault α} (h : ∃ a, r = .ok a) (g : α → State) :
    ∃ t, finish (r.map g) = .next t := by
  obtain ⟨a, ha⟩ := h
  exact ⟨g a, finish_map_eq_next.mpr ⟨a, ha, rfl⟩⟩

theorem raiseBy_completes (i : Instr) (code : ErrCode) (s : State) : ∃ t, raiseBy i code s = .next t :=
  ⟨_, raiseBy_eq_next.mpr rfl⟩

theorem State.Inv.writeName_completes (hs : s.Inv) (hn : s.nameLen ≠ s.cfg.nameMax) (d : Byte) :
    ∃ m, writeName s.cfg s.nameBuf s.nameLen d = .ok m := by
  obtain ⟨-, ⟨hle, -⟩, -⟩ := hs
  exact ⟨_, memWrite_eq_ok.mpr ⟨Nat.lt_of_le_of_ne hle hn, rfl⟩⟩

theorem State.Inv.k_le (hs : s.Inv) : s.k ≤ nsym := by
  obtain ⟨-, ⟨-, -, -, hk, -⟩, -⟩ := hs
  exact hk

/-- From the invariant of a run no command meets a fault of the model (20_memory.md R61, R72). -/
theorem exec_completes (hs : s.RunInv) (i : Instr) : ∃ t, exec i s = .next t := by
  obtain ⟨hinv, -, hfacts⟩ := hs
  cases i with
  | nop => exact ⟨s, rfl⟩
  | clr => exact ⟨_, exec_clr s⟩
  | name d =>
    simp only [exec, execName]
    refine dispatch_completes (.name d) s .load rfl fun _ => ?_
    split
    · exact raiseBy_completes _ _ s
    · exact finish_completes (hinv.writeName_completes ‹_› d) _
  | cnt d =>
    simp only [exec, execCnt]
    refine dispatch_completes (.cnt d) s .load rfl fun _ => ?_
    split
    · exact raiseBy_completes _ _ s
    · exact ⟨_, rfl⟩
  | eop =>
    simp only [exec, execEop]
    exact dispatch_completes .eop s .load rfl fun _ => ⟨_, rfl⟩
  | build =>
    simp only [exec, execBuild]
    refine dispatch_completes .build s .counted rfl fun hp => ?_
    obtain ⟨hclosed, -⟩ := (State.phaseFacts_counted hp).mp hfacts
    split
    · exact raiseBy_completes _ _ s
    · obtain ⟨b, hb, -⟩ := buildTable_completes (not_lt.mp ‹_›) hclosed.2 s.table
      exact finish_completes ⟨b, hb⟩ _
  | walk =>
    simp only [exec, execWalk]
    refine dispatch_completes .walk s .built rfl fun hp => ?_
    obtain ⟨-, ⟨hk2, -, -, hordered⟩, -⟩ := (State.phaseFacts_built hp).mp hfacts
    exact finish_completes (walkTable_completes hk2 hinv.k_le hordered s.codes) _
  | hdr =>
    simp only [exec, execHdr]
    refine dispatch_completes .hdr s .coded rfl fun hp => ?_
    obtain ⟨-, ⟨-, -, -, hordered⟩, -⟩ := (State.phaseFacts_coded hp).mp hfacts
    exact finish_completes (headerBytes_completes hinv hordered) _
  | enc d =>
    simp only [exec, execEnc]
    refine dispatch_completes (.enc d) s .encode rfl fun _ => ?_
    split
    · exact raiseBy_completes _ _ s
    split
    · exact raiseBy_completes _ _ s
    exact finish_completes (hinv.codes_inv.appendCode_completes (symbolOf d) s.packer) _
  | fin =>
    simp only [exec, execFin]
    refine dispatch_completes .fin s .encode rfl fun _ => ?_
    split
    · exact raiseBy_completes _ _ s
    split
    · exact raiseBy_completes _ _ s
    exact finish_completes (hinv.codes_inv.appendCode_completes eos s.packer) _

/-- The waiting inputs are no part of the invariant of a run (log 2). -/
theorem State.RunInv.withInput (hs : s.RunInv) (q : List HostInput) : (s.withInput q).RunInv := hs

theorem State.RunInv.cleared (hs : s.RunInv) : s.cleared.RunInv := exec_runInv hs (exec_clr s)

theorem execIllegal_safe (hs : s.RunInv) (w : Word) : ∃ t, execIllegal w s = .next t ∧ t.RunInv := by
  refine ⟨_, execIllegal_eq w s, ?_⟩
  split
  · exact hs
  · obtain ⟨hinv, hcfg, -⟩ := hs
    exact ⟨hinv.withError (by decide) w, hcfg, State.phaseFacts_error rfl⟩

theorem stepWord_safe (hs : s.RunInv) (w : Word) : ∃ t, stepWord w s = .next t ∧ t.RunInv := by
  cases hd : decode w with
  | ok i =>
    rw [stepWord_legal hd]
    obtain ⟨t, ht⟩ := exec_completes hs i
    exact ⟨t, ht, exec_runInv hs ht⟩
  | error e =>
    rw [stepWord_illegal hd]
    exact execIllegal_safe hs w

/-- Settles O43: the oldest waiting input is a command word, a reset, or there is none. -/
theorem runsNeverFault : Obligations.RunsNeverFault := by
  intro s hs
  rcases hin : s.input with _ | ⟨w | _, rest⟩
  · exact ⟨s, step_idle hin, hs⟩
  · rw [safeStep, step_word hin]
    exact stepWord_safe (hs.withInput rest) w
  · exact ⟨_, step_reset hin, (hs.withInput rest).cleared⟩

end Sys2Proof.Machine

/-! ## Which commands write each memory -/

namespace Sys2Proof.Machine

/-- Settles O38: an outcome that writes a memory or `OUT` is the effect of a command that is listed for it. -/
theorem memoriesWrittenOnlyByTheirCommands : Obligations.MemoriesWrittenOnlyByTheirCommands := by
  intro i s t h hclr
  cases exec_effect h with
  | same ht => simp [ht]
  | clear hi _ => exact absurd hi hclr
  | err _ code _ ht => simp [ht]
  | name d m hi _ _ _ ht => simp [hi, ht]
  | cnt d hi _ _ ht => simp [hi, ht]
  | eop hi _ ht => simp [hi, ht]
  | build b hi _ _ _ ht => simp [hi, ht]
  | walk c hi _ _ ht => simp [hi, ht]
  | hdr bytes hi _ _ ht => simp [hi, ht]
  | enc d p hi _ _ _ _ ht => simp [hi, ht]
  | fin p hi _ _ _ _ ht => simp [hi, ht]

end Sys2Proof.Machine

/-! ## Integers in four bytes (20_memory.md R62, R64) -/

namespace Sys2Proof.Machine

/-- The four bytes of a word, put together again. -/
theorem append_bytesLE (w : BitVec 32) :
    (w.extractLsb' 24 8 ++ w.extractLsb' 16 8 ++ w.extractLsb' 8 8 ++ w.extractLsb' 0 8 : BitVec 32) = w := by
  have hhigh : w.extractLsb' 24 8 ++ w.extractLsb' 16 8 = w.extractLsb' 16 16 :=
    BitVec.extractLsb'_append_extractLsb'_eq_extractLsb' rfl
  have hupper : w.extractLsb' 16 16 ++ w.extractLsb' 8 8 = w.extractLsb' 8 24 :=
    BitVec.extractLsb'_append_extractLsb'_eq_extractLsb' rfl
  have hall : w.extractLsb' 8 24 ++ w.extractLsb' 0 8 = w.extractLsb' 0 32 :=
    BitVec.extractLsb'_append_extractLsb'_eq_extractLsb' rfl
  rw [hhigh, hupper, hall, BitVec.extractLsb'_eq_self]

theorem toInt_sext32 {v : Int} (hlo : -2 ^ 31 ≤ v) (hhi : v < 2 ^ 31) : (sext32 v).toInt = v :=
  BitVec.toInt_ofInt_eq_self (by decide) hlo hhi

/-- An int32 reads back from its four bytes, and what follows them is left (44_artifact_writer.md R152). -/
theorem takeInt32_le32 {v : Int} (hlo : -2 ^ 31 ≤ v) (hhi : v < 2 ^ 31) (rest : List Byte) :
    takeInt32 (le32 v ++ rest) = some (v, rest) := by
  change some ((_ : BitVec 32).toInt, rest) = _
  rw [append_bytesLE, toInt_sext32 hlo hhi]

theorem toNat_sext32 {n : Nat} (hn : n < 2 ^ 31) : (sext32 (Int.ofNat n)).toNat = n := by
  rw [sext32, Int.ofNat_eq_natCast, BitVec.ofInt_natCast, BitVec.toNat_ofNat, Nat.mod_eq_of_lt (by omega)]

/-- The bytes of a word are its value's digits in base 256, the least significant first. -/
theorem map_toNat_bytesLE (w : BitVec 32) :
    (bytesLE w).map BitVec.toNat =
      [w.toNat % 256, w.toNat / 256 % 256, w.toNat / 65536 % 256, w.toNat / 16777216] := by
  have htop : w.toNat / 16777216 % 256 = w.toNat / 16777216 := by have := w.isLt; omega
  simp [bytesLE, BitVec.extractLsb'_toNat, Nat.shiftRight_eq_div_pow, htop]

/-- Settles O33: the four bytes are the digits of the two's-complement word, and the word is the integer in its range. -/
theorem integersAreLittleEndian : Obligations.IntegersAreLittleEndian := by
  refine ⟨fun v rest hlo hhi => takeInt32_le32 hlo hhi rest, fun n hn => ?_, by decide⟩
  rw [le32, map_toNat_bytesLE, toNat_sext32 hn]

end Sys2Proof.Machine

/-! # Command words (30_encoding.md) -/

/-! ## The fields of a command's word, and the round trip -/

namespace Sys2Proof

theorem opField_encode (i : Instr) : opField (encode i) = opcodeOf i := by
  rw [opField, encode, BitVec.extractLsb'_append_eq_of_le (by decide)]
  exact BitVec.extractLsb'_append_eq_left

theorem rsvField_encode (i : Instr) : rsvField (encode i) = 0#4 := by
  rw [rsvField, encode, BitVec.extractLsb'_append_eq_of_le (by decide)]
  exact BitVec.extractLsb'_append_eq_right

theorem lowField_encode (i : Instr) : lowField (encode i) = operandOf i := BitVec.extractLsb'_append_eq_right

theorem decodeOp_opcodeOf_operandOf (i : Instr) : decodeOp (opcodeOf i) (operandOf i) = .ok i := by
  cases i <;> rfl

/-- The decoder reads the fields `encode` wrote (30_encoding.md R81, R82, R86). -/
theorem decode_encode (i : Instr) : decode (encode i) = .ok i := by
  rw [decode, rsvField_encode, opField_encode, lowField_encode, if_neg (not_not.mpr rfl), decodeOp_opcodeOf_operandOf]

theorem encode_injective : Function.Injective encode := fun i j h =>
  Except.ok.inj <| by rw [← decode_encode i, h, decode_encode j]

/-- Settles O2: each direction of the round trip is a lemma. -/
theorem decodeAndEncodeAgree : Obligations.DecodeAndEncodeAgree := by
  intro w i
  constructor
  · exact encode_of_decode
  · rintro rfl
    exact decode_encode i

/-- Settles O1, by running the decoder on each word. -/
theorem sampleWordsDecode : Obligations.SampleWordsDecode := by
  unfold Obligations.SampleWordsDecode
  decide

end Sys2Proof

/-! ## The opcode map (30_encoding.md R83) -/

namespace Sys2Proof

/-- A command's word is hit by the rows that carry its mnemonic and by no other. -/
theorem encode_and_mask_eq_iff {r : OpcodeRow} (hr : r ∈ opcodeMap) (i : Instr) :
    encode i &&& r.mask = r.matchBits ↔ r.mnemonic = i.mnemonic := by
  have hstatement : Laws.OpcodeRow.Statement i := by
    cases i with
    | nop => exact Laws.OpcodeRow.nop
    | clr => exact Laws.OpcodeRow.clr
    | name d => exact Laws.OpcodeRow.name d
    | cnt d => exact Laws.OpcodeRow.cnt d
    | eop => exact Laws.OpcodeRow.eop
    | build => exact Laws.OpcodeRow.build
    | walk => exact Laws.OpcodeRow.walk
    | hdr => exact Laws.OpcodeRow.hdr
    | enc d => exact Laws.OpcodeRow.enc d
    | fin => exact Laws.OpcodeRow.fin
  exact decide_eq_decide.mp (hstatement r hr)

/-- The mask of a Z-format row fixes every bit of the word. -/
theorem eq_of_and_fullMask {w m : Word} (h : w &&& 0xFFFF#16 = m) : m = w :=
  h.symm.trans BitVec.and_allOnes

/-- The mask of a B-format row fixes the high byte and leaves the low one free. -/
theorem eq_of_and_highMask {w : Word} {op : BitVec 4} (h : w &&& 0xFF00#16 = op ++ 0#4 ++ 0#8) :
    op ++ 0#4 ++ lowField w = w := by
  have hfields : opField w ++ rsvField w = w.extractLsb' 8 8 := BitVec.extractLsb'_append_extractLsb'_eq_extractLsb' rfl
  have hhigh : op ++ 0#4 = opField w ++ rsvField w :=
    calc op ++ 0#4 = (w &&& 0xFF00#16).extractLsb' 8 8 := by rw [h]; exact BitVec.extractLsb'_append_eq_left.symm
      _ = w.extractLsb' 8 8 &&& 0xFF#8 := BitVec.extractLsb'_and
      _ = w.extractLsb' 8 8 := BitVec.and_allOnes
      _ = opField w ++ rsvField w := hfields.symm
  rw [hhigh, opField_append_rsvField_append_lowField]

/-- A word that a row of the opcode map hits is a command's word. -/
theorem exists_encode_of_and_mask_eq {r : OpcodeRow} (hr : r ∈ opcodeMap) {w : Word} (h : w &&& r.mask = r.matchBits) :
    ∃ i, encode i = w := by
  simp only [opcodeMap, List.mem_cons, List.not_mem_nil, or_false] at hr
  rcases hr with rfl | rfl | rfl | rfl | rfl | rfl | rfl | rfl | rfl | rfl
  · exact ⟨.nop, eq_of_and_fullMask h⟩
  · exact ⟨.clr, eq_of_and_fullMask h⟩
  · exact ⟨.name (lowField w), eq_of_and_highMask (op := 0x2#4) (h.trans (by decide))⟩
  · exact ⟨.cnt (lowField w), eq_of_and_highMask (op := 0x3#4) (h.trans (by decide))⟩
  · exact ⟨.eop, eq_of_and_fullMask h⟩
  · exact ⟨.build, eq_of_and_fullMask h⟩
  · exact ⟨.walk, eq_of_and_fullMask h⟩
  · exact ⟨.hdr, eq_of_and_fullMask h⟩
  · exact ⟨.enc (lowField w), eq_of_and_highMask (op := 0x8#4) (h.trans (by decide))⟩
  · exact ⟨.fin, eq_of_and_fullMask h⟩

/-- Settles O3: on both sides the word is some command's encoding, and there the row and the mnemonic agree. -/
theorem opcodeMapIsTheDecoder : Obligations.OpcodeMapIsTheDecoder := by
  intro r hr w
  constructor
  · intro h
    obtain ⟨i, rfl⟩ := exists_encode_of_and_mask_eq hr h
    exact ⟨i, decode_encode i, ((encode_and_mask_eq_iff hr i).mp h).symm⟩
  · rintro ⟨i, hdec, hmnemonic⟩
    obtain rfl := encode_of_decode hdec
    exact (encode_and_mask_eq_iff hr i).mpr hmnemonic.symm

end Sys2Proof

/-! ## Illegal words (30_encoding.md R84) -/

namespace Sys2Proof

theorem exists_decodeZ_eq_error {i : Instr} {d : Byte} : (∃ e, decodeZ i d = .error e) ↔ d ≠ 0#8 := by
  unfold decodeZ
  split <;> simp [*]

theorem exists_decodeOp_eq_error {op : BitVec 4} {d : Byte} :
    (∃ e, decodeOp op d = .error e) ↔ 10 ≤ op.toNat ∨ (op.toNat ∈ [0, 1, 4, 5, 6, 7, 9] ∧ d ≠ 0#8) := by
  unfold decodeOp
  split
  case h_11 =>
    have hop : 10 ≤ op.toNat := by
      simp only [imp_false] at *
      omega
    simp [hop]
  all_goals
    rename_i hop
    simp [hop, exists_decodeZ_eq_error]

/-- The decoder rejects a word for its reserved bits, or for its opcode and low byte (30_encoding.md R86). -/
theorem exists_decode_eq_error {w : Word} :
    (∃ e, decode w = .error e) ↔ rsvField w ≠ 0#4 ∨ ∃ e, decodeOp (opField w) (lowField w) = .error e := by
  unfold decode
  split <;> simp [*]

/-- Every byte, rising. -/
def allBytes : List Byte := (List.finRange 256).map BitVec.ofFin

theorem mem_allBytes (d : Byte) : d ∈ allBytes := List.mem_map_of_mem (List.mem_finRange d.toFin)

theorem allBytes_nodup : allBytes.Nodup := (List.nodup_finRange 256).map fun _ _ h => congrArg BitVec.toFin h

/-- Every command: the seven Z-format ones, and three for each operand byte (30_encoding.md R83). -/
def allCommands : List Instr :=
  [.nop, .clr, .eop, .build, .walk, .hdr, .fin] ++ allBytes.map .name ++ allBytes.map .cnt ++ allBytes.map .enc

theorem mem_allCommands (i : Instr) : i ∈ allCommands := by
  cases i <;> simp [allCommands, mem_allBytes]

theorem allCommands_length : allCommands.length = 775 := by
  simp [allCommands, allBytes]

theorem allCommands_nodup : allCommands.Nodup := by
  have hname : (allBytes.map Instr.name).Nodup := allBytes_nodup.map fun _ _ => Instr.name.inj
  have hcnt : (allBytes.map Instr.cnt).Nodup := allBytes_nodup.map fun _ _ => Instr.cnt.inj
  have henc : (allBytes.map Instr.enc).Nodup := allBytes_nodup.map fun _ _ => Instr.enc.inj
  simp [allCommands, List.nodup_append, hname, hcnt, henc, or_imp, forall_and]

end Sys2Proof

namespace Sys2Proof.Machine

/-- The step on an illegal word (30_encoding.md R84). -/
theorem stepWord_of_decode_error {w : Word} {e : DecodeError} (h : decode w = .error e) (s : State) :
    stepWord w s = .next (if s.phase = .error then s else s.withError .illegalCmd w) := by
  rw [stepWord_illegal h, execIllegal_eq]

/-- Settles O4: the conditions are the decoder's tests in their order, and the legal words are the encodings of the commands. -/
theorem illegalWordsRaiseIllegalCmd : Obligations.IllegalWordsRaiseIllegalCmd := by
  refine ⟨fun w => ?conditions, fun s w rest e hin hdec => ?effect, allCommands.map encode, ?nodup, ?length, fun w => ?legal⟩
  case conditions => exact exists_decode_eq_error.trans (or_congr_right exists_decodeOp_eq_error)
  case effect =>
    rw [step_word hin, stepWord_of_decode_error hdec]
    exact ⟨fun hp => congrArg _ (if_neg hp), fun hp => congrArg _ (if_pos hp)⟩
  case nodup => exact allCommands_nodup.map encode_injective
  case length => rw [List.length_map, allCommands_length]
  case legal => simp [mem_allCommands, decodeAndEncodeAgree w]

end Sys2Proof.Machine

/-! ## The acceptance table (30_encoding.md R89) -/

namespace Sys2Proof.Machine

variable {i : Instr} {s t : State} {home : Phase}

/-- The dispatch stands before every command (60_exceptions.md R170). -/
theorem exec_eq_dispatch (i : Instr) (s : State) : ∃ rule, exec i s = dispatch i s rule := by
  cases i <;>
    simp only [exec, execNop, execClr, execName, execCnt, execEop, execBuild, execWalk, execHdr, execEnc, execFin] <;>
    exact ⟨_, rfl⟩

theorem homePhase_ne_error (h : homePhase i = some home) : home ≠ .error := by
  rintro rfl
  cases i <;> cases h

theorem acceptance_of_homePhase (h : homePhase i = some home) (p : Phase) : acceptance i p = onlyIn home p := by
  cases i <;> cases h <;> rfl

theorem homePhase_eq_none_iff : homePhase i = none ↔ i = .nop ∨ i = .clr := by
  cases i <;> simp [homePhase]

theorem exec_nop (s : State) : exec .nop s = .next s := rfl

/-- A command with a phase of its own is rejected in every other one. -/
theorem rejectedOutside_homePhase (h : homePhase i = some home) (s : State) : rejectedOutside i home s := by
  obtain ⟨rule, hexec⟩ := exec_eq_dispatch i s
  refine ⟨fun hp => ?_, fun hp hne => ?_⟩
  · rw [hexec, dispatch_ignored (by rw [acceptance_of_homePhase h, hp, onlyIn_error])]
  · rw [hexec, dispatch_outOfPhase (by rw [acceptance_of_homePhase h, onlyIn_other hp hne])]
    rfl

theorem dispatch_homePhase {rule : State → Result} (h : homePhase i = some home) (hp : s.phase = home) :
    dispatch i s rule = rule s :=
  dispatch_accepted (by rw [acceptance_of_homePhase h, hp, onlyIn_home (homePhase_ne_error h)])

/-- What a command in its own phase can come to: an error other than `PROTOCOL`, or a different state out of phase `ERROR`. -/
def OwnOutcome (s t : State) : Prop :=
  (t.phase = .error ∧ t.err ≠ .protocol) ∨ (t.phase ≠ .error ∧ t ≠ s)

theorem OwnOutcome.of_raiseBy {j : Instr} {code : ErrCode} (h : raiseBy j code s = .next t) (hc : code ≠ .protocol) :
    OwnOutcome s t := by
  rw [raiseBy_eq_next.mp h]
  exact .inl ⟨rfl, hc⟩

theorem OwnOutcome.of_phase (h : t.phase ≠ .error) (hne : t.phase ≠ s.phase) : OwnOutcome s t :=
  .inr ⟨h, fun heq => hne (congrArg State.phase heq)⟩

/-- Every command in its own phase (30_encoding.md R89): its tests raise their own errors, and its work moves `PHASE` or a
count. -/
theorem exec_ownOutcome (hh : homePhase i = some home) (hp : s.phase = home) (h : exec i s = .next t) : OwnOutcome s t := by
  cases i with
  | nop | clr => cases hh
  | name d =>
    rw [exec, execName, dispatch_homePhase hh hp] at h
    cases hh
    split at h
    · exact .of_raiseBy h (by decide)
    · obtain ⟨m, -, rfl⟩ := finish_map_eq_next.mp h
      exact .inr ⟨by simp [hp], fun heq => Nat.succ_ne_self _ (congrArg State.nameLen heq)⟩
  | cnt d =>
    rw [exec, execCnt, dispatch_homePhase hh hp] at h
    cases hh
    split at h
    · exact .of_raiseBy h (by decide)
    · cases h
      exact .inr ⟨by simp [hp], fun heq => Nat.succ_ne_self _ (congrArg State.len heq)⟩
  | eop =>
    rw [exec, execEop, dispatch_homePhase hh hp] at h
    cases hh
    cases h
    exact .of_phase (by simp) (by simp [hp])
  | build =>
    rw [exec, execBuild, dispatch_homePhase hh hp] at h
    cases hh
    split at h
    · exact .of_raiseBy h (by decide)
    · obtain ⟨b, -, rfl⟩ := finish_map_eq_next.mp h
      exact .of_phase (by simp) (by simp [hp])
  | walk =>
    rw [exec, execWalk, dispatch_homePhase hh hp] at h
    cases hh
    obtain ⟨c, -, rfl⟩ := finish_map_eq_next.mp h
    exact .of_phase (by simp) (by simp [hp])
  | hdr =>
    rw [exec, execHdr, dispatch_homePhase hh hp] at h
    cases hh
    obtain ⟨bytes, -, rfl⟩ := finish_map_eq_next.mp h
    exact .of_phase (by simp) (by simp [hp])
  | enc d =>
    rw [exec, execEnc, dispatch_homePhase hh hp] at h
    cases hh
    split at h
    · exact .of_raiseBy h (by decide)
    split at h
    · exact .of_raiseBy h (by decide)
    obtain ⟨p, -, rfl⟩ := finish_map_eq_next.mp h
    exact .inr ⟨by simp [hp], fun heq => Nat.succ_ne_self _ (congrArg State.encCnt heq)⟩
  | fin =>
    rw [exec, execFin, dispatch_homePhase hh hp] at h
    cases hh
    split at h
    · exact .of_raiseBy h (by decide)
    split at h
    · exact .of_raiseBy h (by decide)
    obtain ⟨p, -, rfl⟩ := finish_map_eq_next.mp h
    exact .of_phase (by simp) (by simp [hp])

/-- A command in its own phase is not ignored. -/
theorem exec_ne_next_self (hh : homePhase i = some home) (hp : s.phase = home) : exec i s ≠ .next s := by
  intro h
  rcases exec_ownOutcome hh hp h with ⟨herr, -⟩ | ⟨-, hne⟩
  · exact homePhase_ne_error hh (hp.symm.trans herr)
  · exact hne rfl

/-- A command in its own phase raises no `PROTOCOL`. -/
theorem exec_err_ne_protocol (hh : homePhase i = some home) (hp : s.phase = home) (h : exec i s = .next t)
    (herr : t.phase = .error) : t.err ≠ .protocol := by
  rcases exec_ownOutcome hh hp h with ⟨-, hcode⟩ | ⟨hne, -⟩
  · exact hcode
  · exact absurd herr hne

/-- Phase `ERROR` ignores every command but `CLR` (60_exceptions.md R174). -/
theorem exec_of_phase_error (hp : s.phase = .error) (hclr : i ≠ .clr) : exec i s = .next s := by
  cases hh : homePhase i with
  | some home => exact (rejectedOutside_homePhase hh s).1 hp
  | none =>
    obtain rfl := (homePhase_eq_none_iff.mp hh).resolve_right hclr
    exact exec_nop s

/-- Settles O9: a command with a phase of its own in phase `ERROR`, outside its phase and in it; then `NOP`, `CLR` and an illegal
word. -/
theorem acceptanceByPhase : Obligations.AcceptanceByPhase := by
  refine ⟨fun i s => ⟨exec_of_phase_error, fun home hh => (rejectedOutside_homePhase hh s).2, fun home hh hp => ?own,
    fun hh => ?always⟩, fun w e s hdec => stepWord_of_decode_error hdec s⟩
  case own => exact ⟨exec_ne_next_self hh hp, fun t => exec_err_ne_protocol hh hp⟩
  case always =>
    rcases homePhase_eq_none_iff.mp hh with rfl | rfl
    · exact ⟨s, exec_nop s, fun hp => ⟨rfl, hp⟩⟩
    · exact ⟨s.cleared, exec_clr s, fun hp => nomatch hp⟩

end Sys2Proof.Machine

/-! # The Frequency Analyzer (40_frequency_analyzer.md) -/

/-! ## `CNT` (R100) -/

namespace Sys2Proof.Machine

variable {s : State}

theorem countAt_countOne_self (f : Memory Nat) (n : Nat) : countAt (countOne f n) n = countAt f n + 1 := by
  rw [countOne, countAt_setCount_pos _ _ _ (Nat.succ_ne_zero _), if_pos rfl]

theorem countAt_countOne_ne (f : Memory Nat) {n m : Nat} (h : m ≠ n) : countAt (countOne f n) m = countAt f m := by
  rw [countOne, countAt_setCount_pos _ _ _ (Nat.succ_ne_zero _), if_neg h]

theorem exec_cnt_of_len_ne (d : Byte) (hp : s.phase = .load) (hn : s.len ≠ s.cfg.lenMax) :
    exec (.cnt d) s = .next (s.withCount (countOne s.freq (symbolOf d)) (s.len + 1)) := by
  rw [exec, execCnt, dispatch_homePhase rfl hp, if_neg hn]

theorem exec_cnt_of_len_eq (d : Byte) (hp : s.phase = .load) (hn : s.len = s.cfg.lenMax) :
    exec (.cnt d) s = .next (s.withError .countOverflow (encode (.cnt d))) := by
  rw [exec, execCnt, dispatch_homePhase rfl hp, if_pos hn]
  exact raiseBy_eq_next.mpr rfl

/-- Settles O19: the two sides of the test of `LEN` in phase `LOAD`, and the rejection every command with a phase of its own
has outside it. -/
theorem cntCountsOneByte : Obligations.CntCountsOneByte := by
  intro d s
  refine ⟨?word, fun hp hn => ?counts, fun hp hn => exec_cnt_of_len_eq d hp hn, rejectedOutside_homePhase rfl s⟩
  case word =>
    have hhigh : opcodeOf (.cnt d) ++ 0#4 = 0x30#8 := (by decide : (0x3#4 ++ 0#4 : Byte) = 0x30#8)
    exact congrArg (· ++ d) hhigh
  case counts =>
    exact ⟨_, exec_cnt_of_len_ne d hp hn, countAt_countOne_self _ _, fun _ hne => countAt_countOne_ne _ hne⟩

end Sys2Proof.Machine

/-! ## `EOP` (R101) and the histogram it leaves (R102) -/

namespace Sys2Proof.Machine

variable {s : State}

theorem countAt_setCount_eos_ne (f : Memory Nat) {n : Nat} (h : n ≠ eos) : countAt (setCount f eos 1) n = countAt f n := by
  rw [countAt_setCount_pos _ _ _ one_ne_zero, if_neg h]

/-- The number of byte values with a positive count: `presentCount` without the end-of-stream symbol. -/
def presentBytes (f : Memory Nat) : Nat := ((List.range 256).filter fun n => 0 < countAt f n).length

theorem presentBytes_eq_zero_iff {f : Memory Nat} : presentBytes f = 0 ↔ ∀ n < 256, countAt f n = 0 := by
  simp [presentBytes]

theorem presentBytes_of_all_present {f : Memory Nat} (h : ∀ n < 256, 0 < countAt f n) : presentBytes f = 256 := by
  have hall : ∀ n ∈ List.range 256, decide (0 < countAt f n) = true := fun n hn => decide_eq_true (h n (List.mem_range.mp hn))
  rw [presentBytes, List.filter_eq_self.mpr hall, List.length_range]

theorem byteSum_eq_zero_iff {f : Memory Nat} : byteSum f = 0 ↔ ∀ n < 256, countAt f n = 0 := by
  simp [byteSum, List.sum_eq_zero_iff]

theorem presentBytes_setCount_eos (f : Memory Nat) : presentBytes (setCount f eos 1) = presentBytes f := by
  refine congrArg List.length (List.filter_congr fun n hn => ?_)
  rw [countAt_setCount_eos_ne f (Nat.ne_of_lt (List.mem_range.mp hn))]

/-- The end-of-stream symbol, when present, is one symbol beside the byte values. -/
theorem presentCount_of_eos_pos {f : Memory Nat} (h : 0 < countAt f eos) : presentCount f = presentBytes f + 1 := by
  have hlast : [eos].filter (fun n => 0 < countAt f n) = [eos] := List.filter_eq_self.mpr (by simpa using h)
  rw [presentCount, nsym, List.range_succ, List.filter_append, List.length_append, presentBytes]
  exact congrArg (_ + List.length ·) hlast

/-- `K` after `EOP`, in the counts before it: the forced end-of-stream symbol is always one of the present ones. -/
theorem presentCount_setCount_eos (f : Memory Nat) : presentCount (setCount f eos 1) = presentBytes f + 1 := by
  rw [presentCount_of_eos_pos (one_pos.trans_eq (countAt_setCount_eos _).symm), presentBytes_setCount_eos]

theorem symbolSum_eq_byteSum_add (f : Memory Nat) : symbolSum f = byteSum f + countAt f eos := by
  rw [symbolSum, nsym, List.sum_range_succ, byteSum, eos]

theorem exec_eop_of_load (hp : s.phase = .load) :
    exec .eop s =
      .next ((s.withHistogram (setCount s.freq eos 1) (presentCount (setCount s.freq eos 1))).withPhase .counted) := by
  rw [exec, execEop, dispatch_homePhase rfl hp]

/-- Settles O20: the bounds and the corner cases of `K` are those of the number of present byte values, which is one less. -/
theorem eopClosesTheHistogram : Obligations.EopClosesTheHistogram := by
  intro s
  have hk := presentCount_setCount_eos s.freq
  refine ⟨by decide, fun hp => ⟨_, _, exec_eop_of_load hp, countAt_setCount_eos _, fun _ => countAt_setCount_eos_ne _, rfl,
    ?positive, fun hnone => ?empty, fun hall => ?full⟩, rejectedOutside_homePhase rfl s⟩
  case positive => exact (Nat.succ_pos _).trans_eq hk.symm
  case empty => exact hk.trans (congrArg (· + 1) (presentBytes_eq_zero_iff.mpr hnone))
  case full => exact hk.trans (congrArg (· + 1) (presentBytes_of_all_present hall))

/-- Settles O21: the invariant's `LEN`, the sum of the byte counts, is not touched by forcing the end-of-stream count, and it is
0 exactly when no byte value is present. -/
theorem histogramAfterEop : Obligations.HistogramAfterEop := by
  intro s t hinv hp h
  have hlen : byteSum s.freq = s.len := by
    obtain ⟨-, -, -, -, -, hsum⟩ := hinv
    exact hsum
  obtain rfl := Host.Outcome.next.inj ((exec_eop_of_load hp).symm.trans h)
  have hk := presentCount_setCount_eos s.freq
  have hnone : presentBytes s.freq = 0 ↔ s.len = 0 := by
    rw [← hlen, byteSum_eq_zero_iff, presentBytes_eq_zero_iff]
  refine ⟨(Nat.succ_pos _).trans_eq hk.symm, presentCount_le_nsym _, ?sum, countAt_setCount_eos _, ?count, ?atLeastTwo⟩
  case sum =>
    change symbolSum (setCount s.freq eos 1) = s.len + 1
    rw [symbolSum_eq_byteSum_add, byteSum_setCount_eos, countAt_setCount_eos, hlen]
  case count => exact presentCount_of_eos_pos (one_pos.trans_eq (countAt_setCount_eos _).symm)
  case atLeastTwo =>
    simp only [State.withPhase_k, State.withHistogram_k, State.withPhase_len, State.withHistogram_len]
    omega

end Sys2Proof.Machine

/-! # The Table Builder (41_table_builder.md) -/

/-! ## `MATERIALIZE` (R111) and `SORT` (R112): a list in the slots from 0 on -/

namespace Sys2Proof.Machine

variable {t : Memory TableEntry} {xs : List TableEntry}

/-- Everything a read of the slots from `i` on can answer. -/
theorem readSlots_eq_ok {i n : Nat} (h : readSlots t i n = .ok xs) :
    xs.length = n ∧ (0 < n → i + n ≤ tableSlots) ∧ ∀ j < n, memFind t (i + j) = xs[j]? := by
  induction n generalizing i xs with
  | zero => cases h; exact ⟨rfl, fun h0 => absurd h0 (Nat.lt_irrefl 0), fun j hj => absurd hj (Nat.not_lt_zero j)⟩
  | succ n ih =>
    unfold readSlots at h
    split at h
    · cases h
    · rename_i x hx
      split at h
      · cases h
      · rename_i ys hys
        cases h
        obtain ⟨hsize, hfound⟩ := readTable_eq_ok.mp hx
        obtain ⟨hlen, hle, hget⟩ := ih hys
        refine ⟨congrArg (· + 1) hlen, fun _ => by omega, fun j hj => ?_⟩
        cases j with
        | zero => exact hfound
        | succ j =>
          rw [show i + (j + 1) = i + 1 + j by omega, hget j (Nat.lt_of_succ_lt_succ hj), List.getElem?_cons_succ]

theorem readSlots_zero_eq_ok {k : Nat} (h : readSlots t 0 k = .ok xs) :
    xs.length = k ∧ k ≤ tableSlots ∧ ∀ j < k, memFind t j = xs[j]? := by
  obtain ⟨hlen, hsize, hget⟩ := readSlots_eq_ok h
  exact ⟨hlen, by omega, fun j hj => (congrArg (memFind t) (Nat.zero_add j)).symm.trans (hget j hj)⟩

/-- Slots that hold the entries of a list read back as that list. -/
theorem readSlots_zero_of_found (hlen : xs.length ≤ tableSlots) (h : ∀ j < xs.length, memFind t j = xs[j]?) :
    readSlots t 0 xs.length = .ok xs := by
  have hfound (j : Nat) (hj : j < xs.length) : memFind t (0 + j) = xs[j]? := (Nat.zero_add j).symm ▸ h j hj
  obtain ⟨ys, hread, hys, hget⟩ := readSlots_completes (t := t) (i := 0) (n := xs.length) (by omega) fun j hj => by
    rw [hfound j hj, List.getElem?_eq_getElem hj, Option.isSome_some]
  refine hread.trans (congrArg _ (List.ext_getElem? fun j => ?_))
  rcases Nat.lt_or_ge j xs.length with hj | hj
  · rw [← hget j hj, hfound j hj]
  · rw [List.getElem?_eq_none (hys.trans_le hj), List.getElem?_eq_none hj]

/-- A list written from slot 0 on: the slots it fills hold it, every other slot is as before. -/
theorem writeSlots_zero_completes (hlen : xs.length ≤ tableSlots) (t : Memory TableEntry) :
    ∃ t', writeSlots t 0 xs = .ok t' ∧ (∀ j < xs.length, memFind t' j = xs[j]?) ∧
      ∀ j, xs.length ≤ j → memFind t' j = memFind t j := by
  obtain ⟨t', hwrite, hget⟩ := writeSlots_completes (i := 0) ((Nat.zero_add _).trans_le hlen) t
  refine ⟨t', hwrite, fun j hj => ?_, fun j hj => ?_⟩
  · rw [hget, if_pos (by omega), Nat.sub_zero]
  · rw [hget, if_neg (by omega)]

theorem presentLeaves_length_le (f : Memory Nat) : (presentLeaves f).length ≤ tableSlots :=
  (presentLeaves_length f).trans_le ((presentCount_le_nsym f).trans (by decide))

/-- Settles O22: `MATERIALIZE` writes the list of the present symbols' leaves from slot 0 on. -/
theorem materializeListsPresentSymbols : Obligations.MaterializeListsPresentSymbols := by
  intro f t
  obtain ⟨t', hwrite, hget, hframe⟩ := writeSlots_zero_completes (presentLeaves_length_le f) t
  rw [← presentLeaves_length f]
  exact ⟨t', (materialize_eq_writeSlots f t).trans hwrite, readSlots_zero_of_found (presentLeaves_length_le f) hget, hframe⟩

/-- `SORT` writes the sorted entries back from slot 0 on. -/
theorem sortLeaves_of_readSlots {k : Nat} (h : readSlots t 0 k = .ok xs) :
    ∃ t', sortLeaves k t = .ok t' ∧ (∀ j < k, memFind t' j = (xs.insertionSort leafLe)[j]?) ∧
      ∀ j, k ≤ j → memFind t' j = memFind t j := by
  obtain ⟨hlen, hsize, -⟩ := readSlots_zero_eq_ok h
  have hlen' : (xs.insertionSort leafLe).length = k := (List.length_insertionSort leafLe xs).trans hlen
  obtain ⟨t', hwrite, hget⟩ := writeSlots_zero_completes (hlen'.trans_le hsize) t
  exact ⟨t', by simp [sortLeaves, h, hwrite], hlen' ▸ hget⟩

theorem leafLe_total (a b : TableEntry) : leafLe a b ∨ leafLe b a := by
  unfold leafLe
  omega

theorem leafLe_trans {a b c : TableEntry} (hab : leafLe a b) (hbc : leafLe b c) : leafLe a c := by
  unfold leafLe at *
  omega

theorem pairwise_leafLe_insertionSort (xs : List TableEntry) : (xs.insertionSort leafLe).Pairwise leafLe := by
  have : Std.Total leafLe := ⟨leafLe_total⟩
  have : IsTrans TableEntry leafLe := ⟨fun _ _ _ => leafLe_trans⟩
  exact List.pairwise_insertionSort leafLe xs

/-- Settles O23: the insertion sort's order is strict because the glyphs are distinct. -/
theorem sortOrdersTheLeaves : Obligations.SortOrdersTheLeaves := by
  intro k t xs hread hnodup
  obtain ⟨hlen, hsize, -⟩ := readSlots_zero_eq_ok hread
  obtain ⟨t', hsort, hget, hframe⟩ := sortLeaves_of_readSlots hread
  have hperm : (xs.insertionSort leafLe).Perm xs := List.perm_insertionSort leafLe xs
  have hlen' : (xs.insertionSort leafLe).length = k := hperm.length_eq.trans hlen
  have hglyphs : (xs.insertionSort leafLe).Pairwise fun a b => a.glyph ≠ b.glyph :=
    List.pairwise_map.mp ((hperm.map TableEntry.glyph).nodup_iff.mpr hnodup)
  refine ⟨t', _, hsort, hlen' ▸ readSlots_zero_of_found (hlen'.trans_le hsize) (hlen'.symm ▸ hget), hperm, ?_, hframe⟩
  exact (pairwise_leafLe_insertionSort xs).imp₂ (fun a b hle hne => hle.imp_right fun ⟨hf, hg⟩ => ⟨hf, hg.lt_of_ne hne⟩)
    hglyphs

end Sys2Proof.Machine

/-! ## `SIFTDOWN` (R115) -/

namespace Sys2Proof.Machine

variable {t t' : Memory TableEntry} {n : Nat}

theorem weightAt_of_found {j : Nat} {e : TableEntry} (h : memFind t j = some e) : weightAt t j = e.freq := by
  simp [weightAt, h]

theorem weightAt_congr {i j : Nat} (h : memFind t' i = memFind t j) : weightAt t' i = weightAt t j := by
  rw [weightAt, h, weightAt]

theorem siftTarget_of_le {i : Nat} (hi : n ≤ i) (t : Memory TableEntry) : siftTarget t i n = .ok i := by
  have hpick (c : Nat) (hc : n ≤ c) : pickSmaller t n c i = .ok i := pickSmaller_eq_ok.mpr (.inl ⟨hc, rfl⟩)
  simp [siftTarget, hpick (2 * i + 1) (by omega), hpick (2 * i + 2) (by omega)]

/-- One turn of the loop (R115). -/
theorem siftLoop_of_target {turns i s : Nat} (h : siftTarget t i n = .ok s) :
    siftLoop (turns + 1) i n t = if s = i then .ok t else swapSlots t i s >>= siftLoop turns s n := by
  simp only [siftLoop, h]
  cases swapSlots t i s <;> rfl

theorem siftLoop_of_target_error {turns i : Nat} {e : Fault} (h : siftTarget t i n = .error e) :
    siftLoop (turns + 1) i n t = .error e := by
  simp only [siftLoop, h]

/-- One more turn changes nothing once the turns reach the end of the heap (log 10). -/
theorem siftLoop_succ {turns i : Nat} (h : n ≤ i + turns) (t : Memory TableEntry) :
    siftLoop (turns + 1) i n t = siftLoop turns i n t := by
  induction turns generalizing i t with
  | zero => exact (siftLoop_of_target (siftTarget_of_le h t)).trans (if_pos rfl)
  | succ turns ih =>
    cases htarget : siftTarget t i n with
    | error e => rw [siftLoop_of_target_error htarget, siftLoop_of_target_error htarget]
    | ok s =>
      rw [siftLoop_of_target htarget, siftLoop_of_target htarget]
      by_cases hs : s = i
      · rw [if_pos hs, if_pos hs]
      · have hlt : i < s := by have := siftTarget_eq_ok htarget; omega
        rw [if_neg hs, if_neg hs, funext (ih (i := s) (by omega))]

/-- The choice of one comparison of `SIFTDOWN`, by weights: the child `c` if it is in the heap and strictly lighter than `s`. -/
def lighterSlot (t : Memory TableEntry) (n c s : Nat) : Nat := if c < n ∧ weightAt t c < weightAt t s then c else s

/-- The slot `SIFTDOWN` goes to from slot `i`, by weights. -/
def lightestSlot (t : Memory TableEntry) (n i : Nat) : Nat := lighterSlot t n (2 * i + 2) (lighterSlot t n (2 * i + 1) i)

theorem lighterSlot_eq_or (t : Memory TableEntry) (n c s : Nat) :
    lighterSlot t n c s = s ∨ (lighterSlot t n c s = c ∧ c < n ∧ weightAt t c < weightAt t s) := by
  unfold lighterSlot
  split
  · exact .inr ⟨rfl, ‹_›⟩
  · exact .inl rfl

theorem weightAt_lighterSlot_le_right (t : Memory TableEntry) (n c s : Nat) :
    weightAt t (lighterSlot t n c s) ≤ weightAt t s := by
  rcases lighterSlot_eq_or t n c s with h | ⟨h, -, hlt⟩
  · rw [h]
  · rw [h]
    exact hlt.le

theorem weightAt_lighterSlot_le_left {c : Nat} (hc : c < n) (t : Memory TableEntry) (s : Nat) :
    weightAt t (lighterSlot t n c s) ≤ weightAt t c := by
  unfold lighterSlot
  split
  · exact le_rfl
  · rename_i hnot
    exact not_lt.mp fun hlt => hnot ⟨hc, hlt⟩

theorem pickSmaller_of_written {c s : Nat} (hn : n ≤ tableSlots) (hw : slotsWritten t n) (hs : s < n) :
    pickSmaller t n c s = .ok (lighterSlot t n c s) := by
  by_cases hc : c < n
  · obtain ⟨x, hx⟩ := exists_readTable hn hw hc
    obtain ⟨y, hy⟩ := exists_readTable hn hw hs
    refine pickSmaller_eq_ok.mpr (.inr ⟨hc, x, y, hx, hy, ?_⟩)
    simp [lighterSlot, hc, weightAt_of_found (readTable_eq_ok.mp hx).2, weightAt_of_found (readTable_eq_ok.mp hy).2]
  · exact pickSmaller_eq_ok.mpr (.inl ⟨not_lt.mp hc, if_neg fun h => hc h.1⟩)

theorem siftTarget_of_written {i : Nat} (hn : n ≤ tableSlots) (hw : slotsWritten t n) (hi : i < n) :
    siftTarget t i n = .ok (lightestSlot t n i) := by
  have hlt : lighterSlot t n (2 * i + 1) i < n := by
    have := lighterSlot_eq_or t n (2 * i + 1) i
    omega
  simp only [siftTarget, pickSmaller_of_written hn hw hi]
  exact pickSmaller_of_written hn hw hlt

/-- A swap of two written slots. -/
theorem swapSlots_of_written {i s : Nat} (hn : n ≤ tableSlots) (hw : slotsWritten t n) (hi : i < n) (hs : s < n) :
    ∃ t', swapSlots t i s = .ok t' ∧
      ∀ j, memFind t' j = if j = s then memFind t i else if j = i then memFind t s else memFind t j := by
  obtain ⟨x, hx⟩ := exists_readTable hn hw hi
  obtain ⟨y, hy⟩ := exists_readTable hn hw hs
  obtain ⟨hisize, hfx⟩ := readTable_eq_ok.mp hx
  obtain ⟨hssize, hfy⟩ := readTable_eq_ok.mp hy
  refine ⟨memPut (memPut t i y) s x, swapSlots_eq_ok.mpr ⟨x, y, _, hx, hy, writeTable_of_lt hisize t y,
    writeTable_of_lt hssize _ x⟩, fun j => ?_⟩
  rw [memFind_put, memFind_put, hfx, hfy]

/-- The loop of R115 as an equation of `SIFTDOWN` itself. -/
theorem siftDown_of_target {i s : Nat} (h : siftTarget t i n = .ok s) :
    siftDown i n t = if s = i then .ok t else swapSlots t i s >>= siftDown s n :=
  (siftLoop_succ (Nat.le_add_left n i) t).symm.trans (siftLoop_of_target h)

theorem siftDown_of_target_error {i : Nat} {e : Fault} (h : siftTarget t i n = .error e) : siftDown i n t = .error e :=
  (siftLoop_succ (Nat.le_add_left n i) t).symm.trans (siftLoop_of_target_error h)

/-- Settles O24: the bound is long enough for one turn more, and on a written heap the reads of each turn are weights. -/
theorem siftDownIsItsLoop : Obligations.SiftDownIsItsLoop := by
  intro i n t
  refine ⟨?loop, fun hn hw hi => ⟨siftTarget_of_written hn hw hi, fun s hs => swapSlots_of_written hn hw hi hs⟩⟩
  cases htarget : siftTarget t i n with
  | error e => exact siftDown_of_target_error htarget
  | ok s =>
    dsimp only
    rw [siftDown_of_target htarget]
    cases swapSlots t i s <;> rfl

end Sys2Proof.Machine

/-! ## `REHEAP` (R116) -/

namespace Sys2Proof.Machine

variable {t t' : Memory TableEntry} {n : Nat}

/-- The slot `SIFTDOWN` goes to is slot `i`, or a strictly lighter child of it inside the heap. -/
theorem lightestSlot_eq_or (t : Memory TableEntry) (n i : Nat) :
    lightestSlot t n i = i ∨
      ((lightestSlot t n i = 2 * i + 1 ∨ lightestSlot t n i = 2 * i + 2) ∧ lightestSlot t n i < n ∧
        weightAt t (lightestSlot t n i) < weightAt t i) := by
  unfold lightestSlot
  rcases lighterSlot_eq_or t n (2 * i + 2) (lighterSlot t n (2 * i + 1) i) with hr | ⟨hr, hrn, hrlt⟩
  · rw [hr]
    rcases lighterSlot_eq_or t n (2 * i + 1) i with hl | ⟨hl, hln, hllt⟩
    · exact .inl hl
    · rw [hl]
      exact .inr ⟨.inl rfl, hln, hllt⟩
  · rw [hr]
    exact .inr ⟨.inr rfl, hrn, hrlt.trans_le (weightAt_lighterSlot_le_right t n _ i)⟩

/-- It weighs no more than any child of slot `i` inside the heap. -/
theorem weightAt_lightestSlot_le {i j : Nat} (hj : j < n) (hj1 : 1 ≤ j) (hparent : (j - 1) / 2 = i)
    (t : Memory TableEntry) : weightAt t (lightestSlot t n i) ≤ weightAt t j := by
  rcases (by omega : j = 2 * i + 1 ∨ j = 2 * i + 2) with rfl | rfl
  · exact (weightAt_lighterSlot_le_right t n _ _).trans (weightAt_lighterSlot_le_left hj t i)
  · exact weightAt_lighterSlot_le_left hj t _

/-- The heap is in order but for slot `m`: every slot weighs no less than its parent where that is not `m`, and no less than `m`'s
parent where it is (R116). -/
structure HeapExcept (t : Memory TableEntry) (n m : Nat) : Prop where
  order : ∀ i < n, 1 ≤ i → (i - 1) / 2 ≠ m → heapAt t i
  children : ∀ i < n, 1 ≤ i → (i - 1) / 2 = m → 1 ≤ m → weightAt t ((m - 1) / 2) ≤ weightAt t i

/-- A heap in order but for a slot whose children are no lighter than it is in order. -/
theorem HeapExcept.heapOrdered {m : Nat} (h : HeapExcept t n m)
    (hm : ∀ i < n, 1 ≤ i → (i - 1) / 2 = m → weightAt t m ≤ weightAt t i) : heapOrdered t n := by
  intro i hi h1
  by_cases hparent : (i - 1) / 2 = m
  · rw [heapAt, hparent]
    exact hm i hi h1 hparent
  · exact h.order i hi h1 hparent

/-- A swap of the slot out of order with its lightest child moves the disorder to that child. -/
theorem HeapExcept.swap {m s : Nat} (h : HeapExcept t n m) (hs1 : 1 ≤ s) (hsn : s < n) (hparent : (s - 1) / 2 = m)
    (hlt : weightAt t s < weightAt t m) (hmin : ∀ j < n, 1 ≤ j → (j - 1) / 2 = m → weightAt t s ≤ weightAt t j)
    (hget : ∀ j, memFind t' j = if j = s then memFind t m else if j = m then memFind t s else memFind t j) :
    HeapExcept t' n s := by
  have hws : weightAt t' s = weightAt t m := weightAt_congr ((hget s).trans (if_pos rfl))
  have hwm : weightAt t' m = weightAt t s := weightAt_congr <| by rw [hget, if_neg (by omega), if_pos rfl]
  have hwj {j : Nat} (hjs : j ≠ s) (hjm : j ≠ m) : weightAt t' j = weightAt t j :=
    weightAt_congr <| by rw [hget, if_neg hjs, if_neg hjm]
  refine ⟨fun i hi h1 hne => ?order, fun i hi h1 hi' _ => ?children⟩
  case children =>
    have hold : heapAt t i := h.order i hi h1 (by omega)
    rwa [hparent, hwm, hwj (by omega) (by omega), ← hi']
  case order =>
    unfold heapAt
    by_cases hpm : (i - 1) / 2 = m
    · rw [hpm, hwm]
      by_cases his : i = s
      · rw [his, hws]; exact hlt.le
      · rw [hwj his (by omega)]; exact hmin i hi h1 hpm
    · rw [hwj hne hpm]
      by_cases him : i = m
      · rw [him, hwm]; exact h.children s hsn hs1 hparent (him ▸ h1)
      · rw [hwj (by omega) him]; exact h.order i hi h1 hpm

/-- Where no child inside the heap is lighter than slot `i`, `SIFTDOWN` changes nothing. -/
theorem siftDown_of_ordered {i : Nat} (hn : n ≤ tableSlots) (hw : slotsWritten t n) (hi : i < n)
    (h : ∀ j < n, 1 ≤ j → (j - 1) / 2 = i → heapAt t j) : siftDown i n t = .ok t := by
  have hstay : lightestSlot t n i = i := by
    refine (lightestSlot_eq_or t n i).resolve_right fun ⟨hchild, hlt, hlighter⟩ => ?_
    have hparent : (lightestSlot t n i - 1) / 2 = i := by omega
    have hheap : heapAt t (lightestSlot t n i) := h _ hlt (by omega) hparent
    rw [heapAt, hparent] at hheap
    exact absurd hlighter hheap.not_gt
  rw [siftDown_of_target (siftTarget_of_written hn hw hi), if_pos hstay]

/-- `SIFTDOWN` from the one slot out of order restores the heap and leaves the slots before it alone. -/
theorem siftDown_restores {m : Nat} (hn : n ≤ tableSlots) (hw : slotsWritten t n) (hm : m < n) (h : HeapExcept t n m) :
    ∃ t', siftDown m n t = .ok t' ∧ heapOrdered t' n ∧ ∀ j < m, memFind t' j = memFind t j := by
  induction hd : n - m using Nat.strong_induction_on generalizing m t with
  | _ d ih =>
    have htarget := siftTarget_of_written hn hw hm
    rcases lightestSlot_eq_or t n m with hstay | ⟨hchild, hlt, hlighter⟩
    · refine ⟨t, by rw [siftDown_of_target htarget, if_pos hstay], h.heapOrdered fun i hi h1 hparent => ?_, fun _ _ => rfl⟩
      exact hstay ▸ weightAt_lightestSlot_le hi h1 hparent t
    · obtain ⟨t1, hswap, hget⟩ := swapSlots_of_written hn hw hm hlt
      have hw1 : slotsWritten t1 n := fun j hj => by
        rw [hget]
        split_ifs
        exacts [hw m hm, hw _ hlt, hw j hj]
      obtain ⟨t2, hsift, hordered, hbelow⟩ := ih (n - lightestSlot t n m) (by omega) hw1 hlt
        (h.swap (by omega) hlt (by omega) hlighter (fun j hj h1 hp => weightAt_lightestSlot_le hj h1 hp t) hget) rfl
      refine ⟨t2, ?_, hordered, fun j hj => ?_⟩
      · rw [siftDown_of_target htarget, if_neg (by omega), hswap]
        exact hsift
      · rw [hbelow j (by omega), hget, if_neg (by omega), if_neg (by omega)]

theorem reheapFrom_succ {c : Nat} (h : siftDown c n t = .ok t') : reheapFrom (c + 1) n t = reheapFrom c n t' := by
  rw [reheapFrom, h]

/-- The pass over a heap in order changes nothing. -/
theorem reheapFrom_of_heapOrdered {c : Nat} (hn : n ≤ tableSlots) (hw : slotsWritten t n) (hc : c ≤ n)
    (h : heapOrdered t n) : reheapFrom c n t = .ok t := by
  induction c with
  | zero => rfl
  | succ c ih =>
    rw [reheapFrom_succ (siftDown_of_ordered hn hw hc fun j hj h1 _ => h j hj h1), ih (Nat.le_of_succ_le hc)]

/-- The pass over a heap in order but for slot `m` does its work at slot `m`. -/
theorem reheapFrom_of_heapExcept {c m : Nat} (hn : n ≤ tableSlots) (hw : slotsWritten t n) (hc : c ≤ n) (hm : m < c)
    (h : HeapExcept t n m) : reheapFrom c n t = siftDown m n t := by
  induction c with
  | zero => exact absurd hm (Nat.not_lt_zero m)
  | succ c ih =>
    rcases Nat.lt_succ_iff_lt_or_eq.mp hm with hlt | rfl
    · rw [reheapFrom_succ (siftDown_of_ordered hn hw hc fun j hj h1 hp => h.order j hj h1 (by omega)),
        ih (Nat.le_of_succ_le hc) hlt]
    · obtain ⟨t1, hsift, hordered, -⟩ := siftDown_restores hn hw hc h
      obtain ⟨t2, hsift', hperm⟩ := siftLoop_completes (turns := n) hn hw hc
      obtain rfl : t2 = t1 := Except.ok.inj (hsift'.symm.trans hsift)
      rw [reheapFrom_succ hsift, reheapFrom_of_heapOrdered hn (hperm.slotsWritten hw) (Nat.le_of_succ_le hc) hordered, hsift]

/-- `REHEAP` of a heap in order but for slot `m` is the one `SIFTDOWN` from there; a slot without children is in order. -/
theorem reheap_of_heapExcept {m : Nat} (hn : n ≤ tableSlots) (hw : slotsWritten t n) (hm : m < n) (h : HeapExcept t n m) :
    reheap n t = siftDown m n t := by
  rcases Nat.lt_or_ge m (n / 2) with hlt | hge
  · exact reheapFrom_of_heapExcept hn hw (Nat.div_le_self n 2) hlt h
  · have hordered : heapOrdered t n := fun i hi h1 => h.order i hi h1 (by omega)
    exact (reheapFrom_of_heapOrdered hn hw (Nat.div_le_self n 2) hordered).trans
      (siftDown_of_ordered hn hw hm fun j hj h1 _ => hordered j hj h1).symm

/-- `REHEAP` of a heap in order but for slot `m` puts it in order, permutes it and leaves the slots before `m` alone. -/
theorem reheap_restores {m : Nat} (hn : n ≤ tableSlots) (hw : slotsWritten t n) (hm : m < n) (h : HeapExcept t n m) :
    ∃ t', reheap n t = .ok t' ∧ SlotsPermuted n t t' ∧ heapOrdered t' n ∧ ∀ j < m, memFind t' j = memFind t j := by
  obtain ⟨t1, hsift, hordered, hbelow⟩ := siftDown_restores hn hw hm h
  have hreheap := (reheap_of_heapExcept hn hw hm h).trans hsift
  obtain ⟨t2, hreheap', hperm⟩ := reheap_completes hn hw
  obtain rfl : t2 = t1 := Except.ok.inj (hreheap'.symm.trans hreheap)
  exact ⟨t2, hreheap, hperm, hordered, hbelow⟩

/-- Settles O25: the pass is the one sift-down, which restores the heap. -/
theorem reheapIsOneSiftDown : Obligations.ReheapIsOneSiftDown := by
  intro t n m hn hw hm horder hchildren
  have h : HeapExcept t n m := ⟨horder, hchildren⟩
  obtain ⟨t', hreheap, hperm, hordered, -⟩ := reheap_restores hn hw hm h
  exact ⟨t', hreheap, (reheap_of_heapExcept hn hw hm h).symm.trans hreheap, hperm.slotsWritten hw, hordered,
    fun j hj => hperm.outside hj⟩

end Sys2Proof.Machine

/-! ## `MERGE_ITER` (R114): what it moves -/

namespace Sys2Proof.Machine

section SlotsPermuted

variable {t t' : Memory TableEntry} {n : Nat}

theorem SlotsPermuted.of_eq (n : Nat) (h : ∀ j, memFind t' j = memFind t j) : SlotsPermuted n t t' :=
  ⟨Equiv.refl Nat, fun _ _ => rfl, h⟩

theorem SlotsPermuted.symm (h : SlotsPermuted n t t') : SlotsPermuted n t' t := by
  obtain ⟨σ, hσ, hget⟩ := h
  refine ⟨σ.symm, fun j hj => σ.symm_apply_eq.mpr (hσ j hj).symm, fun j => ?_⟩
  rw [hget, σ.apply_symm_apply]

theorem SlotsPermuted.mono {n' : Nat} (h : SlotsPermuted n t t') (hn : n ≤ n') : SlotsPermuted n' t t' := by
  obtain ⟨σ, hσ, hget⟩ := h
  exact ⟨σ, fun j hj => hσ j (hn.trans hj), hget⟩

/-- The same entry written to a slot outside the permuted ones. -/
theorem SlotsPermuted.put {a : Nat} (h : SlotsPermuted n t t') (ha : n ≤ a) (v : TableEntry) :
    SlotsPermuted n (memPut t a v) (memPut t' a v) := by
  obtain ⟨σ, hσ, hget⟩ := h
  refine ⟨σ, hσ, fun j => ?_⟩
  have hiff : σ j = a ↔ j = a := by rw [← σ.apply_eq_iff_eq (x := j), hσ a ha]
  simp only [memFind_put, hiff, hget]

/-- Two slots with their entries exchanged. -/
theorem SlotsPermuted.swap {i j : Nat} {x y : TableEntry} (hi : i < n) (hj : j < n) (hx : memFind t i = some x)
    (hy : memFind t j = some y) : SlotsPermuted n t (memPut (memPut t i y) j x) := by
  refine ⟨Equiv.swap i j, fun k hk => Equiv.swap_apply_of_ne_of_ne (by omega) (by omega), fun k => ?_⟩
  rw [memFind_put, memFind_put, Equiv.swap_apply_def]
  split_ifs with hkj hki hki
  · rw [← hx, ← hki, hkj]
  · exact hx.symm
  · exact hy.symm
  · rfl

end SlotsPermuted

/-- What one `MERGE_ITER` does (R114): `y` is the entry of the marked slot `m`, `z` the last of the heap, which takes its place;
`x` is the root of the heap `td` after step c, `tg` the table after step e. -/
structure MergeStep (b : Builder) (m : Nat) (x y z : TableEntry) (td tg : Memory TableEntry) : Prop where
  marked : m = 1 ∨ m = 2
  found_y : memFind b.table m = some y
  found_z : memFind b.table b.heapEnd = some z
  perm_c : SlotsPermuted b.heapEnd (memPut (memPut b.table b.firstFree y) m z) td
  found_x : memFind td 0 = some x
  perm_e : SlotsPermuted b.heapEnd (memPut (memPut td b.heapEnd x) 0 (mergeNode (x.freq + y.freq) b.heapEnd b.firstFree)) tg

namespace MergeStep

variable {b : Builder} {m : Nat} {x y z : TableEntry} {td tg : Memory TableEntry}

/-- The root is parked in slot `HEAPEND`. -/
theorem parked_left (h : MergeStep b m x y z td tg) (hend : 2 ≤ b.heapEnd) : memFind tg b.heapEnd = some x := by
  rw [h.perm_e.outside le_rfl, memFind_put_ne _ _ (by omega), memFind_put_self]

/-- The marked entry is parked in slot `FIRSTFREE`. -/
theorem parked_right (h : MergeStep b m x y z td tg) (hend : 2 ≤ b.heapEnd) (hlt : b.heapEnd < b.firstFree) :
    memFind tg b.firstFree = some y := by
  have hm := h.marked
  rw [h.perm_e.outside hlt.le, memFind_put_ne _ _ (by omega), memFind_put_ne _ _ hlt.ne', h.perm_c.outside hlt.le,
    memFind_put_ne _ _ (by omega), memFind_put_self]

/-- No other slot outside the heap changes. -/
theorem outside (h : MergeStep b m x y z td tg) (hend : 2 ≤ b.heapEnd) {j : Nat} (hj : b.heapEnd < j)
    (hfree : j ≠ b.firstFree) : memFind tg j = memFind b.table j := by
  have hm := h.marked
  rw [h.perm_e.outside hj.le, memFind_put_ne _ _ (by omega), memFind_put_ne _ _ hj.ne', h.perm_c.outside hj.le,
    memFind_put_ne _ _ (by omega), memFind_put_ne _ _ hfree]

/-- The table after `MERGE_ITER` is the one before it, the merge node added in slot `FIRSTFREE`, with its slots permuted. -/
theorem permuted (h : MergeStep b m x y z td tg) (hend : 2 ≤ b.heapEnd) (hlt : b.heapEnd < b.firstFree) :
    SlotsPermuted (b.firstFree + 1)
      (memPut b.table b.firstFree (mergeNode (x.freq + y.freq) b.heapEnd b.firstFree)) tg := by
  obtain ⟨hm, hy, hz, hc, hx, he⟩ := h
  generalize mergeNode (x.freq + y.freq) b.heapEnd b.firstFree = node at *
  generalize b.heapEnd = hi at *
  generalize b.firstFree = free at *
  have hpark : SlotsPermuted (free + 1) (memPut b.table free node) (memPut (memPut (memPut b.table free y) m z) hi node) := by
    have hswap := SlotsPermuted.swap (t := memPut b.table free node) (n := free + 1) (i := m) (j := free) (by omega) (by omega)
      ((memFind_put_ne _ _ (by omega)).trans hy) (memFind_put_self _ _ _)
    by_cases hmh : m = hi
    · exact hswap.trans (.of_eq _ fun j => by grind [memFind_put])
    · have hswap' := SlotsPermuted.swap (t := memPut (memPut (memPut b.table free node) m node) free y) (n := free + 1)
        (i := m) (j := hi) (x := node) (y := z) (by omega) (by omega) (by grind [memFind_put]) (by grind [memFind_put])
      exact hswap.trans (hswap'.trans (.of_eq _ fun j => by grind [memFind_put]))
  have hroot := SlotsPermuted.swap (t := memPut td hi node) (n := free + 1) (i := 0) (j := hi) (by omega) (by omega)
    ((memFind_put_ne _ _ (by omega)).trans hx) (memFind_put_self _ _ _)
  refine hpark.trans <| ((hc.put le_rfl node).mono (by omega)).trans <| hroot.trans <| .trans (.of_eq _ fun j => ?_)
    (he.mono (by omega))
  grind [memFind_put]

end MergeStep

theorem moveSlot_found {t t' : Memory TableEntry} {dst src : Nat} (h : moveSlot t dst src = .ok t') :
    ∃ x, memFind t src = some x ∧ t' = memPut t dst x := by
  obtain ⟨x, hread, hwrite⟩ := moveSlot_eq_ok.mp h
  exact ⟨x, (readTable_eq_ok.mp hread).2, (writeTable_eq_ok.mp hwrite).2⟩

theorem mergeInto0_found {t t' : Memory TableEntry} {i j l r : Nat} (h : mergeInto0 t i j l r = .ok t') :
    ∃ x y, memFind t i = some x ∧ memFind t j = some y ∧ t' = memPut t 0 (mergeNode (x.freq + y.freq) l r) := by
  obtain ⟨x, y, hx, hy, hwrite⟩ := mergeInto0_eq_ok.mp h
  exact ⟨x, y, (readTable_eq_ok.mp hx).2, (readTable_eq_ok.mp hy).2, (writeTable_eq_ok.mp hwrite).2⟩

theorem reheap_permuted {t t' : Memory TableEntry} {n : Nat} (hn : n ≤ tableSlots) (hw : slotsWritten t n)
    (h : reheap n t = .ok t') : SlotsPermuted n t t' := by
  obtain ⟨t1, h1, hperm⟩ := reheap_completes hn hw
  exact Except.ok.inj (h1.symm.trans h) ▸ hperm

/-- `MERGE_ITER` completes by one such step when the heap is written and the cursors are in range; slot `m` is the one step a
marks, and the two passes of steps c and e are `REHEAP`s. -/
theorem mergeIter_steps {b : Builder} (hend : 2 ≤ b.heapEnd) (hlt : b.heapEnd < b.firstFree) (hfree : b.firstFree ≤ 512)
    (hw : slotsWritten b.table (b.heapEnd + 1)) :
    ∃ m x y z td tg, MergeStep b m x y z td tg ∧ markedSlot b.table = .ok m ∧
      reheap b.heapEnd (memPut (memPut b.table b.firstFree y) m z) = .ok td ∧
      reheap b.heapEnd (memPut (memPut td b.heapEnd x) 0 (mergeNode (x.freq + y.freq) b.heapEnd b.firstFree)) = .ok tg ∧
      mergeIter b = .ok { table := tg, heapEnd := b.heapEnd - 1, firstFree := b.firstFree + 1 } := by
  have hsize : b.heapEnd ≤ tableSlots := by simp only [tableSlots]; omega
  obtain ⟨_, _, _, _, _, _, -, -, -, -, -, -, hiter⟩ := mergeIter_completes hend hlt hfree hw
  obtain ⟨m, tb, tc, td, te, tf, tg, hmark, hb, hc, hd, he, hf, hg, heq⟩ := mergeIter_eq_ok.mp hiter
  have hm : m = 1 ∨ m = 2 := by
    obtain ⟨_, _, -, -, hm⟩ := markedSlot_eq_ok.mp hmark
    exact hm ▸ ite_eq_or_eq _ _ _
  obtain ⟨y, hy, rfl⟩ := moveSlot_found hb
  obtain ⟨z, hz, rfl⟩ := moveSlot_found hc
  obtain ⟨x, hx, rfl⟩ := moveSlot_found he
  obtain ⟨x', y', hx', hy', rfl⟩ := mergeInto0_found hf
  have hwc := slotsWritten_put (slotsWritten_put (fun j hj => hw j (Nat.lt_succ_of_lt hj)) b.firstFree y) m z
  have hpermc := reheap_permuted hsize hwc hd
  obtain rfl : x' = x := Option.some.inj (hx'.symm.trans (memFind_put_self _ _ _))
  obtain rfl : y' = y := by
    rw [memFind_put_ne _ _ hlt.ne', hpermc.outside hlt.le, memFind_put_ne _ _ (by omega), memFind_put_self] at hy'
    exact (Option.some.inj hy').symm
  have hperme := reheap_permuted hsize (slotsWritten_put (slotsWritten_put (hpermc.slotsWritten hwc) _ _) _ _) hg
  exact ⟨m, x', y', z, td, tg, ⟨hm, hy, (memFind_put_ne _ _ hlt.ne).symm.trans hz, hpermc, hx, hperme⟩, hmark, hd, hg,
    hiter.trans (congrArg _ heq)⟩

end Sys2Proof.Machine

/-! ## `MERGE_ITER` (R113, R114): the heap stays in order -/

namespace Sys2Proof.Machine

variable {t t' : Memory TableEntry} {n : Nat}

/-- The root of a heap in order is lightest. -/
theorem weightAt_zero_le (h : heapOrdered t n) {j : Nat} (hj : j < n) : weightAt t 0 ≤ weightAt t j := by
  induction j using Nat.strong_induction_on with
  | _ j ih =>
    rcases Nat.eq_zero_or_pos j with rfl | hpos
    · exact le_rfl
    · exact (ih ((j - 1) / 2) (by omega) (by omega)).trans (h j hj hpos)

/-- What weighs no more than the children of the root weighs no more than any slot but the root. -/
theorem le_weightAt_of_le_children {w : Nat} (h : heapOrdered t n) (h1 : w ≤ weightAt t 1) (h2 : w ≤ weightAt t 2) {j : Nat}
    (hj : j < n) (hpos : 1 ≤ j) : w ≤ weightAt t j := by
  induction j using Nat.strong_induction_on with
  | _ j ih =>
    rcases (by omega : j = 1 ∨ j = 2 ∨ 3 ≤ j) with rfl | rfl | hge
    · exact h1
    · exact h2
    · exact (ih ((j - 1) / 2) (by omega) (by omega) (by omega)).trans (h j hj hpos)

/-- The marked slot is the lighter one of slots 1 and 2, slot 1 on a tie (R114 step a). -/
theorem weightAt_markedSlot {m : Nat} (h : markedSlot t = .ok m) :
    weightAt t m ≤ weightAt t 1 ∧ weightAt t m ≤ weightAt t 2 ∧ (weightAt t 1 = weightAt t 2 → m = 1) := by
  obtain ⟨x, y, hx, hy, rfl⟩ := markedSlot_eq_ok.mp h
  rw [← weightAt_of_found (readTable_eq_ok.mp hx).2, ← weightAt_of_found (readTable_eq_ok.mp hy).2]
  split <;> omega

/-- With the last entry of the heap in place of a child of the root, at most one slot is out of order, and not the root (R116). -/
theorem heapExcept_of_replaced {m : Nat} (h : heapOrdered t (n + 1)) (hn : 2 ≤ n) (hm : m = 1 ∨ m = 2)
    (hlast : m < n → weightAt t' m = weightAt t n) (hrest : ∀ j < n, j ≠ m → weightAt t' j = weightAt t j) :
    ∃ p, 1 ≤ p ∧ p < n ∧ HeapExcept t' n p := by
  by_cases hmn : m < n
  · refine ⟨m, by omega, hmn, fun i hi hpos hne => ?_, fun i hi hpos hparent _ => ?_⟩
    · rw [heapAt, hrest _ (by omega) hne]
      by_cases him : i = m
      · rw [him, hlast hmn, show (m - 1) / 2 = 0 by omega]
        exact weightAt_zero_le h (Nat.lt_succ_self n)
      · rw [hrest i hi him]
        exact h i (Nat.lt_succ_of_lt hi) hpos
    · rw [show (m - 1) / 2 = 0 by omega, hrest 0 (by omega) (by omega), hrest i hi (by omega)]
      exact weightAt_zero_le h (Nat.lt_succ_of_lt hi)
  · have hweight (j : Nat) (hj : j < n) : weightAt t' j = weightAt t j := hrest j hj (by omega)
    refine ⟨1, le_rfl, hn, fun i hi hpos _ => ?_, fun i hi hpos hparent _ => ?_⟩
    · rw [heapAt, hweight i hi, hweight _ (by omega)]
      exact h i (Nat.lt_succ_of_lt hi) hpos
    · omega

/-- With a new entry at the root, at most the root is out of order. -/
theorem heapExcept_zero_of_put (h : heapOrdered t n) (hrest : ∀ j < n, j ≠ 0 → weightAt t' j = weightAt t j) :
    HeapExcept t' n 0 := by
  refine ⟨fun i hi hpos hne => ?_, fun i hi hpos hparent h0 => absurd h0 (by decide)⟩
  rw [heapAt, hrest i hi (by omega), hrest _ (by omega) hne]
  exact h i hi hpos

theorem heapOrdered_of_reheap {m : Nat} (hn : n ≤ tableSlots) (hw : slotsWritten t n) (hm : m < n) (h : HeapExcept t n m)
    (hreheap : reheap n t = .ok t') : heapOrdered t' n ∧ ∀ j < m, memFind t' j = memFind t j := by
  obtain ⟨t1, h1, -, hrestored⟩ := reheap_restores hn hw hm h
  exact Except.ok.inj (h1.symm.trans hreheap) ▸ hrestored

namespace MergeStep

variable {b : Builder} {m : Nat} {x y z : TableEntry} {td tg : Memory TableEntry}

/-- Step c puts the heap in order and leaves the root where it is (R114, R116). -/
theorem heap_after_c (h : MergeStep b m x y z td tg) (hend : 2 ≤ b.heapEnd) (hlt : b.heapEnd < b.firstFree)
    (hsize : b.heapEnd ≤ tableSlots) (hw : slotsWritten b.table b.heapEnd) (hordered : heapOrdered b.table (b.heapEnd + 1))
    (hc : reheap b.heapEnd (memPut (memPut b.table b.firstFree y) m z) = .ok td) :
    heapOrdered td b.heapEnd ∧ memFind b.table 0 = some x := by
  have hm := h.marked
  obtain ⟨p, hp1, hpn, hexcept⟩ := heapExcept_of_replaced (t' := memPut (memPut b.table b.firstFree y) m z) hordered hend hm
    (fun _ => by rw [weightAt_of_found (memFind_put_self _ _ _), weightAt_of_found h.found_z])
    (fun j hj hne => weightAt_congr <| by rw [memFind_put_ne _ _ hne, memFind_put_ne _ _ (by omega)])
  obtain ⟨htd, hbelow⟩ := heapOrdered_of_reheap hsize (slotsWritten_put (slotsWritten_put hw _ _) _ _) hpn hexcept hc
  refine ⟨htd, ?_⟩
  rw [← h.found_x, hbelow 0 hp1, memFind_put_ne _ _ (by omega), memFind_put_ne _ _ (by omega)]

/-- Step e puts the heap in order again, with the merge node in it. -/
theorem heap_after_e (h : MergeStep b m x y z td tg) (hend : 2 ≤ b.heapEnd) (hsize : b.heapEnd ≤ tableSlots)
    (hw : slotsWritten td b.heapEnd) (hordered : heapOrdered td b.heapEnd)
    (he : reheap b.heapEnd (memPut (memPut td b.heapEnd x) 0 (mergeNode (x.freq + y.freq) b.heapEnd b.firstFree)) = .ok tg) :
    slotsWritten tg b.heapEnd ∧ heapOrdered tg b.heapEnd ∧
      ∃ j < b.heapEnd, memFind tg j = some (mergeNode (x.freq + y.freq) b.heapEnd b.firstFree) := by
  have hwe := slotsWritten_put (slotsWritten_put hw b.heapEnd x) 0 (mergeNode (x.freq + y.freq) b.heapEnd b.firstFree)
  have hexcept := heapExcept_zero_of_put hordered fun j hj hne => weightAt_congr
    ((memFind_put_ne _ (mergeNode (x.freq + y.freq) b.heapEnd b.firstFree) hne).trans (memFind_put_ne td x hj.ne))
  obtain ⟨j, hj, heq⟩ := h.perm_e.symm.exists_source (j := 0) (by omega)
  exact ⟨h.perm_e.slotsWritten hwe, (heapOrdered_of_reheap hsize hwe (by omega) hexcept he).1, j, hj,
    heq.symm.trans (memFind_put_self _ _ _)⟩

end MergeStep

/-- Settles O26: the heap is in order after both passes; the marked slot is the lighter child of the root. -/
theorem mergeIterTakesTheTwoLightest : Obligations.MergeIterTakesTheTwoLightest := by
  intro b hend hlt hfree hw hordered
  obtain ⟨m, x, y, z, td, tg, hstep, hmark, hc, he, hiter⟩ := mergeIter_steps hend hlt hfree hw
  have hsize : b.heapEnd ≤ tableSlots := by simp only [tableSlots]; omega
  have hw' : slotsWritten b.table b.heapEnd := fun j hj => hw j (Nat.lt_succ_of_lt hj)
  obtain ⟨hle1, hle2, htie⟩ := weightAt_markedSlot hmark
  obtain ⟨htd, hroot⟩ := hstep.heap_after_c hend hlt hsize hw' hordered hc
  have hwd := hstep.perm_c.slotsWritten (slotsWritten_put (slotsWritten_put hw' _ _) _ _)
  obtain ⟨hwg, htg, hnode⟩ := hstep.heap_after_e hend hsize hwd htd he
  refine ⟨_, x, y, m, hiter, rfl, rfl, hroot, hstep.marked, hstep.found_y, htie, fun j hj1 hj => ?lightest,
    hstep.parked_left hend, hstep.parked_right hend hlt, hwg, htg, hnode, fun j hj => hstep.outside hend hj⟩
  case lightest =>
    rw [← weightAt_of_found hstep.found_y]
    exact le_weightAt_of_le_children hordered hle1 hle2 (Nat.lt_succ_of_le hj) hj1

end Sys2Proof.Machine

/-! ## The whole of `BUILD` (R110): the leaves and the merge nodes, each in one slot -/

namespace Sys2Proof.Machine

variable {t t' t0 : Memory TableEntry} {xs : List TableEntry} {k r : Nat}

theorem perm_apply_lt_iff {σ : Equiv.Perm Nat} {n : Nat} (hσ : ∀ j, n ≤ j → σ j = j) {j : Nat} : σ j < n ↔ j < n := by
  refine ⟨fun h => not_le.mp fun hj => ?_, fun h => not_le.mp fun hj => ?_⟩
  · exact absurd h (not_lt.mpr ((hσ j hj).symm ▸ hj))
  · exact absurd h (not_lt.mpr (σ.injective (hσ _ hj) ▸ hj))

/-- The node of merge `q` of a table of `k` leaves, by the weights of the two slots it parks its entries in (R114 step d). -/
def parkedMerge (t : Memory TableEntry) (k q : Nat) : TableEntry :=
  mergeNode (weightAt t (k - 1 - q) + weightAt t (k + q)) (k - 1 - q) (k + q)

/-- The leaves `xs`, and after them the merge nodes of a table of `k` leaves. -/
def placedEntry (xs : List TableEntry) (t : Memory TableEntry) (k i : Nat) : Option TableEntry :=
  if i < k then xs[i]? else some (parkedMerge t k (i - k))

/-- Slots 0 .. k + r − 1 hold the `k` leaves `xs` and the nodes of the first `r` merges, each in exactly one slot. -/
def Placed (xs : List TableEntry) (k r : Nat) (t : Memory TableEntry) : Prop :=
  ∃ σ : Equiv.Perm Nat, (∀ j, k + r ≤ j → σ j = j) ∧ ∀ j < k + r, memFind t j = placedEntry xs t k (σ j)

theorem Placed.of_leaves (h : ∀ j < k, memFind t j = xs[j]?) : Placed xs k 0 t :=
  ⟨Equiv.refl Nat, fun _ _ => rfl, fun j hj => (h j hj).trans (if_pos hj).symm⟩

/-- The node of one merge more, and the slots permuted. -/
theorem Placed.succ (h : Placed xs k r t) (hperm : SlotsPermuted (k + r + 1) (memPut t (k + r) (parkedMerge t' k r)) t')
    (hparked : ∀ q < r, parkedMerge t' k q = parkedMerge t k q) : Placed xs k (r + 1) t' := by
  obtain ⟨σ, hσ, hget⟩ := h
  obtain ⟨τ, hτ, hget'⟩ := hperm
  refine ⟨σ * τ, fun j hj => by rw [Equiv.Perm.mul_apply, hτ j hj, hσ j (by omega)], fun j hj => ?_⟩
  have hτj : τ j < k + r + 1 := (perm_apply_lt_iff hτ).mpr hj
  rw [hget', Equiv.Perm.mul_apply]
  generalize τ j = i at hτj
  rcases Nat.lt_succ_iff_lt_or_eq.mp hτj with hi | rfl
  · rw [memFind_put_ne _ _ hi.ne, hget i hi, placedEntry, placedEntry]
    have hσi : σ i < k + r := (perm_apply_lt_iff hσ).mpr hi
    split
    · rfl
    · rw [hparked _ (by omega)]
  · rw [memFind_put_self, hσ _ le_rfl, placedEntry, if_neg (by omega), Nat.add_sub_cancel_left]

theorem parkedMerge_congr {q : Nat} (hl : memFind t' (k - 1 - q) = memFind t (k - 1 - q))
    (hr : memFind t' (k + q) = memFind t (k + q)) : parkedMerge t' k q = parkedMerge t k q := by
  rw [parkedMerge, weightAt_congr hl, weightAt_congr hr, parkedMerge]

theorem parkedMerge_of_found {q : Nat} {x y : TableEntry} (hl : memFind t (k - 1 - q) = some x)
    (hr : memFind t (k + q) = some y) : parkedMerge t k q = mergeNode (x.freq + y.freq) (k - 1 - q) (k + q) := by
  rw [parkedMerge, weightAt_of_found hl, weightAt_of_found hr]

/-- The work of `BUILD` on a table `t0` after `r` merges: the leaves `xs` and the merge nodes stand in the slots written so far,
and no later slot has changed. -/
structure Growing (xs : List TableEntry) (t0 : Memory TableEntry) (k r : Nat) (b : Builder) : Prop extends Merging k r b where
  placed : Placed xs k r b.table
  frame : ∀ j, k + r ≤ j → memFind b.table j = memFind t0 j

theorem Growing.mergeIter {b : Builder} (h : Growing xs t0 k r b) (hk : k ≤ nsym) (hr : r < k - 2) :
    ∃ b', Machine.mergeIter b = .ok b' ∧ Growing xs t0 k (r + 1) b' := by
  have hk' : k ≤ 257 := hk
  have hend := h.heapEnd_eq
  have hfree := h.firstFree_eq
  have hend2 : 2 ≤ b.heapEnd := by omega
  have hlt : b.heapEnd < b.firstFree := by omega
  obtain ⟨m, x, y, z, td, tg, hstep, -, -, -, hiter⟩ := mergeIter_steps hend2 hlt (by omega) fun j hj =>
    (h.heap j (Nat.le_of_lt_succ hj)).isSome
  obtain ⟨b', hiter', hmerging⟩ := h.toMerging.mergeIter hk hr
  obtain rfl := Except.ok.inj (hiter'.symm.trans hiter)
  have hleft := hstep.parked_left hend2
  have hright := hstep.parked_right hend2 hlt
  have hperm := hstep.permuted hend2 hlt
  rw [hend] at hleft
  rw [hfree] at hright
  rw [hend, hfree, ← parkedMerge_of_found hleft hright] at hperm
  refine ⟨_, hiter, hmerging, h.placed.succ hperm fun q hq => ?parked, fun j hj => ?frame⟩
  case parked =>
    exact parkedMerge_congr (hstep.outside hend2 (by omega) (by omega)) (hstep.outside hend2 (by omega) (by omega))
  case frame => exact (hstep.outside hend2 (by omega) (by omega)).trans (h.frame j (by omega))

theorem Growing.mergeLoop {n : Nat} {b : Builder} (h : Growing xs t0 k r b) (hk : k ≤ nsym) (hn : r + n ≤ k - 2) :
    ∃ b', Machine.mergeLoop n b = .ok b' ∧ Growing xs t0 k (r + n) b' := by
  induction n generalizing r b with
  | zero => exact ⟨b, rfl, h⟩
  | succ n ih =>
    obtain ⟨b1, hb1, h1⟩ := h.mergeIter hk (by omega)
    obtain ⟨b2, hb2, h2⟩ := ih h1 (by omega)
    exact ⟨b2, by simp [Machine.mergeLoop, hb1, hb2], by rwa [Nat.add_assoc, Nat.add_comm 1 n] at h2⟩

/-- `FINAL_MERGE` parks the root `x` in slot `FIRSTFREE` and puts the last merge node in its place: the table after it is the one
before, the node added in slot `FIRSTFREE`, with its slots permuted (R117). -/
theorem finalMerge_permuted {b b' : Builder} (h : Machine.finalMerge b = .ok b') (hfree : 2 ≤ b.firstFree) :
    ∃ x y, memFind b'.table 1 = some y ∧ memFind b'.table b.firstFree = some x ∧
      (∀ j, j ≠ 0 → j ≠ b.firstFree → memFind b'.table j = memFind b.table j) ∧
      SlotsPermuted (b.firstFree + 1) (memPut b.table b.firstFree (mergeNode (y.freq + x.freq) 1 b.firstFree)) b'.table := by
  obtain ⟨ta, tb, hmove, hmerge, rfl⟩ := finalMerge_eq_ok.mp h
  obtain ⟨x, hx, rfl⟩ := moveSlot_found hmove
  obtain ⟨y, x', hy, hx', rfl⟩ := mergeInto0_found hmerge
  obtain rfl : x' = x := Option.some.inj (hx'.symm.trans (memFind_put_self _ _ _))
  refine ⟨x', y, (memFind_put_ne _ _ one_ne_zero).trans hy, (memFind_put_ne _ _ (by omega)).trans hx',
    fun j h0 hj => (memFind_put_ne _ _ h0).trans (memFind_put_ne _ _ hj), ?_⟩
  refine (SlotsPermuted.swap (i := 0) (j := b.firstFree) (by omega) (by omega) ((memFind_put_ne _ _ (by omega)).trans hx)
    (memFind_put_self _ _ _)).trans (.of_eq _ fun j => ?_)
  grind [memFind_put]

/-- What `BUILD` makes of a table `t0` and a histogram `f` of `k` present symbols (R118). -/
structure BuiltTable (f : Memory Nat) (k : Nat) (t0 t : Memory TableEntry) : Prop where
  ordered : tableOrdered t k
  placed : ∃ xs : List TableEntry, xs.Perm (presentLeaves f) ∧ Placed xs k (k - 1) t
  frame : ∀ j, 2 * k - 1 ≤ j → memFind t j = memFind t0 j

theorem Growing.finalMerge {f : Memory Nat} {b : Builder} (h : Growing xs t0 k (k - 2) b) (hk2 : 2 ≤ k) (hk : k ≤ nsym)
    (hxs : xs.Perm (presentLeaves f)) : ∃ b', Machine.finalMerge b = .ok b' ∧ BuiltTable f k t0 b'.table := by
  have hfree := h.firstFree_eq
  obtain ⟨b', hfinal, hordered⟩ := h.toMerging.finalMerge hk2 hk
  obtain ⟨x, y, hleft, hright, hsame, hperm⟩ := finalMerge_permuted hfinal (by omega)
  rw [show 1 = k - 1 - (k - 2) by omega] at hleft
  rw [hfree] at hright
  have hnode : mergeNode (y.freq + x.freq) 1 b.firstFree = parkedMerge b'.table k (k - 2) := by
    rw [parkedMerge_of_found hleft hright, hfree, show k - 1 - (k - 2) = 1 by omega]
  rw [hnode, hfree] at hperm
  have hplaced := h.placed.succ hperm fun q hq =>
    parkedMerge_congr (hsame _ (by omega) (by omega)) (hsame _ (by omega) (by omega))
  rw [show k - 2 + 1 = k - 1 by omega] at hplaced
  exact ⟨b', hfinal, hordered, ⟨xs, hxs, hplaced⟩, fun j hj =>
    (hsame j (by omega) (by omega)).trans (h.frame j (by omega))⟩

/-- The present leaves in the order of `SORT` (R112). -/
def sortedLeaves (f : Memory Nat) : List TableEntry := (presentLeaves f).insertionSort leafLe

theorem sortedLeaves_perm (f : Memory Nat) : (sortedLeaves f).Perm (presentLeaves f) :=
  List.perm_insertionSort leafLe (presentLeaves f)

/-- `MATERIALIZE` and `SORT` put the sorted leaves into slots 0 .. K − 1 and write no other slot (R111, R112). -/
theorem sortedLeaves_written {f : Memory Nat} (hk : k = presentCount f) (t0 : Memory TableEntry) :
    ∃ t1 t2, materialize f t0 = .ok t1 ∧ sortLeaves k t1 = .ok t2 ∧ (∀ j < k, memFind t2 j = (sortedLeaves f)[j]?) ∧
      ∀ j, k ≤ j → memFind t2 j = memFind t0 j := by
  have hlen : (presentLeaves f).length = k := (presentLeaves_length f).trans hk.symm
  obtain ⟨t1, hwrite, hget1, hframe1⟩ := writeSlots_zero_completes (presentLeaves_length_le f) t0
  obtain ⟨t2, hsort, hget2, hframe2⟩ :=
    sortLeaves_of_readSlots (hlen ▸ readSlots_zero_of_found (presentLeaves_length_le f) hget1)
  exact ⟨t1, t2, (materialize_eq_writeSlots f t0).trans hwrite, hsort, hget2, fun j hj =>
    (hframe2 j hj).trans (hframe1 j (hlen.trans_le hj))⟩

/-- The work of `BUILD` before the first merge. -/
theorem Growing.start {f : Memory Nat} (hk : k = presentCount f) (hget : ∀ j < k, memFind t j = (sortedLeaves f)[j]?)
    (hframe : ∀ j, k ≤ j → memFind t j = memFind t0 j) (hk1 : 1 ≤ k) :
    Growing (sortedLeaves f) t0 k 0 { table := t, heapEnd := k - 1, firstFree := k } where
  heapEnd_eq := rfl
  firstFree_eq := rfl
  heap j hj := by
    have hjk : j < k := by simp only at hj; omega
    have hlt : j < (sortedLeaves f).length := by rwa [(sortedLeaves_perm f).length_eq, presentLeaves_length, ← hk]
    have hmem := (sortedLeaves_perm f).mem_iff.mp (List.getElem_mem hlt)
    exact ⟨_, (hget j hjk).trans (List.getElem?_eq_getElem hlt), .inl (isLeafEntry_of_mem_presentLeaves hmem)⟩
  parked j hlo hhi := by simp only at hlo hhi; omega
  placed := .of_leaves hget
  frame := hframe

/-- The work of `BUILD` on a closed histogram, whatever the slots of `TABLE` held before (R110). -/
theorem buildTable_built {f : Memory Nat} (hk2 : 2 ≤ k) (hk : k = presentCount f) (t0 : Memory TableEntry) :
    ∃ b, buildTable f k t0 = .ok b ∧ BuiltTable f k t0 b.table := by
  have hkle : k ≤ nsym := hk ▸ presentCount_le_nsym f
  obtain ⟨t1, t2, hmat, hsort, hget, hframe⟩ := sortedLeaves_written hk t0
  obtain ⟨b1, hloop, hgrown⟩ :=
    (Growing.start hk hget hframe (by omega)).mergeLoop (n := k - 2) hkle (Nat.zero_add _).le
  obtain ⟨b, hfinal, hbuilt⟩ := (Nat.zero_add (k - 2) ▸ hgrown).finalMerge hk2 hkle (sortedLeaves_perm f)
  exact ⟨b, buildTable_eq_ok.mpr ⟨t1, t2, b1, hmat, hsort, hloop, hfinal⟩, hbuilt⟩

end Sys2Proof.Machine

/-! ## `BUILD` as a command (R110, R119, R120) -/

namespace Sys2Proof.Machine

variable {s : State}

theorem exec_build_of_k_lt (hp : s.phase = .counted) (hk : s.k < 2) :
    exec .build s = .next (s.withError .degenerate (encode .build)) := by
  rw [exec, execBuild, dispatch_homePhase rfl hp, if_pos hk]
  exact raiseBy_eq_next.mpr rfl

/-- `BUILD` in its own phase: its work, the cursors at 1 and `2K − 2`, phase `BUILT`. -/
theorem exec_build_of_two_le (hp : s.phase = .counted) (hk2 : 2 ≤ s.k) (hk : s.k = presentCount s.freq) :
    ∃ b : Builder, buildTable s.freq s.k s.table = .ok b ∧ BuiltTable s.freq s.k s.table b.table ∧
      exec .build s = .next { s with table := b.table, heapEnd := 1, firstFree := 2 * s.k - 2, phase := .built } := by
  obtain ⟨b, hb, hbuilt⟩ := buildTable_built hk2 hk s.table
  obtain ⟨hend, hfree⟩ := buildTable_cursors hb
  refine ⟨b, hb, hbuilt, ?_⟩
  rw [exec, execBuild, dispatch_homePhase rfl hp, if_neg (not_lt.mpr hk2), finish_map_eq_next]
  refine ⟨b, hb, ?_⟩
  rw [State.withBuilder, hend, hfree, show s.k - 1 - (s.k - 2) = 1 by omega, show s.k + (s.k - 2) = 2 * s.k - 2 by omega]
  rfl

theorem BuiltTable.slotsWritten {f : Memory Nat} {k : Nat} {t0 t : Memory TableEntry} (h : BuiltTable f k t0 t) :
    slotsWritten t (2 * k - 1) := fun j hj => (slotOrdered_iff.mp (h.ordered.1 j hj)).isSome

/-- Settles O27: the two sides of the test of `K`, and the rejection every command with a phase of its own has outside it. -/
theorem buildCompletes : Obligations.BuildCompletes := by
  intro s
  refine ⟨by decide, fun hp hk2 hk => ?builds, fun hp hk => exec_build_of_k_lt hp hk, rejectedOutside_homePhase rfl s⟩
  case builds =>
    obtain ⟨b, -, hbuilt, hexec⟩ := exec_build_of_two_le hp hk2 hk
    exact ⟨b.table, hexec, hbuilt.slotsWritten, hbuilt.frame⟩

end Sys2Proof.Machine

/-! ## The table `BUILD` leaves (R118) -/

namespace Sys2Proof.Machine

variable {f : Memory Nat} {t : Memory TableEntry} {xs : List TableEntry} {k r : Nat} {e : TableEntry}

theorem mem_presentLeaves : e ∈ presentLeaves f ↔ ∃ n ≤ 256, 0 < countAt f n ∧ e = leaf n (countAt f n) := by
  simp only [presentLeaves, List.mem_map, List.mem_filter, List.mem_range, decide_eq_true_eq, nsym, Nat.lt_succ_iff]
  exact exists_congr fun n => by rw [and_assoc, eq_comm]

/-- The leaves of different symbols have different glyphs. -/
theorem presentLeaves_glyphs_nodup (f : Memory Nat) : ((presentLeaves f).map TableEntry.glyph).Nodup := by
  rw [presentLeaves, List.map_map]
  exact (List.nodup_range.filter _).map fun m n h => Int.ofNat.inj h

theorem sum_map_filter_pos (g : Nat → Nat) (l : List Nat) : ((l.filter fun n => 0 < g n).map g).sum = (l.map g).sum := by
  induction l with
  | nil => rfl
  | cons n l ih =>
    by_cases hn : 0 < g n
    · simp [hn, ih]
    · simp [ih, Nat.eq_zero_of_not_pos hn]

/-- The leaves weigh as much as all counts together. -/
theorem presentLeaves_freq_sum (f : Memory Nat) : ((presentLeaves f).map TableEntry.freq).sum = symbolSum f := by
  have hfreq : TableEntry.freq ∘ (fun s => leaf s (countAt f s)) = countAt f := rfl
  rw [presentLeaves, List.map_map, hfreq, sum_map_filter_pos, symbolSum]

/-- Every slot holds one of the leaves or the node of one of the merges. -/
theorem Placed.cases (h : Placed xs k r t) (hlen : xs.length = k) {j : Nat} (hj : j < k + r) :
    (∃ x ∈ xs, memFind t j = some x) ∨ ∃ q < r, memFind t j = some (parkedMerge t k q) := by
  obtain ⟨σ, hσ, hget⟩ := h
  have hσj : σ j < k + r := (perm_apply_lt_iff hσ).mpr hj
  rw [hget j hj, placedEntry]
  split
  · rename_i hi
    exact .inl ⟨_, List.getElem_mem (hlen.symm ▸ hi), List.getElem?_eq_getElem _⟩
  · exact .inr ⟨σ j - k, by omega, rfl⟩

/-- One slot holds an entry with property `P` when one of the placed entries has it. -/
theorem Placed.existsUnique_slot (h : Placed xs k r t) {P : TableEntry → Prop}
    (hP : ∃! i, i < k + r ∧ ∃ e, placedEntry xs t k i = some e ∧ P e) :
    ∃! j, j < k + r ∧ ∃ e, memFind t j = some e ∧ P e := by
  obtain ⟨σ, hσ, hget⟩ := h
  refine (σ.existsUnique_congr fun j => ?_).mpr hP
  rw [perm_apply_lt_iff hσ]
  exact and_congr_right fun hj => by rw [hget j hj]

/-- The weight of a placed entry. -/
def placedWeight (xs : List TableEntry) (t : Memory TableEntry) (k i : Nat) : Nat :=
  ((placedEntry xs t k i).map TableEntry.freq).getD 0

theorem sum_placedWeight_leaves (xs : List TableEntry) (t : Memory TableEntry) :
    ∑ i ∈ Finset.range xs.length, placedWeight xs t xs.length i = (xs.map TableEntry.freq).sum := by
  rw [Finset.sum_range, ← Fin.sum_univ_fun_getElem]
  refine Finset.sum_congr rfl fun i _ => ?_
  simp [placedWeight, placedEntry]

theorem placedWeight_merge (xs : List TableEntry) (t : Memory TableEntry) (k q : Nat) :
    placedWeight xs t k (k + q) = weightAt t (k - 1 - q) + weightAt t (k + q) := by
  simp [placedWeight, placedEntry, parkedMerge, mergeNode]

/-- The slots weigh as much as the placed entries. -/
theorem Placed.sum_weightAt (h : Placed xs k r t) :
    ∑ j ∈ Finset.range (k + r), weightAt t j = ∑ i ∈ Finset.range (k + r), placedWeight xs t k i := by
  obtain ⟨σ, hσ, hget⟩ := h
  rw [← Equiv.Perm.sum_comp σ (Finset.range (k + r)) (placedWeight xs t k) fun j hj =>
    Finset.mem_coe.mpr (Finset.mem_range.mpr (not_le.mp fun hle => hj (hσ j hle)))]
  exact Finset.sum_congr rfl fun j hj => by rw [weightAt, hget j (Finset.mem_range.mp hj), placedWeight]

/-- The root weighs as much as the leaves together: every other slot's weight is counted once, in the node of its merge. -/
theorem Placed.weightAt_zero (h : Placed xs k (k - 1) t) (hk : 1 ≤ k) (hlen : xs.length = k) :
    weightAt t 0 = (xs.map TableEntry.freq).sum := by
  obtain ⟨m, rfl⟩ := Nat.exists_eq_add_of_le' hk
  have hslots := h.sum_weightAt
  have hleaves := sum_placedWeight_leaves xs t
  have hreflect := Finset.sum_range_reflect (fun q => weightAt t (q + 1)) m
  have hleft : ∑ q ∈ Finset.range m, weightAt t (m - q) = ∑ q ∈ Finset.range m, weightAt t (m - 1 - q + 1) :=
    Finset.sum_congr rfl fun q hq => by rw [show m - q = m - 1 - q + 1 by have := Finset.mem_range.mp hq; omega]
  rw [hlen] at hleaves
  simp only [Finset.sum_range_add, placedWeight_merge, Finset.sum_add_distrib, Nat.add_sub_cancel, hleaves,
    Finset.sum_range_succ' _ m] at hslots
  omega

/-- Settles O28: a leaf or a merge node in every slot; the root's weight is what is left when every other slot's weight is
counted once in a merge node. -/
theorem buildTableIsAMergeTree : Obligations.BuildTableIsAMergeTree := by
  intro s hp hk2 hk
  obtain ⟨b, -, hbuilt, hexec⟩ := exec_build_of_two_le hp hk2 hk
  obtain ⟨xs, hperm, hplaced⟩ := hbuilt.placed
  have hlen : xs.length = s.k := hperm.length_eq.trans ((presentLeaves_length s.freq).trans hk.symm)
  refine ⟨_, hexec, hbuilt.ordered, ?root, fun j hj => ?slot⟩
  case root =>
    exact (hplaced.weightAt_zero (by omega) hlen).trans
      ((hperm.map TableEntry.freq).sum_eq.trans (presentLeaves_freq_sum s.freq))
  case slot =>
    rcases hplaced.cases hlen (show j < s.k + (s.k - 1) by omega) with ⟨x, hx, hfound⟩ | ⟨q, hq, hfound⟩
    · exact ⟨x, hfound, .inl (mem_presentLeaves.mp (hperm.mem_iff.mp hx))⟩
    · obtain ⟨x, hx⟩ := Option.isSome_iff_exists.mp (hbuilt.slotsWritten (s.k - 1 - q) (by omega))
      obtain ⟨y, hy⟩ := Option.isSome_iff_exists.mp (hbuilt.slotsWritten (s.k + q) (by omega))
      exact ⟨_, hfound, .inr ⟨s.k - 1 - q, s.k + q, x, y, by omega, by omega, by omega, by omega, hx, hy,
        parkedMerge_of_found hx hy⟩⟩

/-- Everything a placed entry can be. -/
theorem placedEntry_eq_some {i : Nat} (h : placedEntry xs t k i = some e) :
    (∃ hi : i < xs.length, xs[i] = e) ∨ (k ≤ i ∧ e = parkedMerge t k (i - k)) := by
  unfold placedEntry at h
  split at h
  · exact .inl (List.getElem?_eq_some_iff.mp h)
  · exact .inr ⟨not_lt.mp ‹_›, (Option.some.inj h).symm⟩

/-- One placed entry has the glyph of a leaf: the glyphs of the leaves are distinct, and a merge node has none. -/
theorem existsUnique_placedEntry_glyph (hlen : xs.length = k) (hnodup : (xs.map TableEntry.glyph).Nodup) {x : TableEntry}
    (hx : x ∈ xs) (hleaf : 0 ≤ x.glyph) :
    ∃! i, i < k + r ∧ ∃ e, placedEntry xs t k i = some e ∧ e.glyph = x.glyph := by
  obtain ⟨i, hi, rfl⟩ := List.mem_iff_getElem.mp hx
  refine ⟨i, ⟨by omega, xs[i], (if_pos (hlen ▸ hi)).trans (List.getElem?_eq_getElem hi), rfl⟩, ?_⟩
  rintro j ⟨-, e, he, hglyph⟩
  rcases placedEntry_eq_some he with ⟨hj, rfl⟩ | ⟨-, rfl⟩
  · have hi' : i < (xs.map TableEntry.glyph).length := by rwa [List.length_map]
    have hj' : j < (xs.map TableEntry.glyph).length := by rwa [List.length_map]
    exact (hnodup.getElem_inj_iff (hi := hj') (hj := hi')).mp (by rw [List.getElem_map, List.getElem_map, hglyph])
  · exact absurd hglyph (by simp only [parkedMerge, mergeNode]; omega)

/-- One placed entry has slot `j` as a child: the node of the merge that parks an entry in `j` (R114). -/
theorem existsUnique_placedEntry_child (hlen : xs.length = k) (hleaf : ∀ x ∈ xs, isLeafEntry x) {j : Nat} (hj : 1 ≤ j)
    (hjk : j < 2 * k - 1) :
    ∃! i, i < k + (k - 1) ∧ ∃ e, placedEntry xs t k i = some e ∧ (e.left = Int.ofNat j ∨ e.right = Int.ofNat j) := by
  have hchild (q : Nat) (hq : q < k - 1) : k - 1 - q = j ∨ k + q = j ↔ q = slotRank k j := by
    unfold slotRank
    split <;> omega
  have hrank : slotRank k j < k - 1 := by unfold slotRank; split <;> omega
  refine ⟨k + slotRank k j, ⟨by omega, parkedMerge t k (slotRank k j), ?_, ?_⟩, ?_⟩
  · rw [placedEntry, if_neg (by omega), Nat.add_sub_cancel_left]
  · exact ((hchild _ hrank).mpr rfl).imp (congrArg Int.ofNat) (congrArg Int.ofNat)
  · rintro i ⟨hi, e, he, hej⟩
    rcases placedEntry_eq_some he with ⟨hi', rfl⟩ | ⟨hki, rfl⟩
    · obtain ⟨hl, hr, -⟩ := hleaf _ (List.getElem_mem hi')
      simp only [hl, hr, Int.ofNat_eq_natCast] at hej
      omega
    · have hq : i - k = slotRank k j := (hchild (i - k) (by omega)).mp (hej.imp Int.ofNat.inj Int.ofNat.inj)
      omega

/-- Settles O29: each statement about the slots is one about the placed entries, of which the slots are a permutation. -/
theorem buildPlacesEveryLeafOnce : Obligations.BuildPlacesEveryLeafOnce := by
  intro s t hp hk2 hk hexec
  obtain ⟨b, -, hbuilt, hexec'⟩ := exec_build_of_two_le hp hk2 hk
  obtain rfl := Host.Outcome.next.inj (hexec'.symm.trans hexec)
  obtain ⟨xs, hperm, hplaced⟩ := hbuilt.placed
  have hlen : xs.length = s.k := hperm.length_eq.trans ((presentLeaves_length s.freq).trans hk.symm)
  have hmem {x : TableEntry} (hx : x ∈ xs) := mem_presentLeaves.mp (hperm.mem_iff.mp hx)
  have hnodup := (hperm.map TableEntry.glyph).nodup_iff.mpr (presentLeaves_glyphs_nodup s.freq)
  have hslots : 2 * s.k - 1 = s.k + (s.k - 1) := by omega
  simp only [hslots]
  refine ⟨fun n hn hpos => ?present, fun n hn hzero j hj e he hglyph => ?absent, fun j hj1 hj => ?child,
    fun i hi e he => ?root⟩
  case present =>
    have hx : leaf n (countAt s.freq n) ∈ xs := hperm.mem_iff.mpr (mem_presentLeaves.mpr ⟨n, hn, hpos, rfl⟩)
    exact hplaced.existsUnique_slot (existsUnique_placedEntry_glyph hlen hnodup hx (Int.natCast_nonneg n))
  case absent =>
    rcases hplaced.cases hlen hj with ⟨x, hx, hfound⟩ | ⟨q, -, hfound⟩
    · obtain ⟨m, -, hpos, hleaf⟩ := hmem hx
      obtain rfl : e = leaf m _ := (Option.some.inj (he.symm.trans hfound)).trans hleaf
      obtain rfl : m = n := Int.ofNat.inj hglyph
      omega
    · obtain rfl : e = parkedMerge _ _ _ := Option.some.inj (he.symm.trans hfound)
      cases hglyph
  case child =>
    exact hplaced.existsUnique_slot (existsUnique_placedEntry_child hlen
      (fun x hx => isLeafEntry_of_mem_presentLeaves (hperm.mem_iff.mp hx)) hj1 (by omega))
  case root =>
    rcases hplaced.cases hlen hi with ⟨x, hx, hfound⟩ | ⟨q, hq, hfound⟩
    · obtain ⟨m, -, -, hleaf⟩ := hmem hx
      obtain rfl : e = leaf m _ := (Option.some.inj (he.symm.trans hfound)).trans hleaf
      simp [leaf]
    · obtain rfl : e = parkedMerge _ _ _ := Option.some.inj (he.symm.trans hfound)
      simp only [parkedMerge, mergeNode, Int.ofNat_eq_natCast]
      omega

end Sys2Proof.Machine

/-! ## The table is a function of the histogram (R110) -/

namespace Sys2Proof.Machine

variable {t t' u u' : Memory TableEntry} {N n : Nat}

/-- Two tables hold the same in slots 0 .. N − 1. -/
def SameSlots (N : Nat) (t u : Memory TableEntry) : Prop := ∀ j < N, memFind t j = memFind u j

theorem SameSlots.put (h : SameSlots N t u) (a : Nat) (v : TableEntry) : SameSlots N (memPut t a v) (memPut u a v) := by
  intro j hj
  rw [memFind_put, memFind_put, h j hj]

/-- The same entry written to the next slot. -/
theorem SameSlots.put_next (h : SameSlots N t u) (v : TableEntry) : SameSlots (N + 1) (memPut t N v) (memPut u N v) := by
  intro j hj
  rw [memFind_put, memFind_put]
  split
  · rfl
  · exact h j (by omega)

theorem SameSlots.readTable_eq (h : SameSlots N t u) {i : Nat} (hi : i < N) : readTable t i = readTable u i := by
  rw [readTable, readTable, memRead, memRead, h i hi]

theorem SameSlots.moveSlot_eq_put (h : SameSlots N t u) {dst src : Nat} (hsrc : src < N) (ht : moveSlot t dst src = .ok t')
    (hu : moveSlot u dst src = .ok u') : ∃ x, t' = memPut t dst x ∧ u' = memPut u dst x := by
  obtain ⟨x, hx, rfl⟩ := moveSlot_found ht
  obtain ⟨x', hx', rfl⟩ := moveSlot_found hu
  obtain rfl : x' = x := Option.some.inj (hx'.symm.trans ((h src hsrc).symm.trans hx))
  exact ⟨x', rfl, rfl⟩

theorem SameSlots.moveSlot (h : SameSlots N t u) {dst src : Nat} (hsrc : src < N) (ht : moveSlot t dst src = .ok t')
    (hu : moveSlot u dst src = .ok u') : SameSlots N t' u' := by
  obtain ⟨x, rfl, rfl⟩ := h.moveSlot_eq_put hsrc ht hu
  exact h.put dst x

theorem SameSlots.moveSlot_next (h : SameSlots N t u) {src : Nat} (hsrc : src < N)
    (ht : Machine.moveSlot t N src = .ok t') (hu : Machine.moveSlot u N src = .ok u') : SameSlots (N + 1) t' u' := by
  obtain ⟨x, rfl, rfl⟩ := h.moveSlot_eq_put hsrc ht hu
  exact h.put_next x

theorem SameSlots.mergeInto0 (h : SameSlots N t u) {i j l r : Nat} (hi : i < N) (hj : j < N)
    (ht : mergeInto0 t i j l r = .ok t') (hu : mergeInto0 u i j l r = .ok u') : SameSlots N t' u' := by
  obtain ⟨x, y, hx, hy, rfl⟩ := mergeInto0_found ht
  obtain ⟨x', y', hx', hy', rfl⟩ := mergeInto0_found hu
  obtain rfl : x' = x := Option.some.inj (hx'.symm.trans ((h i hi).symm.trans hx))
  obtain rfl : y' = y := Option.some.inj (hy'.symm.trans ((h j hj).symm.trans hy))
  exact h.put 0 _

theorem SameSlots.swapSlots (h : SameSlots N t u) {i j : Nat} (hi : i < N) (hj : j < N) (ht : swapSlots t i j = .ok t')
    (hu : swapSlots u i j = .ok u') : SameSlots N t' u' := by
  obtain ⟨x, y, t1, hx, hy, ht1, ht'⟩ := swapSlots_eq_ok.mp ht
  obtain ⟨x', y', u1, hx', hy', hu1, hu'⟩ := swapSlots_eq_ok.mp hu
  obtain rfl : x' = x := Except.ok.inj (hx'.symm.trans ((h.readTable_eq hi).symm.trans hx))
  obtain rfl : y' = y := Except.ok.inj (hy'.symm.trans ((h.readTable_eq hj).symm.trans hy))
  obtain ⟨-, rfl⟩ := writeTable_eq_ok.mp ht1
  obtain ⟨-, rfl⟩ := writeTable_eq_ok.mp hu1
  obtain ⟨-, rfl⟩ := writeTable_eq_ok.mp ht'
  obtain ⟨-, rfl⟩ := writeTable_eq_ok.mp hu'
  exact (h.put i _).put j _

theorem SameSlots.markedSlot_eq (h : SameSlots N t u) (hN : 2 < N) : markedSlot t = markedSlot u := by
  rw [markedSlot, markedSlot, h.readTable_eq (by omega : 1 < N), h.readTable_eq hN]

theorem SameSlots.pickSmaller_eq (h : SameSlots N t u) (hn : n ≤ N) {s : Nat} (hs : s < N) (c : Nat) :
    pickSmaller t n c s = pickSmaller u n c s := by
  unfold pickSmaller
  split
  · rw [h.readTable_eq (by omega : c < N), h.readTable_eq hs]
  · rfl

theorem SameSlots.siftTarget_eq (h : SameSlots N t u) (hn : n ≤ N) {i : Nat} (hi : i < N) :
    siftTarget t i n = siftTarget u i n := by
  rw [siftTarget, siftTarget, ← h.pickSmaller_eq hn hi]
  cases hpick : pickSmaller t n (2 * i + 1) i with
  | error e => rfl
  | ok s =>
    have hs : s < N := by
      rcases pickSmaller_eq_ok.mp hpick with ⟨-, rfl⟩ | ⟨hc, _, _, -, -, hs⟩
      · exact hi
      · rw [hs]
        split <;> omega
    exact h.pickSmaller_eq hn hs _

theorem SameSlots.siftLoop (h : SameSlots N t u) (hn : n ≤ N) {turns i : Nat} (hi : i < N)
    (ht : siftLoop turns i n t = .ok t') (hu : siftLoop turns i n u = .ok u') : SameSlots N t' u' := by
  induction turns generalizing i t u with
  | zero =>
    cases ht
    cases hu
    exact h
  | succ turns ih =>
    cases htarget : siftTarget t i n with
    | error e => cases (siftLoop_of_target_error htarget).symm.trans ht
    | ok s =>
      rw [siftLoop_of_target htarget] at ht
      rw [siftLoop_of_target ((h.siftTarget_eq hn hi).symm.trans htarget)] at hu
      by_cases hsi : s = i
      · rw [if_pos hsi] at ht hu
        cases ht
        cases hu
        exact h
      · rw [if_neg hsi] at ht hu
        obtain ⟨t1, hswap, ht1⟩ := except_bind_eq_ok.mp ht
        obtain ⟨u1, hswap', hu1⟩ := except_bind_eq_ok.mp hu
        have hs : s < N := by have := siftTarget_eq_ok htarget; omega
        exact ih (h.swapSlots hi hs hswap hswap') hs ht1 hu1

theorem reheapFrom_succ_eq_ok {c : Nat} :
    reheapFrom (c + 1) n t = .ok t' ↔ ∃ t1, siftDown c n t = .ok t1 ∧ reheapFrom c n t1 = .ok t' := by
  rw [reheapFrom]
  cases siftDown c n t <;> simp

theorem SameSlots.reheapFrom (h : SameSlots N t u) (hn : n ≤ N) {c : Nat} (hc : c ≤ N)
    (ht : reheapFrom c n t = .ok t') (hu : reheapFrom c n u = .ok u') : SameSlots N t' u' := by
  induction c generalizing t u with
  | zero =>
    cases ht
    cases hu
    exact h
  | succ c ih =>
    obtain ⟨t1, hsift, ht1⟩ := reheapFrom_succ_eq_ok.mp ht
    obtain ⟨u1, hsift', hu1⟩ := reheapFrom_succ_eq_ok.mp hu
    exact ih (h.siftLoop hn hc hsift hsift') (Nat.le_of_succ_le hc) ht1 hu1

theorem SameSlots.reheap (h : SameSlots N t u) (hn : n ≤ N) (ht : reheap n t = .ok t') (hu : reheap n u = .ok u') :
    SameSlots N t' u' := h.reheapFrom hn ((Nat.div_le_self n 2).trans hn) ht hu

/-- Two builders at the same point, with the same in the slots written so far. -/
structure SameWork (b c : Builder) : Prop where
  heapEnd_eq : c.heapEnd = b.heapEnd
  firstFree_eq : c.firstFree = b.firstFree
  slots : SameSlots b.firstFree b.table c.table

theorem SameWork.mergeIter {b c b' c' : Builder} (h : SameWork b c) (hend : 2 ≤ b.heapEnd) (hlt : b.heapEnd < b.firstFree)
    (hb : mergeIter b = .ok b') (hc : mergeIter c = .ok c') : SameWork b' c' := by
  obtain ⟨u, cEnd, cFree⟩ := c
  obtain ⟨rfl, rfl, hslots⟩ := h
  obtain ⟨m, tb, tc, td, te, tf, tg, hmark, htb, htc, htd, hte, htf, htg, rfl⟩ := mergeIter_eq_ok.mp hb
  obtain ⟨m', ub, uc, ud, ue, uf, ug, hmark', hub, huc, hud, hue, huf, hug, rfl⟩ := mergeIter_eq_ok.mp hc
  obtain rfl : m' = m := Except.ok.inj (hmark'.symm.trans ((hslots.markedSlot_eq (by omega)).symm.trans hmark))
  have hm : m' < b.firstFree := by
    obtain ⟨_, _, -, -, hm⟩ := markedSlot_eq_ok.mp hmark
    split at hm <;> omega
  have hheap : b.heapEnd ≤ b.firstFree + 1 := by omega
  have sb := hslots.moveSlot_next hm htb hub
  have sc := sb.moveSlot (Nat.lt_succ_of_lt hlt) htc huc
  have sd := sc.reheap hheap htd hud
  have se := sd.moveSlot (Nat.succ_pos _) hte hue
  have sf := se.mergeInto0 (Nat.lt_succ_of_lt hlt) (Nat.lt_succ_self _) htf huf
  exact ⟨rfl, rfl, sf.reheap hheap htg hug⟩

theorem mergeLoop_succ_eq_ok {b b' : Builder} :
    mergeLoop (n + 1) b = .ok b' ↔ ∃ b1, mergeIter b = .ok b1 ∧ mergeLoop n b1 = .ok b' := by
  rw [mergeLoop]
  cases mergeIter b <;> simp

/-- The cursors after one iteration (R114 step f). -/
theorem mergeIter_cursors {b b' : Builder} (h : mergeIter b = .ok b') :
    b'.heapEnd = b.heapEnd - 1 ∧ b'.firstFree = b.firstFree + 1 :=
  mergeLoop_cursors (n := 1) (mergeLoop_succ_eq_ok.mpr ⟨b', h, rfl⟩)

theorem SameWork.mergeLoop {b c b' c' : Builder} (h : SameWork b c) (hend : n + 1 ≤ b.heapEnd) (hlt : b.heapEnd < b.firstFree)
    (hb : mergeLoop n b = .ok b') (hc : mergeLoop n c = .ok c') : SameWork b' c' := by
  induction n generalizing b c with
  | zero =>
    cases hb
    cases hc
    exact h
  | succ n ih =>
    obtain ⟨b1, hb1, hb'⟩ := mergeLoop_succ_eq_ok.mp hb
    obtain ⟨c1, hc1, hc'⟩ := mergeLoop_succ_eq_ok.mp hc
    obtain ⟨hend1, hfree1⟩ := mergeIter_cursors hb1
    exact ih (h.mergeIter (by omega) hlt hb1 hc1) (by omega) (by omega) hb' hc'

theorem SameWork.finalMerge {b c b' c' : Builder} (h : SameWork b c) (hfree : 2 ≤ b.firstFree) (hb : finalMerge b = .ok b')
    (hc : finalMerge c = .ok c') : SameSlots (b.firstFree + 1) b'.table c'.table := by
  obtain ⟨u, cEnd, cFree⟩ := c
  obtain ⟨rfl, rfl, hslots⟩ := h
  obtain ⟨ta, tb, hta, htb, rfl⟩ := finalMerge_eq_ok.mp hb
  obtain ⟨ua, ub, hua, hub, rfl⟩ := finalMerge_eq_ok.mp hc
  exact (hslots.moveSlot_next (by omega) hta hua).mergeInto0 (by omega) (by omega) htb hub

/-- The sorted leaves stand in the same slots whatever the table held before. -/
theorem sortedLeaves_sameSlots {f : Memory Nat} {k : Nat} {t0 t1 t2 u0 u1 u2 : Memory TableEntry} (hk : k = presentCount f)
    (ht1 : materialize f t0 = .ok t1) (ht2 : sortLeaves k t1 = .ok t2) (hu1 : materialize f u0 = .ok u1)
    (hu2 : sortLeaves k u1 = .ok u2) : SameSlots k t2 u2 := by
  have hget {v0 v1 v2 : Memory TableEntry} (hv1 : materialize f v0 = .ok v1) (hv2 : sortLeaves k v1 = .ok v2) :
      ∀ j < k, memFind v2 j = (sortedLeaves f)[j]? := by
    obtain ⟨w1, w2, hw1, hw2, hget, -⟩ := sortedLeaves_written hk v0
    obtain rfl := Except.ok.inj (hw1.symm.trans hv1)
    obtain rfl := Except.ok.inj (hw2.symm.trans hv2)
    exact hget
  exact fun j hj => (hget ht1 ht2 j hj).trans (hget hu1 hu2 j hj).symm

/-- The work of `BUILD` reads no slot that it has not written. -/
theorem buildTable_sameSlots {f : Memory Nat} {k : Nat} {t0 u0 : Memory TableEntry} {b c : Builder} (hk2 : 2 ≤ k)
    (hk : k = presentCount f) (hb : buildTable f k t0 = .ok b) (hc : buildTable f k u0 = .ok c) :
    SameSlots (2 * k - 1) b.table c.table := by
  obtain ⟨t1, t2, b1, hmat, hsort, hloop, hfinal⟩ := buildTable_eq_ok.mp hb
  obtain ⟨u1, u2, c1, hmat', hsort', hloop', hfinal'⟩ := buildTable_eq_ok.mp hc
  have hstart : SameWork { table := t2, heapEnd := k - 1, firstFree := k } { table := u2, heapEnd := k - 1, firstFree := k } :=
    ⟨rfl, rfl, sortedLeaves_sameSlots hk hmat hsort hmat' hsort'⟩
  have hmerged : SameWork b1 c1 := hstart.mergeLoop (by simp only; omega) (by simp only; omega) hloop hloop'
  have hfree : b1.firstFree + 1 = 2 * k - 1 := by
    have hcursors := mergeLoop_cursors hloop
    simp only at hcursors
    omega
  exact hfree ▸ hmerged.finalMerge (by omega) hfinal hfinal'

/-- Settles O30: the two runs of the work of `BUILD` have the same in every slot they have written, step by step. -/
theorem tableDependsOnHistogramOnly : Obligations.TableDependsOnHistogramOnly := by
  intro s s' t t' hp hp' hfreq hk hk2 hcount hexec hexec'
  obtain ⟨b, hb, -, hbuild⟩ := exec_build_of_two_le hp hk2 hcount
  obtain ⟨c, hc, -, hbuild'⟩ := exec_build_of_two_le hp' (hk ▸ hk2) (hk ▸ hfreq ▸ hcount)
  obtain rfl := Host.Outcome.next.inj (hbuild.symm.trans hexec)
  obtain rfl := Host.Outcome.next.inj (hbuild'.symm.trans hexec')
  rw [← hfreq, ← hk] at hc
  exact buildTable_sameSlots hk2 hcount hb hc

end Sys2Proof.Machine

/-! ## An empty input (R119, R176) -/

namespace Sys2Proof.Machine

variable {s t : State}

theorem exec_name_of_nameLen_lt (d : Byte) (hp : s.phase = .load) (hn : s.nameLen < s.cfg.nameMax) :
    exec (.name d) s = .next (s.withName (memPut s.nameBuf s.nameLen d) (s.nameLen + 1)) := by
  have hwrite : writeName s.cfg s.nameBuf s.nameLen d = .ok (memPut s.nameBuf s.nameLen d) := memWrite_eq_ok.mpr ⟨hn, rfl⟩
  rw [exec, execName, dispatch_homePhase rfl hp, if_neg hn.ne, hwrite]
  rfl

theorem execAll_cons {i : Instr} (is : List Instr) (h : exec i s = .next t) : execAll (i :: is) s = execAll is t := by
  rw [execAll, h]

/-- The bytes of a name that fits leave `FREQ`, `OUT` and the phase as they are. -/
theorem execAll_names (n : List Byte) (is : List Instr) (hp : s.phase = .load) (hn : s.nameLen + n.length ≤ s.cfg.nameMax) :
    ∃ t, execAll (n.map .name ++ is) s = execAll is t ∧ t.phase = .load ∧ t.freq = s.freq ∧ t.out = s.out := by
  induction n generalizing s with
  | nil => exact ⟨s, rfl, hp, rfl, rfl⟩
  | cons d n ih =>
    rw [List.length_cons] at hn
    obtain ⟨t, ht, hpt, hfreq, hout⟩ :=
      ih (s := s.withName (memPut s.nameBuf s.nameLen d) (s.nameLen + 1)) hp (by simp; omega)
    exact ⟨t, (execAll_cons _ (exec_name_of_nameLen_lt d hp (by omega))).trans ht, hpt, hfreq, hout⟩

/-- Phase `ERROR` ignores every list of commands without a `CLR` (60_exceptions.md R174). -/
theorem execAll_of_phase_error (is : List Instr) (hp : s.phase = .error) (hclr : .clr ∉ is) : execAll is s = .next s := by
  induction is with
  | nil => rfl
  | cons i is ih =>
    obtain ⟨hi, his⟩ := not_or.mp (mt List.mem_cons.mpr hclr)
    exact (execAll_cons is (exec_of_phase_error hp (Ne.symm hi))).trans (ih his)

/-- Settles O45: `EOP` finds the end-of-stream symbol alone, `BUILD` raises `DEGENERATE`, and the rest is ignored. -/
theorem emptyInputEndsInError : Obligations.EmptyInputEndsInError := by
  intro s n hn
  obtain ⟨t, hnames, hp, hfreq, hout⟩ :=
    execAll_names (s := s.cleared) n [.eop, .build, .walk, .hdr, .fin] rfl ((Nat.zero_add _).trans_le hn)
  have hprogram : expand (.compress n []) = .clr :: (n.map .name ++ [.eop, .build, .walk, .hdr, .fin]) := by simp [expand]
  have hk : presentCount (setCount t.freq eos 1) < 2 := by
    rw [hfreq, State.cleared_freq, presentCount_setCount_eos, presentBytes_eq_zero_iff.mpr fun m _ => countAt_nil m]
    decide
  have hword : encode .build = 0x5000#16 := by decide
  rw [hprogram, execAll_cons _ (exec_clr s), hnames, execAll_cons _ (exec_eop_of_load hp),
    execAll_cons _ (exec_build_of_k_lt rfl hk), execAll_of_phase_error _ rfl (by decide)]
  exact ⟨_, rfl, rfl, rfl, hword, hout⟩

end Sys2Proof.Machine

/-! # The Code Generator (42_code_generator.md) -/

/-! ## The paths of a code tree (R131, R132) -/

namespace Sys2Proof.Machine.CodeTree

variable {tree l r : CodeTree} {p : List Bool} {e : Nat × List Bool}

@[simp] theorem mem_paths_leaf {n : Nat} : e ∈ (leaf n).paths p ↔ e = (n, p) := List.mem_singleton

@[simp] theorem mem_paths_node :
    e ∈ (node l r).paths p ↔ e ∈ l.paths (p ++ [false]) ∨ e ∈ r.paths (p ++ [true]) := List.mem_append

/-- The paths lead to the leaves, in their order. -/
theorem map_fst_paths (tree : CodeTree) (p : List Bool) : (tree.paths p).map Prod.fst = tree.symbols := by
  induction tree generalizing p with
  | leaf n => rfl
  | node l r ihl ihr => rw [paths, List.map_append, ihl, ihr, symbols]

theorem prefix_of_mem_paths (h : e ∈ tree.paths p) : p <+: e.2 := by
  induction tree generalizing p with
  | leaf n => rw [mem_paths_leaf.mp h]
  | node l r ihl ihr =>
    rcases mem_paths_node.mp h with h | h
    · exact (List.prefix_append p _).trans (ihl h)
    · exact (List.prefix_append p _).trans (ihr h)

theorem length_le_of_mem_paths (h : e ∈ tree.paths p) : e.2.length ≤ p.length + tree.depth := by
  induction tree generalizing p with
  | leaf n => rw [mem_paths_leaf.mp h, depth, Nat.add_zero]
  | node l r ihl ihr =>
    rw [depth]
    rcases mem_paths_node.mp h with h | h
    · have hle := ihl h
      rw [List.length_append, List.length_singleton] at hle
      omega
    · have hle := ihr h
      rw [List.length_append, List.length_singleton] at hle
      omega

/-- A path through a merge node takes a step. -/
theorem length_lt_of_mem_paths_node (h : e ∈ (node l r).paths p) : p.length < e.2.length := by
  rcases mem_paths_node.mp h with h | h <;> simpa using (prefix_of_mem_paths h).length_le

/-- Two bit strings that go apart after `p` are no prefixes of each other. -/
theorem not_prefix_of_branch {x y : Bool} {a b : List Bool} (hxy : x ≠ y) (ha : p ++ [x] <+: a) (hb : p ++ [y] <+: b) :
    ¬ a <+: b := by
  intro hab
  have hbranch : p ++ [x] <+: p ++ [y] := List.prefix_of_prefix_length_le (ha.trans hab) hb (by simp)
  exact hxy (by simpa using hbranch.eq_of_length (by simp))

/-- The paths are prefix-free (R132(a)): two of them go apart at the node where they take different sides. -/
theorem eq_of_prefix_of_mem_paths {a b : Nat × List Bool} (ha : a ∈ tree.paths p) (hb : b ∈ tree.paths p)
    (hab : a.2 <+: b.2) : a = b := by
  induction tree generalizing p with
  | leaf n => rw [mem_paths_leaf.mp ha, mem_paths_leaf.mp hb]
  | node l r ihl ihr =>
    rcases mem_paths_node.mp ha with ha | ha <;> rcases mem_paths_node.mp hb with hb | hb
    · exact ihl ha hb
    · exact absurd hab (not_prefix_of_branch (by decide) (prefix_of_mem_paths ha) (prefix_of_mem_paths hb))
    · exact absurd hab (not_prefix_of_branch (by decide) (prefix_of_mem_paths ha) (prefix_of_mem_paths hb))
    · exact ihr ha hb

/-- The Kraft sum of the paths below `p` (R132(d)): each side of a node has half of the node's share. -/
theorem kraftSum_paths {bound : Nat} (h : p.length + tree.depth ≤ bound) :
    ((tree.paths p).map fun e => 2 ^ (bound - e.2.length)).sum = 2 ^ (bound - p.length) := by
  induction tree generalizing p with
  | leaf n => simp [paths]
  | node l r ihl ihr =>
    rw [depth] at h
    rw [paths, List.map_append, List.sum_append, ihl (by simp; omega), ihr (by simp; omega), List.length_append,
      List.length_append, List.length_singleton, List.length_singleton, ← two_mul, ← pow_succ']
    congr 1
    omega

end Sys2Proof.Machine.CodeTree

/-! ## The codes the walk records (R130) -/

namespace Sys2Proof.Machine

variable {c c' : Codes} {e : Nat × List Bool} {es : List (Nat × List Bool)} {n : Nat} {p : List Bool}

/-- The code memories with one symbol's code recorded. -/
def Codes.record (c : Codes) (e : Nat × List Bool) : Codes :=
  { codeLen := setCount c.codeLen e.1 e.2.length, codeBits := memPut c.codeBits e.1 e.2 }

/-- The code memories with a list of codes recorded, one after the other. -/
def Codes.recordAll (c : Codes) (es : List (Nat × List Bool)) : Codes := es.foldl Codes.record c

theorem recordCode_ofNat_eq_ok : recordCode c (Int.ofNat n) p = .ok c' ↔ n ≤ 256 ∧ c' = c.record (n, p) := by
  by_cases hn : n ≤ 256
  · simp [recordCode, nsym, Codes.record, Nat.lt_succ_iff, hn, eq_comm]
  · simp [recordCode, nsym, Nat.lt_succ_iff, hn]

/-- What the two code memories hold for a symbol. -/
def Codes.entryAt (c : Codes) (n : Nat) : Nat × Option (List Bool) := (countAt c.codeLen n, memFind c.codeBits n)

/-- The indices of `CODELEN` rise: the part of the canonical form that a read after a write needs. -/
abbrev Codes.lenRising (c : Codes) : Prop := c.codeLen.Pairwise fun x y => x.1 < y.1

theorem Codes.lenRising_record (hc : c.lenRising) (e : Nat × List Bool) : (c.record e).lenRising := by
  unfold Codes.lenRising Codes.record setCount
  split
  · exact memErase_rising _ hc
  · exact memPut_rising _ _ hc

theorem Codes.entryAt_record (hc : c.lenRising) (e : Nat × List Bool) (n : Nat) :
    (c.record e).entryAt n = if n = e.1 then (e.2.length, some e.2) else c.entryAt n := by
  rw [entryAt, record, countAt_setCount hc, memFind_put]
  split <;> rfl

/-- A symbol none of the codes is for keeps its entries. -/
theorem Codes.entryAt_recordAll_of_notMem (hc : c.lenRising) (hn : n ∉ es.map Prod.fst) :
    (c.recordAll es).entryAt n = c.entryAt n := by
  induction es generalizing c with
  | nil => rfl
  | cons e es ih =>
    obtain ⟨hne, hes⟩ := not_or.mp (mt List.mem_cons.mpr hn)
    exact (ih (lenRising_record hc e) hes).trans ((entryAt_record hc e n).trans (if_neg hne))

/-- A symbol that some of the codes are for ends with one of them. -/
theorem Codes.exists_entryAt_recordAll (hc : c.lenRising) (hn : n ∈ es.map Prod.fst) :
    ∃ p, (n, p) ∈ es ∧ (c.recordAll es).entryAt n = (p.length, some p) := by
  induction es generalizing c with
  | nil => cases hn
  | cons e es ih =>
    have hc' := lenRising_record hc e
    by_cases hes : n ∈ es.map Prod.fst
    · obtain ⟨p, hp, hentry⟩ := ih hc' hes
      exact ⟨p, List.mem_cons_of_mem e hp, hentry⟩
    · obtain rfl : n = e.1 := (List.mem_cons.mp hn).resolve_right hes
      exact ⟨e.2, List.mem_cons_self, (entryAt_recordAll_of_notMem hc' hes).trans
        ((entryAt_record hc e e.1).trans (if_pos rfl))⟩

/-- With one code for each symbol, every symbol ends with its own. -/
theorem Codes.entryAt_recordAll_of_mem (hc : c.lenRising) (hnodup : (es.map Prod.fst).Nodup) (he : e ∈ es) :
    (c.recordAll es).entryAt e.1 = (e.2.length, some e.2) := by
  obtain ⟨p, hp, hentry⟩ := exists_entryAt_recordAll hc (List.mem_map_of_mem he)
  have hep : e = (e.1, p) := List.inj_on_of_nodup_map hnodup he hp rfl
  rw [hentry, show e.2 = p from congrArg Prod.snd hep]

end Sys2Proof.Machine

/-! ## The walk of a tree (R130) -/

namespace Sys2Proof.Machine

variable {t : Memory TableEntry} {tree l r : CodeTree} {i : Int} {c c' : Codes} {depth n : Nat} {p : List Bool}

theorem treeAt_leaf_iff : treeAt t i (.leaf n) = true ↔
    ∃ e, readChild t i = .ok e ∧ e.left = -1 ∧ e.right = -1 ∧ e.glyph = Int.ofNat n := by
  rw [treeAt]
  cases readChild t i <;> simp

theorem treeAt_node_iff : treeAt t i (.node l r) = true ↔
    ∃ e, readChild t i = .ok e ∧ ¬(e.left = -1 ∧ e.right = -1) ∧ treeAt t e.left l = true ∧ treeAt t e.right r = true := by
  rw [treeAt]
  cases readChild t i <;> simp [and_assoc, imp_iff_not_or]

/-- A table holds one tree at most at a slot. -/
theorem treeAt_unique {tree' : CodeTree} (h : treeAt t i tree = true) (h' : treeAt t i tree' = true) : tree = tree' := by
  induction tree generalizing i tree' with
  | leaf n =>
    obtain ⟨e, he, hl, hr, hn⟩ := treeAt_leaf_iff.mp h
    cases tree' with
    | leaf m =>
      obtain ⟨e', he', -, -, hm⟩ := treeAt_leaf_iff.mp h'
      obtain rfl := Except.ok.inj (he.symm.trans he')
      rw [Int.ofNat.inj (hn.symm.trans hm)]
    | node l' r' =>
      obtain ⟨e', he', hne, -⟩ := treeAt_node_iff.mp h'
      obtain rfl := Except.ok.inj (he.symm.trans he')
      exact absurd ⟨hl, hr⟩ hne
  | node l r ihl ihr =>
    obtain ⟨e, he, hne, hl, hr⟩ := treeAt_node_iff.mp h
    cases tree' with
    | leaf m =>
      obtain ⟨e', he', hl', hr', -⟩ := treeAt_leaf_iff.mp h'
      obtain rfl := Except.ok.inj (he.symm.trans he')
      exact absurd ⟨hl', hr'⟩ hne
    | node l' r' =>
      obtain ⟨e', he', -, hl', hr'⟩ := treeAt_node_iff.mp h'
      obtain rfl := Except.ok.inj (he.symm.trans he')
      rw [ihl hl hl', ihr hr hr']

/-- Everything `VISIT` of a merge node can do when it answers: the left subtree, then the right one (R130). -/
theorem visit_node_eq_ok {e : TableEntry} (he : readChild t i = .ok e) (hne : ¬(e.left = -1 ∧ e.right = -1)) :
    visit t (depth + 1) i p c = .ok c' ↔
      ∃ c1, visit t depth e.left (p ++ [false]) c = .ok c1 ∧ visit t depth e.right (p ++ [true]) c1 = .ok c' := by
  rw [visit, he]
  simp only [if_neg hne]
  cases visit t depth e.left (p ++ [false]) c <;> simp

/-- `VISIT` of a tree records its paths, and answers exactly when the symbols are indices of the code memories (R130, R131). -/
theorem visit_eq_ok_of_treeAt (h : treeAt t i tree = true) (hd : tree.depth < depth) :
    visit t depth i p c = .ok c' ↔ (∀ n ∈ tree.symbols, n ≤ 256) ∧ c' = c.recordAll (tree.paths p) := by
  induction tree generalizing i p c c' depth with
  | leaf n =>
    obtain ⟨e, he, hl, hr, hn⟩ := treeAt_leaf_iff.mp h
    obtain ⟨d, rfl⟩ := Nat.exists_eq_add_of_lt hd
    rw [visit_of_leaf he hl hr, hn, recordCode_ofNat_eq_ok]
    simp [CodeTree.symbols, CodeTree.paths, Codes.recordAll]
  | node l r ihl ihr =>
    obtain ⟨e, he, hne, hl, hr⟩ := treeAt_node_iff.mp h
    rw [CodeTree.depth] at hd
    obtain ⟨d, rfl⟩ := Nat.exists_eq_add_of_lt hd
    rw [visit_node_eq_ok he hne]
    have hld : l.depth < 1 + max l.depth r.depth + d := by omega
    have hrd : r.depth < 1 + max l.depth r.depth + d := by omega
    simp only [ihl hl hld, ihr hr hrd]
    simp only [CodeTree.symbols, CodeTree.paths, Codes.recordAll, List.foldl_append, List.mem_append, or_imp, forall_and]
    constructor
    · rintro ⟨_, ⟨hleft, rfl⟩, hright, rfl⟩
      exact ⟨⟨hleft, hright⟩, rfl⟩
    · rintro ⟨⟨hleft, hright⟩, rfl⟩
      exact ⟨_, ⟨hleft, rfl⟩, hright, rfl⟩

theorem walkTable_eq_ok_of_treeAt (h : treeAt t 0 tree = true) (hd : tree.depth ≤ 256) :
    walkTable t c = .ok c' ↔ (∀ n ∈ tree.symbols, n ≤ 256) ∧ c' = c.recordAll (tree.paths []) :=
  visit_eq_ok_of_treeAt h (Nat.lt_succ_of_le hd)

/-- A visit that answers has gone through a tree. -/
theorem exists_treeAt_of_visit (h : visit t depth i p c = .ok c') : ∃ tree, treeAt t i tree = true ∧ tree.depth < depth := by
  induction depth generalizing i p c c' with
  | zero => cases h
  | succ depth ih =>
    cases he : readChild t i with
    | error f => rw [visit, he] at h; cases h
    | ok e =>
      by_cases hleaf : e.left = -1 ∧ e.right = -1
      · obtain ⟨hl, hr⟩ := hleaf
        rw [visit_of_leaf he hl hr] at h
        obtain ⟨n, hn, -, -⟩ := recordCode_eq_ok h
        exact ⟨.leaf n, treeAt_leaf_iff.mpr ⟨e, he, hl, hr, hn⟩, Nat.succ_pos depth⟩
      · obtain ⟨c1, hleft, hright⟩ := (visit_node_eq_ok he hleaf).mp h
        obtain ⟨l, hl, hld⟩ := ih hleft
        obtain ⟨r, hr, hrd⟩ := ih hright
        exact ⟨.node l r, treeAt_node_iff.mpr ⟨e, he, hleaf, hl, hr⟩, by rw [CodeTree.depth]; omega⟩

end Sys2Proof.Machine

/-! ## `WALK` as a command (R130, R131) -/

namespace Sys2Proof.Machine

variable {s t : State} {tree l r : CodeTree} {n : Nat} {p : List Bool}

/-- Everything `WALK` can do in its own phase when it answers, on a table that holds a tree. -/
theorem exec_walk_eq_next (hp : s.phase = .built) (htree : treeAt s.table 0 tree = true) (hdepth : tree.depth ≤ 256) :
    exec .walk s = .next t ↔
      (∀ n ∈ tree.symbols, n ≤ 256) ∧ t = (s.withCodes (s.codes.recordAll (tree.paths []))).withPhase .coded := by
  rw [exec, execWalk, dispatch_homePhase rfl hp, finish_map_eq_next]
  simp only [walkTable_eq_ok_of_treeAt htree hdepth]
  constructor
  · rintro ⟨_, ⟨hle, rfl⟩, rfl⟩
    exact ⟨hle, rfl⟩
  · rintro ⟨hle, rfl⟩
    exact ⟨_, ⟨hle, rfl⟩, rfl⟩

/-- Settles O31: the walk records the paths, and one path for each symbol when the symbols are distinct. -/
theorem walkAssignsThePaths : Obligations.WalkAssignsThePaths := by
  intro s
  refine ⟨by decide, fun tree hp htree hdepth hnodup hle hwf => ?walks, rejectedOutside_homePhase rfl s⟩
  case walks =>
    refine ⟨_, _, (exec_walk_eq_next hp htree hdepth).mpr ⟨hle, rfl⟩, fun e he => ?path, fun n hn => ?other⟩
    case path =>
      rw [← tree.map_fst_paths []] at hnodup
      exact Prod.mk.inj (Codes.entryAt_recordAll_of_mem (c := s.codes) hwf.1 hnodup he)
    case other =>
      rw [← tree.map_fst_paths []] at hn
      exact Prod.mk.inj (Codes.entryAt_recordAll_of_notMem (c := s.codes) hwf.1 hn)

end Sys2Proof.Machine

/-! ## The codes of a tree whose root is a merge node (R132) -/

namespace Sys2Proof.Machine

variable {s t : State} {l r : CodeTree} {n : Nat} {p : List Bool}

theorem State.codeOf_of_entryAt (h : s.codes.entryAt n = (p.length, some p)) (hp : p ≠ []) : s.codeOf n = some p := by
  obtain ⟨hlen, hbits⟩ := Prod.mk.inj h
  replace hlen : countAt s.codeLen n = p.length := hlen
  replace hbits : memFind s.codeBits n = some p := hbits
  rw [codeOf, hlen, if_neg (mt List.length_eq_zero_iff.mp hp), hbits, Option.map_some, List.take_length]

theorem State.codeOf_eq_none (h : countAt s.codeLen n = 0) : s.codeOf n = none := if_pos h

section WalkedTree

variable (hp : s.phase = .built) (htree : treeAt s.table 0 (.node l r) = true) (hdepth : (CodeTree.node l r).depth ≤ 256)
  (hempty : s.codeLen = []) (h : exec .walk s = .next t)

include hp htree hdepth hempty h

/-- When no symbol had a code before `WALK`, the symbols of the tree have one of their paths after it, and no other symbol has a
code. -/
theorem exec_walk_code (n : Nat) :
    (n ∈ (CodeTree.node l r).symbols → ∃ p, (n, p) ∈ (CodeTree.node l r).paths [] ∧ t.codeOf n = some p ∧
      countAt t.codeLen n = p.length) ∧
    (n ∉ (CodeTree.node l r).symbols → countAt t.codeLen n = 0) := by
  obtain ⟨-, ht⟩ := (exec_walk_eq_next hp htree hdepth).mp h
  have hcodes : t.codes = s.codes.recordAll ((CodeTree.node l r).paths []) := by rw [ht]; rfl
  have hrising : s.codes.lenRising := by rw [Codes.lenRising, State.codes, hempty]; exact .nil
  rw [← CodeTree.map_fst_paths _ []]
  refine ⟨fun hn => ?symbol, fun hn => ?other⟩
  case symbol =>
    obtain ⟨p, hmem, hentry⟩ := Codes.exists_entryAt_recordAll hrising hn
    rw [← hcodes] at hentry
    have hne : p ≠ [] := List.ne_nil_of_length_pos (CodeTree.length_lt_of_mem_paths_node hmem)
    exact ⟨p, hmem, State.codeOf_of_entryAt hentry hne, congrArg Prod.fst hentry⟩
  case other =>
    have hentry := Codes.entryAt_recordAll_of_notMem hrising hn
    rw [← hcodes] at hentry
    exact (congrArg Prod.fst hentry).trans (congrArg (countAt · n) hempty)

theorem exec_walk_codeLen_ne_zero_iff (n : Nat) : countAt t.codeLen n ≠ 0 ↔ n ∈ (CodeTree.node l r).symbols := by
  obtain ⟨hsymbol, hother⟩ := exec_walk_code hp htree hdepth hempty h n
  refine ⟨fun hne => by_contra fun hn => hne (hother hn), fun hn => ?_⟩
  obtain ⟨p, hpath, -, hlen⟩ := hsymbol hn
  rw [hlen]
  exact (CodeTree.length_lt_of_mem_paths_node hpath).ne'

/-- The codes are the paths, when the symbols are distinct (R131). -/
theorem exec_walk_codeOf_eq_some (hnodup : (CodeTree.node l r).symbols.Nodup) :
    t.codeOf n = some p ↔ (n, p) ∈ (CodeTree.node l r).paths [] := by
  have hfst := CodeTree.map_fst_paths (.node l r) []
  obtain ⟨hsymbol, hother⟩ := exec_walk_code hp htree hdepth hempty h n
  refine ⟨fun hcode => ?_, fun hpath => ?_⟩
  · have hn : n ∈ (CodeTree.node l r).symbols := by
      by_contra hn
      cases (State.codeOf_eq_none (hother hn)).symm.trans hcode
    obtain ⟨q, hq, hcode', -⟩ := hsymbol hn
    rwa [Option.some.inj (hcode.symm.trans hcode')]
  · obtain ⟨q, hq, hcode', -⟩ := hsymbol (hfst ▸ List.mem_map_of_mem hpath)
    rw [← hfst] at hnodup
    rw [hcode', (Prod.mk.inj (List.inj_on_of_nodup_map hnodup hpath hq rfl)).2]

end WalkedTree

/-- The share of the Kraft sum that a symbol's code has, over the common denominator 2^256. -/
def kraftShare : Option (List Bool) → Nat
  | none => 0
  | some p => 2 ^ (256 - p.length)

/-- A sum over a range is the sum over a list that holds, once each, the indices where the terms are not zero. -/
theorem sum_range_eq_sum_of_support {g : Nat → Nat} {ns : List Nat} {bound : Nat} (hnodup : ns.Nodup)
    (hlt : ∀ n ∈ ns, n < bound) (hzero : ∀ n, n ∉ ns → g n = 0) :
    ((List.range bound).map g).sum = (ns.map g).sum := by
  rw [← List.sum_toFinset g List.nodup_range, ← List.sum_toFinset g hnodup]
  refine (Finset.sum_subset (fun n hn => ?_) fun n _ hn => hzero n (mt List.mem_toFinset.mpr hn)).symm
  exact List.mem_toFinset.mpr (List.mem_range.mpr (hlt n (List.mem_toFinset.mp hn)))

/-- Settles O32: the codes are the paths of the tree, which are prefix-free and have Kraft sum 1. -/
theorem codesArePrefixFree : Obligations.CodesArePrefixFree := by
  intro s t l r hp htree hdepth hnodup hempty h
  have hcode {n : Nat} {p : List Bool} : t.codeOf n = some p ↔ (n, p) ∈ (CodeTree.node l r).paths [] :=
    exec_walk_codeOf_eq_some hp htree hdepth hempty h hnodup
  have hfst := CodeTree.map_fst_paths (.node l r) []
  refine ⟨fun m n p q hmn hm hn hpq => ?prefixFree, ?kraft⟩
  case prefixFree =>
    exact hmn (congrArg Prod.fst (CodeTree.eq_of_prefix_of_mem_paths (hcode.mp hm) (hcode.mp hn) hpq))
  case kraft =>
    obtain ⟨hle, -⟩ := (exec_walk_eq_next hp htree hdepth).mp h
    have hzero (n : Nat) (hn : n ∉ (CodeTree.node l r).symbols) : kraftShare (t.codeOf n) = 0 := by
      cases hsome : t.codeOf n with
      | none => rfl
      | some p => exact absurd (hfst ▸ List.mem_map_of_mem (hcode.mp hsome)) hn
    have hshare (e : Nat × List Bool) (he : e ∈ (CodeTree.node l r).paths []) :
        kraftShare (t.codeOf e.1) = 2 ^ (256 - e.2.length) := by rw [hcode.mpr he, kraftShare]
    calc ((List.range 257).map fun n => kraftShare (t.codeOf n)).sum
        = ((CodeTree.node l r).symbols.map fun n => kraftShare (t.codeOf n)).sum :=
          sum_range_eq_sum_of_support hnodup (fun n hn => Nat.lt_succ_of_le (hle n hn)) hzero
      _ = (((CodeTree.node l r).paths []).map fun e => 2 ^ (256 - e.2.length)).sum := by
          rw [← hfst, List.map_map]
          exact congrArg List.sum (List.map_congr_left hshare)
      _ = 2 ^ 256 := CodeTree.kraftSum_paths (by simpa using hdepth)

end Sys2Proof.Machine

/-! ## The tree `BUILD` leaves, and its symbols (R131, R132; 41_table_builder.md R118) -/

namespace Sys2Proof.Machine

variable {t : Memory TableEntry} {k j n : Nat} {tree root l r : CodeTree}

/-- A slot of a finished `BUILD` holds a tree no deeper than the merges below it. -/
theorem exists_treeAt_of_slotOrdered (hk : k ≤ nsym) (ht : ∀ j < 2 * k - 1, slotOrdered t k j) (hj : j < 2 * k - 1) :
    ∃ tree, treeAt t (Int.ofNat j) tree = true ∧ tree.depth ≤ mergesBelow k j := by
  obtain ⟨c, hc⟩ := visit_completes hk ht hj (Nat.lt_succ_self _) [] { codeLen := [], codeBits := [] }
  obtain ⟨tree, htree, hdepth⟩ := exists_treeAt_of_visit hc
  exact ⟨tree, htree, Nat.le_of_lt_succ hdepth⟩

theorem memFind_of_readChild {e : TableEntry} (h : readChild t (Int.ofNat j) = .ok e) : memFind t j = some e :=
  (readTable_eq_ok.mp h).2

/-- The symbols of a tree of a finished `BUILD` are glyphs of its slots. -/
theorem exists_slot_of_mem_symbols (ht : ∀ j < 2 * k - 1, slotOrdered t k j) (hj : j < 2 * k - 1)
    (htree : treeAt t (Int.ofNat j) tree = true) (hn : n ∈ tree.symbols) :
    ∃ i < 2 * k - 1, ∃ e, memFind t i = some e ∧ e.glyph = Int.ofNat n := by
  induction tree generalizing j with
  | leaf m =>
    obtain ⟨e, he, -, -, hm⟩ := treeAt_leaf_iff.mp htree
    exact ⟨j, hj, e, memFind_of_readChild he, List.mem_singleton.mp hn ▸ hm⟩
  | node l r ihl ihr =>
    obtain ⟨e, he, hne, hl, hr⟩ := treeAt_node_iff.mp htree
    rcases (slotOrdered_iff.mp (ht j hj)).of_memFind (memFind_of_readChild he) with ⟨hel, her, -⟩ | ⟨q, hq, -, hel, her⟩
    · exact absurd ⟨hel, her⟩ hne
    · have hqk : q < k - 1 := hq.trans_le (mergesBelow_le hj)
      rw [hel] at hl
      rw [her] at hr
      rcases List.mem_append.mp hn with hn | hn
      · exact ihl (by omega) hl hn
      · exact ihr (by omega) hr hn

/-- The two slots that merge `q` of a table of `k` leaves parks its entries in. -/
theorem mergesBelow_child {q : Nat} (hq : q < k - 1) (hj : j = k - 1 - q ∨ j = k + q) : mergesBelow k j = q := by
  rcases hj with rfl | rfl
  · exact (mergesBelow_of_ne (by omega)).trans (slotRank_left (by omega))
  · exact (mergesBelow_of_ne (by omega)).trans (slotRank_right k q)

/-- A tree below a merge node stands in the node's tree, which has more merges below it. -/
theorem exists_parent_tree (hk : k ≤ nsym) (ht : ∀ j < 2 * k - 1, slotOrdered t k j)
    (htree : treeAt t (Int.ofNat j) tree = true) {i : Nat} (hi : i < 2 * k - 1) {e : TableEntry}
    (he : memFind t i = some e) (hchild : e.left = Int.ofNat j ∨ e.right = Int.ofNat j) :
    ∃ parent, treeAt t (Int.ofNat i) parent = true ∧ tree.symbols ⊆ parent.symbols ∧ mergesBelow k j < mergesBelow k i := by
  have hk' : k ≤ 257 := hk
  have hread : readChild t (Int.ofNat i) = .ok e := readTable_eq_ok.mpr ⟨by simp only [tableSlots]; omega, he⟩
  rcases (slotOrdered_iff.mp (ht i hi)).of_memFind he with ⟨hel, her, -⟩ | ⟨q, hq, -, hel, her⟩
  · rw [hel, her] at hchild
    rcases hchild with h | h <;> cases h
  · have hqk : q < k - 1 := hq.trans_le (mergesBelow_le hi)
    have hne : ¬(e.left = -1 ∧ e.right = -1) := fun h => nomatch hel.symm.trans h.1
    rcases hchild with hej | hej
    · obtain ⟨other, hother, -⟩ := exists_treeAt_of_slotOrdered hk ht (j := k + q) (by omega)
      refine ⟨.node tree other, treeAt_node_iff.mpr ⟨e, hread, hne, hej ▸ htree, her ▸ hother⟩,
        List.subset_append_left _ _, ?_⟩
      rwa [mergesBelow_child hqk (.inl (Int.ofNat.inj (hej.symm.trans hel)))]
    · obtain ⟨other, hother, -⟩ := exists_treeAt_of_slotOrdered hk ht (j := k - 1 - q) (by omega)
      refine ⟨.node other tree, treeAt_node_iff.mpr ⟨e, hread, hne, hel ▸ hother, hej ▸ htree⟩,
        List.subset_append_right _ _, ?_⟩
      rwa [mergesBelow_child hqk (.inr (Int.ofNat.inj (hej.symm.trans her)))]

/-- Every slot but the root is a child of a merge node (41_table_builder.md R118(e)). -/
abbrev slotsHaveParents (t : Memory TableEntry) (k : Nat) : Prop :=
  ∀ j, 1 ≤ j → j < 2 * k - 1 →
    ∃ i < 2 * k - 1, ∃ e, memFind t i = some e ∧ (e.left = Int.ofNat j ∨ e.right = Int.ofNat j)

/-- Every tree of the table stands in the root's tree: the way up from its slot ends at the root, since each parent has more merges
below it. -/
theorem symbols_subset_root (hk : k ≤ nsym) (ht : ∀ j < 2 * k - 1, slotOrdered t k j) (hparents : slotsHaveParents t k)
    (hroot : treeAt t 0 root = true) (hj : j < 2 * k - 1) (htree : treeAt t (Int.ofNat j) tree = true) :
    tree.symbols ⊆ root.symbols := by
  induction hup : k - mergesBelow k j using Nat.strong_induction_on generalizing j tree with
  | _ up ih =>
    rcases Nat.eq_zero_or_pos j with rfl | hpos
    · rw [treeAt_unique htree hroot]
      exact List.Subset.refl _
    · obtain ⟨i, hi, e, he, hchild⟩ := hparents j hpos hj
      obtain ⟨parent, hparent, hsub, hlt⟩ := exists_parent_tree hk ht htree hi he hchild
      have hle := mergesBelow_le hi
      exact List.Subset.trans hsub (ih _ (by omega) hi hparent rfl)

/-- The root of a finished `BUILD` is a merge node, at most K − 1 edges above its deepest leaf. -/
theorem exists_rootTree (hk2 : 2 ≤ k) (hk : k ≤ nsym) (ht : tableOrdered t k) :
    ∃ l r, treeAt t 0 (.node l r) = true ∧ (CodeTree.node l r).depth ≤ k - 1 := by
  obtain ⟨hslots, hroot⟩ := ht
  obtain ⟨tree, htree, hdepth⟩ := exists_treeAt_of_slotOrdered hk hslots (j := 0) (by omega)
  cases tree with
  | leaf n =>
    obtain ⟨e, he, hl, -⟩ := treeAt_leaf_iff.mp htree
    obtain ⟨-, hel, -⟩ := (any_decide_iff_slotHolds.mp hroot).of_memFind (memFind_of_readChild he)
    cases hel.symm.trans hl
  | node l r => exact ⟨l, r, htree, hdepth⟩

/-- The symbols of the root's tree are the present symbols (41_table_builder.md R118(c)). -/
theorem mem_symbols_root_iff {s u : State} (hp : s.phase = .counted) (hk2 : 2 ≤ s.k) (hk : s.k = presentCount s.freq)
    (hbuild : exec .build s = .next u) (hordered : tableOrdered u.table s.k) (hroot : treeAt u.table 0 root = true)
    (hn : n ≤ 256) : n ∈ root.symbols ↔ 0 < countAt s.freq n := by
  obtain ⟨hpresent, habsent, hparents, -⟩ := buildPlacesEveryLeafOnce s u hp hk2 hk hbuild
  have hkle : s.k ≤ nsym := hk ▸ presentCount_le_nsym s.freq
  refine ⟨fun hmem => Nat.pos_of_ne_zero fun hzero => ?absent, fun hpos => ?present⟩
  case absent =>
    obtain ⟨i, hi, e, he, hglyph⟩ := exists_slot_of_mem_symbols hordered.1 (show 0 < 2 * s.k - 1 by omega) hroot hmem
    exact habsent n hn hzero i hi e he hglyph
  case present =>
    obtain ⟨j, ⟨hj, e, he, hglyph⟩, -⟩ := hpresent n hn hpos
    have hleaf : treeAt u.table (Int.ofNat j) (.leaf n) = true := by
      refine treeAt_leaf_iff.mpr ⟨e, readTable_eq_ok.mpr ⟨?_, he⟩, ?_⟩
      · have hkle' : s.k ≤ 257 := hkle
        simp only [tableSlots]
        omega
      · rcases (slotOrdered_iff.mp (hordered.1 j hj)).of_memFind he with ⟨hl, hr, -⟩ | ⟨q, -, hminus, -⟩
        · exact ⟨hl, hr, hglyph⟩
        · cases hminus.symm.trans hglyph
    exact symbols_subset_root hkle hordered.1 (fun i hi hik => (hparents i hi hik).exists) hroot hj hleaf
      List.mem_cons_self

end Sys2Proof.Machine

/-! ## `BUILD`, then `WALK` (R131, R132) -/

namespace Sys2Proof.Machine

variable {s : State}

/-- `BUILD` from a closed histogram leaves an ordered table and gives no symbol a code. -/
theorem exec_build_ordered (hs : s.RunInv) (hp : s.phase = .counted) (hk2 : 2 ≤ s.k) :
    ∃ u, exec .build s = .next u ∧ u.phase = .built ∧ u.codeLen = [] ∧ tableOrdered u.table s.k := by
  obtain ⟨-, -, hfacts⟩ := hs
  obtain ⟨⟨-, hk⟩, hempty, -⟩ := (State.phaseFacts_counted hp).mp hfacts
  obtain ⟨b, -, hbuilt, hbuild⟩ := exec_build_of_two_le hp hk2 hk
  exact ⟨_, hbuild, rfl, hempty, hbuilt.ordered⟩

/-- Settles O44: the symbols of the tree `BUILD` leaves are the present ones, and their codes are paths of a tree at most K − 1
deep. -/
theorem everyPresentSymbolHasACode : Obligations.EveryPresentSymbolHasACode := by
  intro s hs hp hk2
  have ⟨_, _, hfacts⟩ := hs
  obtain ⟨⟨heos, hk⟩, -⟩ := (State.phaseFacts_counted hp).mp hfacts
  have hkle : s.k ≤ 257 := hk ▸ presentCount_le_nsym s.freq
  obtain ⟨u, hbuild, hpu, hempty, hordered⟩ := exec_build_ordered hs hp hk2
  obtain ⟨l, r, htree, hdepth⟩ := exists_rootTree hk2 hkle hordered
  have hdepth' : (CodeTree.node l r).depth ≤ 256 := by omega
  obtain ⟨t, hwalk⟩ := exec_completes (exec_runInv hs hbuild) .walk
  obtain ⟨-, ht⟩ := (exec_walk_eq_next hpu htree hdepth').mp hwalk
  have hcoded (n : Nat) := exec_walk_codeLen_ne_zero_iff hpu htree hdepth' hempty hwalk n
  have hpresent {n : Nat} (hn : n ≤ 256) : 0 < countAt s.freq n ↔ countAt t.codeLen n ≠ 0 :=
    (mem_symbols_root_iff hp hk2 hk hbuild hordered htree hn).symm.trans (hcoded n).symm
  have hcode (n : Nat) (hne : countAt t.codeLen n ≠ 0) :=
    (exec_walk_code hpu htree hdepth' hempty hwalk n).1 ((hcoded n).mp hne)
  refine ⟨t, ?run, ?phase, (hpresent le_rfl).mp (heos.symm ▸ one_pos), fun n hn => ⟨hpresent hn, ?bound, fun hne => ?bits⟩⟩
  case run =>
    rw [execAll_cons _ hbuild, execAll_cons _ hwalk]
    rfl
  case phase => rw [ht, State.withPhase_phase]
  case bound =>
    by_cases hzero : countAt t.codeLen n = 0
    · omega
    · obtain ⟨p, hpath, -, hlen⟩ := hcode n hzero
      have hle : p.length ≤ 0 + (CodeTree.node l r).depth := CodeTree.length_le_of_mem_paths hpath
      omega
  case bits =>
    obtain ⟨p, -, hsome, hlen⟩ := hcode n hne
    exact ⟨p, hsome, hlen.symm⟩

end Sys2Proof.Machine

/-! # The Bit Packer (43_bit_packer.md) -/

/-! ## The bits the packer has taken (R140, R142) -/

namespace Sys2Proof.Machine

variable {p : Packer} {acc : Byte} {n : Nat} {bits : List Bool}

@[simp] theorem length_bitsOfByte (b : Byte) : (bitsOfByte b).length = 8 := by
  simp [bitsOfByte]

theorem length_flatMap_bitsOfByte (bytes : List Byte) : (bytes.flatMap bitsOfByte).length = 8 * bytes.length := by
  simp [List.length_flatMap, Nat.mul_comm]

theorem length_streamBits (p : Packer) : (streamBits p).length = 8 * p.out.length + p.nbits.val := by
  have hle : p.nbits.val ≤ 8 := p.nbits.isLt.le
  rw [streamBits, List.length_append, length_flatMap_bitsOfByte, List.length_take, length_bitsOfByte, Nat.min_eq_left hle]

theorem take_bitsOfByte (b : Byte) (hn : n ≤ 8) : (bitsOfByte b).take n = (List.range n).map b.getLsbD := by
  rw [bitsOfByte, ← List.map_take, List.take_range, Nat.min_eq_left hn]

theorem getLsbD_of_toNat_lt (h : acc.toNat < 2 ^ n) {i : Nat} (hi : n ≤ i) : acc.getLsbD i = false :=
  Nat.testBit_lt_two_pow (h.trans_le (Nat.pow_le_pow_right Nat.two_pos hi))

theorem getLsbD_bitAt (b : Bool) (n : Fin 8) (i : Nat) : (bitAt b n).getLsbD i = (decide (i = n.val) && b) := by
  cases b with
  | false => simp [bitAt]
  | true =>
    have hn : n.val < 8 := n.isLt
    rw [bitAt, if_pos rfl, BitVec.getLsbD_shiftLeft, BitVec.getLsbD_one, Bool.eq_iff_iff]
    simp only [Bool.and_eq_true, Bool.not_eq_true', decide_eq_true_eq, decide_eq_false_iff_not, and_true]
    omega

/-- A bit added at the first unfilled position carries into no other bit. -/
theorem getLsbD_add_bitAt {n : Fin 8} (h : acc.toNat < 2 ^ n.val) (b : Bool) (i : Nat) :
    (acc + bitAt b n).getLsbD i = (acc.getLsbD i || (decide (i = n.val) && b)) := by
  have hdisjoint : acc &&& bitAt b n = 0#8 := by
    refine BitVec.eq_of_getLsbD_eq fun j _ => ?_
    rw [BitVec.getLsbD_and, getLsbD_bitAt, BitVec.getLsbD_zero]
    by_cases hj : j = n.val
    · rw [getLsbD_of_toNat_lt h hj.ge, Bool.false_and]
    · simp [hj]
  rw [BitVec.add_eq_or_of_and_eq_zero _ _ hdisjoint, BitVec.getLsbD_or, getLsbD_bitAt]

theorem take_bitsOfByte_add_bitAt {n : Fin 8} (h : acc.toNat < 2 ^ n.val) (b : Bool) :
    (bitsOfByte (acc + bitAt b n)).take (n.val + 1) = (bitsOfByte acc).take n.val ++ [b] := by
  rw [take_bitsOfByte _ n.isLt, take_bitsOfByte _ n.isLt.le, List.range_succ, List.map_append, List.map_singleton]
  congr 1
  · refine List.map_congr_left fun i hi => ?_
    simp [getLsbD_add_bitAt h, (List.mem_range.mp hi).ne]
  · rw [getLsbD_add_bitAt h, getLsbD_of_toNat_lt h le_rfl, decide_eq_true rfl, Bool.true_and, Bool.false_or]

/-- One turn of `APPEND` (R140), whether it fills the byte or not. -/
theorem streamBits_appendBit (h : p.unfilledZero) (b : Bool) : streamBits (appendBit p b) = streamBits p ++ [b] := by
  have htake := take_bitsOfByte_add_bitAt h b
  unfold appendBit
  split
  next hfull =>
    have hval : p.nbits.val = 7 := congrArg Fin.val hfull
    have hall : bitsOfByte (p.acc + bitAt b p.nbits) = (bitsOfByte p.acc).take p.nbits.val ++ [b] := by
      rw [← htake, List.take_of_length_le (by simp [hval])]
    simp [streamBits, flushByte, hall]
  next hfull =>
    have hnext : (p.nbits + 1).val = p.nbits.val + 1 := Fin.val_add_one_of_lt (Fin.lt_last_iff_ne_last.mpr hfull)
    simp [streamBits, hnext, htake]

theorem streamBits_appendBits (h : p.unfilledZero) (bits : List Bool) :
    streamBits (appendBits p bits) = streamBits p ++ bits := by
  induction bits generalizing p with
  | nil => simp
  | cons b bits ih => rw [appendBits_cons, ih (appendBit_unfilledZero h b), streamBits_appendBit h, ← List.append_cons]

/-- A code of at most `CODE_MAX` bits fills at most 32 bytes. -/
theorem length_appendBits_out_le (h : p.unfilledZero) (hlen : bits.length ≤ 256) :
    (appendBits p bits).out.length ≤ p.out.length + 32 := by
  have hbits := congrArg List.length (streamBits_appendBits h bits)
  rw [List.length_append, length_streamBits, length_streamBits] at hbits
  omega

/-- The bits at and above `NBITS` are 0 (10_state.md R31). -/
theorem bitsOfByte_eq_take_append (h : acc.toNat < 2 ^ n) :
    bitsOfByte acc = (bitsOfByte acc).take n ++ List.replicate (8 - n) false := by
  have hhigh : (bitsOfByte acc).drop n = List.replicate (8 - n) false := by
    refine List.eq_replicate_iff.mpr ⟨by simp, fun b hb => ?_⟩
    obtain ⟨i, hi, rfl⟩ := List.mem_iff_getElem.mp hb
    simp [bitsOfByte, getLsbD_of_toNat_lt h (Nat.le_add_right n i)]
  rw [← hhigh, List.take_append_drop]

/-- The padding of `FIN` (R142): fewer than eight zero bits complete the last byte. -/
theorem exists_flatMap_padLast_out (h : p.unfilledZero) :
    ∃ pad < 8, (padLast p).out.flatMap bitsOfByte = streamBits p ++ List.replicate pad false := by
  unfold padLast
  split
  next hzero => exact ⟨0, by omega, by simp [streamBits, hzero]⟩
  next hzero =>
    have hpos : p.nbits.val ≠ 0 := fun hval => hzero (Fin.ext hval)
    have hbyte := bitsOfByte_eq_take_append h
    refine ⟨8 - p.nbits.val, by omega, ?_⟩
    rw [streamBits, List.append_assoc, ← hbyte]
    simp [flushByte]

/-- `APPEND` and then the padding (R142), the end of every pass 2. -/
theorem exists_flatMap_padLast_appendBits_out (h : p.unfilledZero) (bits : List Bool) :
    ∃ pad < 8, (padLast (appendBits p bits)).out.flatMap bitsOfByte =
      streamBits p ++ bits ++ List.replicate pad false := by
  rw [← streamBits_appendBits h]
  exact exists_flatMap_padLast_out (appendBits_unfilledZero h bits)

theorem padLast_appendBits_out_prefix (p : Packer) (bits : List Bool) : p.out <+: (padLast (appendBits p bits)).out :=
  (appendBits_out_prefix p bits).trans (padLast_out_prefix _)

end Sys2Proof.Machine

/-! ## The packed bytes of a bit sequence (R143) -/

namespace Sys2Proof.Machine

variable {p : Packer} {bits : List Bool} {bytes : List Byte} {pad : Nat}

theorem testBit_bitsValue (bits : List Bool) (i : Nat) : (bitsValue bits).testBit i = bits.getD i false := by
  induction bits generalizing i with
  | nil => simp [bitsValue]
  | cons b bits ih =>
    have hbit : bitsValue (b :: bits) = Nat.bit b (bitsValue bits) := by
      rw [bitsValue, Nat.bit_val, Nat.add_comm]
      cases b <;> rfl
    cases i with
    | zero => simp [hbit]
    | succ i => simp [hbit, Nat.testBit_bit_succ, ih]

theorem ofNat_bitsValue_bitsOfByte (b : Byte) : BitVec.ofNat 8 (bitsValue (bitsOfByte b)) = b := by
  refine BitVec.eq_of_getLsbD_eq fun i hi => ?_
  rw [BitVec.getLsbD_ofNat, testBit_bitsValue, decide_eq_true hi, Bool.true_and]
  simp [bitsOfByte, hi]

theorem bitsValue_append_zeros (bits : List Bool) (pad : Nat) :
    bitsValue (bits ++ List.replicate pad false) = bitsValue bits := by
  induction bits with
  | nil =>
    refine Nat.eq_of_testBit_eq fun i => ?_
    rw [testBit_bitsValue, testBit_bitsValue]
    simp only [List.nil_append, List.getD, List.getElem?_replicate, List.getElem?_nil]
    split <;> rfl
  | cons b bits ih => rw [List.cons_append, bitsValue, ih, bitsValue]

/-- Bits beyond the end of the sequence are 0 (R143), so padding it with zeros changes no byte. -/
theorem packBytes_append_zeros (n : Nat) (bits : List Bool) (pad : Nat) :
    packBytes n (bits ++ List.replicate pad false) = packBytes n bits := by
  induction n generalizing bits pad with
  | zero => rfl
  | succ n ih =>
    simp only [packBytes, List.take_append, List.drop_append, List.take_replicate, List.drop_replicate,
      bitsValue_append_zeros, ih]

theorem packBytes_flatMap_bitsOfByte (bytes : List Byte) : packBytes bytes.length (bytes.flatMap bitsOfByte) = bytes := by
  induction bytes with
  | nil => rfl
  | cons b bytes ih =>
    rw [List.flatMap_cons, List.length_cons, packBytes, List.take_left' (length_bitsOfByte b),
      List.drop_left' (length_bitsOfByte b), ofNat_bitsValue_bitsOfByte, ih]

/-- Bytes whose bits are a sequence with fewer than eight zeros after it are its packed bytes (R143). -/
theorem eq_packed_of_flatMap_eq (h : bytes.flatMap bitsOfByte = bits ++ List.replicate pad false) (hpad : pad < 8) :
    bytes = packed bits := by
  have hlen : bytes.length = (bits.length + 7) / 8 := by
    have hbits := congrArg List.length h
    rw [length_flatMap_bitsOfByte, List.length_append, List.length_replicate] at hbits
    omega
  calc bytes = packBytes bytes.length (bytes.flatMap bitsOfByte) := (packBytes_flatMap_bitsOfByte bytes).symm
    _ = packBytes bytes.length bits := by rw [h, packBytes_append_zeros]
    _ = packed bits := by rw [hlen, packed]

/-- From an empty accumulator, appending and padding emit exactly the packed bytes. -/
theorem padLast_appendBits_out (hacc : p.acc = 0#8) (hnbits : p.nbits = 0) (bits : List Bool) :
    (padLast (appendBits p bits)).out = p.out ++ packed bits := by
  have hzero : p.unfilledZero := by simp [Packer.unfilledZero, hacc]
  obtain ⟨bytes, hout⟩ := padLast_appendBits_out_prefix p bits
  obtain ⟨pad, hpad, hbits⟩ := exists_flatMap_padLast_appendBits_out hzero bits
  have htaken : streamBits p = p.out.flatMap bitsOfByte := by simp [streamBits, hnbits]
  rw [← hout, htaken, List.flatMap_append, List.append_assoc, List.append_cancel_left_eq] at hbits
  rw [← hout, eq_packed_of_flatMap_eq hbits hpad]

end Sys2Proof.Machine

/-! ## `ENC` and `FIN` as commands (R141, R142) -/

namespace Sys2Proof.Machine

variable {s : State} {bits : List Bool}

/-- The state after the codes of `n` bytes, the sequence `bits`, have gone through the packer (R141). -/
def State.appended (s : State) (bits : List Bool) (n : Nat) : State :=
  (s.withPacker (appendBits s.packer bits)).withEncCnt (s.encCnt + n)

theorem State.appended_appended (s : State) (as bs : List Bool) (m n : Nat) :
    (s.appended as m).appended bs n = s.appended (as ++ bs) (m + n) := by
  simp only [State.appended, appendBits_append, ← Nat.add_assoc]
  rfl

/-- The code a symbol has, read from the two memories. -/
theorem readCode_of_memFind {c : Codes} {n : Nat} (hn : n < nsym) (hc : countAt c.codeLen n ≠ 0)
    (hbits : memFind c.codeBits n = some bits) (hlen : countAt c.codeLen n ≤ bits.length) :
    readCode c n = .ok (bits.take (countAt c.codeLen n)) :=
  readCode_eq_ok.mpr (.inr ⟨hc, hn, bits, hbits, hlen, rfl⟩)

theorem exec_enc_of_encCnt_eq (d : Byte) (hp : s.phase = .encode) (hn : s.encCnt = s.len) :
    exec (.enc d) s = .next (s.withError .lengthMismatch (encode (.enc d))) := by
  rw [exec, execEnc, dispatch_homePhase rfl hp, if_pos hn]
  exact raiseBy_eq_next.mpr rfl

theorem exec_enc_of_no_code {d : Byte} (hp : s.phase = .encode) (hn : s.encCnt ≠ s.len)
    (hc : countAt s.codeLen d.toNat = 0) :
    exec (.enc d) s = .next (s.withError .missingCode (encode (.enc d))) := by
  rw [exec, execEnc, dispatch_homePhase rfl hp, if_neg hn, symbolOf, if_pos hc]
  exact raiseBy_eq_next.mpr rfl

/-- `ENC d` past its two tests: the code of `d` into the packer. -/
theorem exec_enc_of_readCode {d : Byte} (hp : s.phase = .encode) (hn : s.encCnt ≠ s.len)
    (hc : countAt s.codeLen d.toNat ≠ 0) (hread : readCode s.codes d.toNat = .ok bits) :
    exec (.enc d) s = .next (s.appended bits 1) := by
  rw [exec, execEnc, dispatch_homePhase rfl hp, if_neg hn, symbolOf, if_neg hc, finish_map_eq_next]
  exact ⟨_, appendCode_eq_ok.mpr ⟨bits, hread, rfl⟩, rfl⟩

theorem exec_fin_of_encCnt_ne (hp : s.phase = .encode) (hn : s.encCnt ≠ s.len) :
    exec .fin s = .next (s.withError .lengthMismatch (encode .fin)) := by
  rw [exec, execFin, dispatch_homePhase rfl hp, if_pos hn]
  exact raiseBy_eq_next.mpr rfl

theorem exec_fin_of_no_code (hp : s.phase = .encode) (hn : s.encCnt = s.len) (hc : countAt s.codeLen 256 = 0) :
    exec .fin s = .next (s.withError .missingCode (encode .fin)) := by
  rw [exec, execFin, dispatch_homePhase rfl hp, if_neg (not_not.mpr hn), eos, if_pos hc]
  exact raiseBy_eq_next.mpr rfl

/-- `FIN` past its two tests: the end-of-stream code and the padding, after which the accumulator is empty. -/
theorem exec_fin_of_readCode (hp : s.phase = .encode) (hn : s.encCnt = s.len) (hc : countAt s.codeLen 256 ≠ 0)
    (hread : readCode s.codes 256 = .ok bits) (hzero : s.packer.unfilledZero) :
    exec .fin s = .next { s with
      acc := 0#8, nbits := 0, out := (padLast (appendBits s.packer bits)).out, phase := .done } := by
  obtain ⟨hacc, hnbits⟩ := padLast_blank (appendBits_unfilledZero hzero bits)
  rw [exec, execFin, dispatch_homePhase rfl hp, if_neg (not_not.mpr hn), eos, if_neg hc, finish_map_eq_next]
  refine ⟨_, appendCode_eq_ok.mpr ⟨bits, hread, rfl⟩, ?_⟩
  rw [State.withPacker, hacc, hnbits]
  rfl

/-- Settles O35: the two tests of R141 in their order, the bits `APPEND` adds, and the rejection outside phase `ENCODE`. -/
theorem encAppendsTheCode : Obligations.EncAppendsTheCode := by
  intro d s
  refine ⟨?word, fun bits hp hn hc hbits hlen hzero => ?appends, fun hp hn => exec_enc_of_encCnt_eq d hp hn,
    fun hp hn hc => exec_enc_of_no_code hp hn hc, rejectedOutside_homePhase rfl s⟩
  case word =>
    have hhigh : opcodeOf (.enc d) ++ 0#4 = 0x80#8 := (by decide : (0x8#4 ++ 0#4 : Byte) = 0x80#8)
    exact congrArg (· ++ d) hhigh
  case appends =>
    have hsym : d.toNat < nsym := d.isLt.trans (Nat.lt_succ_self 256)
    have hread : readCode s.codes d.toNat = .ok (bits.take (countAt s.codeLen d.toNat)) :=
      readCode_of_memFind hsym hc hbits hlen
    exact ⟨_, exec_enc_of_readCode hp hn hc hread, streamBits_appendBits (p := s.packer) hzero _,
      appendBits_unfilledZero (p := s.packer) hzero _, appendBits_out_prefix s.packer _,
      fun hle => length_appendBits_out_le (p := s.packer) hzero ((List.length_take_le _ _).trans hle)⟩

/-- Settles O36: the two tests of R142 in their order, the code and the padding, and the rejection outside phase `ENCODE`. -/
theorem finPadsTheLastByte : Obligations.FinPadsTheLastByte := by
  intro s
  have hword : encode .fin = 0x9000#16 := by decide
  refine ⟨hword, fun bits hp hn hc hbits hlen hzero => ?pads, fun hp hn => hword ▸ exec_fin_of_encCnt_ne hp hn,
    fun hp hn hc => hword ▸ exec_fin_of_no_code hp hn hc, rejectedOutside_homePhase rfl s⟩
  case pads =>
    have hread : readCode s.codes 256 = .ok (bits.take (countAt s.codeLen 256)) :=
      readCode_of_memFind (by decide) hc hbits hlen
    obtain ⟨pad, hpad, hout⟩ :=
      exists_flatMap_padLast_appendBits_out (p := s.packer) hzero (bits.take (countAt s.codeLen 256))
    refine ⟨_, pad, exec_fin_of_readCode hp hn hc hread hzero, hout, hpad, padLast_appendBits_out_prefix s.packer _, ?grows⟩
    have hbytes := congrArg List.length hout
    simp only [List.length_append, List.length_replicate, List.length_take, length_flatMap_bitsOfByte, length_streamBits,
      State.packer] at hbytes
    simp only [State.packer]
    omega

end Sys2Proof.Machine

/-! ## A whole pass 2 (R143) -/

namespace Sys2Proof.Machine

variable {s : State}

/-- The code of a symbol, empty when it has none. -/
def State.codeBitsOf (s : State) (n : Nat) : List Bool := (s.codeOf n).getD []

/-- The codes of some bytes, one after the other: `BITS` of R143 without the end-of-stream code. -/
def State.codesOf (s : State) (bs : List Byte) : List Bool := bs.flatMap fun b => s.codeBitsOf b.toNat

theorem State.codesOf_cons (s : State) (b : Byte) (bs : List Byte) :
    s.codesOf (b :: bs) = s.codeBitsOf b.toNat ++ s.codesOf bs := List.flatMap_cons

theorem readCode_eq_codeBitsOf (hs : s.codesAgree) {n : Nat} (hn : n < nsym) (hc : countAt s.codeLen n ≠ 0) :
    readCode s.codes n = .ok (s.codeBitsOf n) := by
  cases hfound : memFind s.codeLen n with
  | none => exact absurd (by simp [countAt, hfound]) hc
  | some len =>
    obtain ⟨bits, hbits, hlen⟩ := Option.map_eq_some_iff.mp (hs _ (mem_of_memFind hfound))
    have hcount : countAt s.codeLen n = len := by simp [countAt, hfound]
    have hcode : s.codeBitsOf n = bits.take (countAt s.codeLen n) := by
      simp [State.codeBitsOf, State.codeOf, hc, hbits]
    rw [hcode]
    exact readCode_of_memFind hn hc hbits (hcount.trans hlen.symm).le

/-- `ENC` of each of some bytes: their codes go into the packer one after the other, and nothing else moves but `ENCCNT`. -/
theorem execAll_encs (bs : List Byte) (is : List Instr) (hp : s.phase = .encode) (hs : s.codesAgree)
    (hn : s.encCnt + bs.length ≤ s.len) (hc : ∀ b ∈ bs, countAt s.codeLen b.toNat ≠ 0) :
    execAll (bs.map .enc ++ is) s = execAll is (s.appended (s.codesOf bs) bs.length) := by
  induction bs generalizing s with
  | nil => rfl
  | cons b bs ih =>
    rw [List.length_cons] at hn
    obtain ⟨hcb, hcbs⟩ := List.forall_mem_cons.mp hc
    have hread := readCode_eq_codeBitsOf hs (b.isLt.trans (Nat.lt_succ_self 256)) hcb
    have hfirst : exec (.enc b) s = .next (s.appended (s.codeBitsOf b.toNat) 1) :=
      exec_enc_of_readCode hp (by omega) hcb hread
    have hrest : s.encCnt + 1 + bs.length ≤ s.len := by omega
    calc execAll ((b :: bs).map .enc ++ is) s
        = execAll (bs.map .enc ++ is) (s.appended (s.codeBitsOf b.toNat) 1) := execAll_cons _ hfirst
      _ = execAll is ((s.appended (s.codeBitsOf b.toNat) 1).appended (s.codesOf bs) bs.length) :=
        ih (s := s.appended (s.codeBitsOf b.toNat) 1) hp hs hrest hcbs
      _ = execAll is (s.appended (s.codesOf (b :: bs)) (b :: bs).length) := by
        rw [State.appended_appended, State.codesOf_cons, List.length_cons, Nat.add_comm 1]

/-- Settles O37: the codes of the bytes and then of the end-of-stream symbol run through the empty packer, and the padded bytes
are the packed ones. -/
theorem packedBytesAreTheBitSequence : Obligations.PackedBytesAreTheBitSequence := by
  intro s bs hp hacc hnbits hcnt hlen hs hc heos
  have hzero : s.packer.unfilledZero := by simp [State.packer, Packer.unfilledZero, hacc]
  have hall : s.encCnt + bs.length = s.len := by omega
  have hencs : execAll (bs.map .enc ++ [.fin]) s = execAll [.fin] (s.appended (s.codesOf bs) bs.length) :=
    execAll_encs bs [.fin] hp hs hall.le hc
  have hfin := exec_fin_of_readCode (s := s.appended (s.codesOf bs) bs.length) hp hall heos
    (readCode_eq_codeBitsOf hs (by decide) heos) (appendBits_unfilledZero hzero (s.codesOf bs))
  have hout : (padLast (appendBits (appendBits s.packer (s.codesOf bs)) (s.codeBitsOf 256))).out =
      s.out ++ packed (s.codesOf bs ++ s.codeBitsOf 256) := by
    rw [← appendBits_append]
    exact padLast_appendBits_out (p := s.packer) hacc hnbits _
  calc execAll (bs.map .enc ++ [.fin]) s
      = .next { s with
          acc := 0#8, nbits := 0, encCnt := s.encCnt + bs.length, phase := .done
          out := (padLast (appendBits (appendBits s.packer (s.codesOf bs)) (s.codeBitsOf 256))).out } := by
        rw [hencs, execAll_cons _ hfin]
        rfl
    _ = .next { s with encCnt := s.len, phase := .done, out := s.out ++ packed (s.codesOf bs ++ s.codeBitsOf 256) } := by
        rw [hout, hall, ← hacc, ← hnbits]

end Sys2Proof.Machine

/-! # The Artifact Writer (44_artifact_writer.md) -/

/-! ## `NAME` (R150) -/

namespace Sys2Proof.Machine

variable {s : State}

theorem exec_name_of_nameLen_eq (d : Byte) (hp : s.phase = .load) (hn : s.nameLen = s.cfg.nameMax) :
    exec (.name d) s = .next (s.withError .nameOverflow (encode (.name d))) := by
  rw [exec, execName, dispatch_homePhase rfl hp, if_pos hn]
  exact raiseBy_eq_next.mpr rfl

/-- Settles O18: the two sides of the test of `NAMELEN` in phase `LOAD`, and the rejection every command with a phase of its own
has outside it. -/
theorem nameAppendsOneByte : Obligations.NameAppendsOneByte := by
  intro d s
  refine ⟨?word, fun hp hn => ?appends, fun hp hn => exec_name_of_nameLen_eq d hp hn, rejectedOutside_homePhase rfl s⟩
  case word =>
    have hhigh : opcodeOf (.name d) ++ 0#4 = 0x20#8 := (by decide : (0x2#4 ++ 0#4 : Byte) = 0x20#8)
    exact congrArg (· ++ d) hhigh
  case appends =>
    exact ⟨_, exec_name_of_nameLen_lt d hp hn, memFind_put_self _ _ d, fun _ hne => memFind_put_ne _ d hne⟩

end Sys2Proof.Machine

/-! ## `HDR` (R151) -/

namespace Sys2Proof.Machine

variable {s : State} {name bytes : List Byte} {entries : List TableEntry}

theorem readNames_length {cfg : Config} {m : List Host.Cell} {i n : Nat} (h : readNames cfg m i n = .ok name) :
    name.length = n := by
  induction n generalizing i name with
  | zero => cases h; rfl
  | succ n ih =>
    unfold readNames at h
    split at h
    · cases h
    · split at h
      · cases h
      · cases h
        exact congrArg (· + 1) (ih ‹_›)

/-- Entries of `NAMEBUF` that hold the bytes of a list read back as that list. -/
theorem readNames_of_found {cfg : Config} {m : List Host.Cell} {i : Nat} (hsize : i + name.length ≤ cfg.nameMax)
    (h : ∀ j < name.length, memFind m (i + j) = name[j]?) : readNames cfg m i name.length = .ok name := by
  induction name generalizing i with
  | nil => rfl
  | cons d ds ih =>
    rw [List.length_cons] at hsize
    have hread : readName cfg m i = .ok d := memRead_eq_ok.mpr ⟨by omega, h 0 (Nat.succ_pos _)⟩
    have hrest : readNames cfg m (i + 1) ds.length = .ok ds := ih (by omega) fun j hj => by
      rw [Nat.add_assoc, Nat.add_comm 1 j, h (j + 1) (Nat.succ_lt_succ hj), List.getElem?_cons_succ]
    simp [readNames, hread, hrest]

/-- The bytes of a header (R151), the name and the entries given. -/
def headerOf (name : List Byte) (entries : List TableEntry) : List Byte :=
  le32 (Int.ofNat name.length) ++ name ++ le32 (Int.ofNat entries.length) ++ entries.flatMap entryBytes

theorem entryCount_of_pos {k : Nat} (hk : 1 ≤ k) : entryCount k = Int.ofNat (2 * k - 1) := by
  rw [entryCount, Int.ofNat_eq_natCast]
  omega

/-- Everything `HDR` can emit: the header of the name and the entries that the two reads answer. -/
theorem headerBytes_eq_ok (hk : 1 ≤ s.k) :
    headerBytes s = .ok bytes ↔ ∃ name entries, readNames s.cfg s.nameBuf 0 s.nameLen = .ok name ∧
      readSlots s.table 0 (2 * s.k - 1) = .ok entries ∧ bytes = headerOf name entries := by
  rw [headerBytes]
  cases hname : readNames s.cfg s.nameBuf 0 s.nameLen with
  | error f => simp
  | ok name =>
    cases hentries : readSlots s.table 0 (2 * s.k - 1) with
    | error f => simp
    | ok entries =>
      simp [headerOf, readNames_length hname, (readSlots_zero_eq_ok hentries).1, entryCount_of_pos hk, eq_comm]

theorem exec_hdr_of_headerBytes (hp : s.phase = .coded) (h : headerBytes s = .ok bytes) :
    exec .hdr s = .next ((s.emit bytes).withPhase .encode) := by
  rw [exec, execHdr, dispatch_homePhase rfl hp, h]
  rfl

@[simp] theorem length_le32 (v : Int) : (le32 v).length = 4 := rfl

theorem length_headerOf (name : List Byte) (entries : List TableEntry) :
    (headerOf name entries).length = 4 + name.length + 4 + 12 * entries.length := by
  simp [headerOf, entryBytes, List.length_flatMap, Nat.add_assoc, Nat.mul_comm]

/-- Settles O34: the name and the entries are what the two reads answer. -/
theorem hdrEmitsHeaderAndTable : Obligations.HdrEmitsHeaderAndTable := by
  intro s
  refine ⟨by decide, fun name entries hp hsize hk1 hk hname hnames hentries hslots => ?emits, rejectedOutside_homePhase rfl s⟩
  case emits =>
    have hreadName : readNames s.cfg s.nameBuf 0 s.nameLen = .ok name := by
      rw [← hname] at hsize hnames ⊢
      exact readNames_of_found ((Nat.zero_add _).trans_le hsize) fun j hj => (Nat.zero_add j).symm ▸ hnames j hj
    have hreadSlots : readSlots s.table 0 (2 * s.k - 1) = .ok entries := by
      rw [← hentries] at hslots ⊢
      exact readSlots_zero_of_found (by simp only [tableSlots]; omega) hslots
    have hheader := (headerBytes_eq_ok hk1).mpr ⟨name, entries, hreadName, hreadSlots, rfl⟩
    refine ⟨_, exec_hdr_of_headerBytes hp hheader, ?bytes, ?length⟩
    case bytes =>
      rw [headerOf, hname, hentries]
      rfl
    case length => rw [length_headerOf, hname, hentries]

end Sys2Proof.Machine

/-! ## The parts of an artifact read back (R152, R156) -/

namespace Sys2Proof.Machine

variable {t : Memory TableEntry} {k : Nat} {name : List Byte} {e : TableEntry} {entries : List TableEntry}

/-- An entry as a decoder reads it: the fields `HDR` serializes (R151, R154). -/
def TableEntry.serialized (e : TableEntry) : ArtifactEntry := { glyph := e.glyph, left := e.left, right := e.right }

/-- The serialized fields are in the range `le32` is defined on (00_scope.md R8). -/
def TableEntry.fitsInt32 (e : TableEntry) : Prop := ∀ v ∈ [e.glyph, e.left, e.right], -2 ^ 31 ≤ v ∧ v < 2 ^ 31

theorem takeEntries_flatMap_entryBytes (h : ∀ e ∈ entries, e.fitsInt32) (rest : List Byte) :
    takeEntries entries.length (entries.flatMap entryBytes ++ rest) = some (entries.map TableEntry.serialized, rest) := by
  induction entries with
  | nil => rfl
  | cons e es ih =>
    obtain ⟨he, hes⟩ := List.forall_mem_cons.mp h
    have hfield (v : Int) (hv : v ∈ [e.glyph, e.left, e.right]) (more : List Byte) :
        takeInt32 (le32 v ++ more) = some (v, more) := takeInt32_le32 (he v hv).1 (he v hv).2 more
    simp only [List.flatMap_cons, List.length_cons, entryBytes, List.append_assoc, takeEntries, hfield e.glyph (by simp),
      hfield e.left (by simp), hfield e.right (by simp), ih hes]
    rfl

theorem takeInt32_le32_ofNat {n : Nat} (hn : n < 2 ^ 31) (rest : List Byte) :
    takeInt32 (le32 (Int.ofNat n) ++ rest) = some (Int.ofNat n, rest) :=
  takeInt32_le32 (by rw [Int.ofNat_eq_natCast]; omega) (by rw [Int.ofNat_eq_natCast]; omega) rest

/-- A header and what follows it read back as the name, the entries and the rest. -/
theorem parseArtifact_headerOf (hname : name.length < 2 ^ 31) (hlen : entries.length < 2 ^ 31)
    (h : ∀ e ∈ entries, e.fitsInt32) (rest : List Byte) :
    parseArtifact (headerOf name entries ++ rest) =
      some { name := name, entries := entries.map TableEntry.serialized, packed := rest } := by
  rw [headerOf, List.append_assoc, List.append_assoc, List.append_assoc, parseArtifact, takeInt32_le32_ofNat hname]
  simp only [Int.toNat, List.drop_left, List.take_left, takeInt32_le32_ofNat hlen, takeEntries_flatMap_entryBytes h]
  exact if_neg (by simp)

/-- The entries of a finished `BUILD`: glyphs from −1 to 256, children from −1 to 512 (10_state.md R33). -/
theorem fitsInt32_of_earlierEntry {r : Nat} (hk : k ≤ nsym) (hr : r ≤ k) (he : EarlierEntry k r e) : e.fitsInt32 := by
  have hk' : k ≤ 257 := hk
  intro v hv
  simp only [List.mem_cons, List.not_mem_nil, or_false] at hv
  rcases he with ⟨hleft, hright, h0, h256⟩ | ⟨q, hq, hglyph, hleft, hright⟩
  · omega
  · rw [Int.ofNat_eq_natCast] at hleft hright
    omega

end Sys2Proof.Machine

/-! ## The replay of the codes (R156) -/

namespace Sys2Proof.Machine

variable {es : List ArtifactEntry} {bits path : List Bool} {i : Int} {tree l r : CodeTree} {n : Nat}

/-- The subtree at entry `i` is the given tree: `treeAt` of a table, said of an artifact's entries. -/
def entriesHold (es : List ArtifactEntry) : Int → CodeTree → Prop
  | i, .leaf n => ∃ e, entryAt es i = some e ∧ e.left = -1 ∧ e.right = -1 ∧ e.glyph = Int.ofNat n
  | i, .node l r => ∃ e, entryAt es i = some e ∧ ¬(e.left = -1 ∧ e.right = -1) ∧
      entriesHold es e.left l ∧ entriesHold es e.right r

/-- The serialized entries of a finished `BUILD` hold the trees its table holds. -/
theorem entriesHold_of_treeAt {t : Memory TableEntry} {k j : Nat} {entries : List TableEntry}
    (ht : ∀ j < 2 * k - 1, slotOrdered t k j) (hslots : ∀ j < 2 * k - 1, memFind t j = entries[j]?) (hj : j < 2 * k - 1)
    (htree : treeAt t (Int.ofNat j) tree = true) : entriesHold (entries.map TableEntry.serialized) (Int.ofNat j) tree := by
  have hentry {j : Nat} (hj : j < 2 * k - 1) {e : TableEntry} (he : readChild t (Int.ofNat j) = .ok e) :
      entryAt (entries.map TableEntry.serialized) (Int.ofNat j) = some e.serialized := by
    rw [entryAt, List.getElem?_map, ← hslots j hj, memFind_of_readChild he, Option.map_some]
  induction tree generalizing j with
  | leaf n =>
    obtain ⟨e, he, hleaf⟩ := treeAt_leaf_iff.mp htree
    exact ⟨e.serialized, hentry hj he, hleaf⟩
  | node l r ihl ihr =>
    obtain ⟨e, he, hne, hl, hr⟩ := treeAt_node_iff.mp htree
    refine ⟨e.serialized, hentry hj he, hne, ?_⟩
    rcases (slotOrdered_iff.mp (ht j hj)).of_memFind (memFind_of_readChild he) with ⟨hel, her, -⟩ | ⟨q, hq, -, hel, her⟩
    · exact absurd ⟨hel, her⟩ hne
    · have hqk : q < k - 1 := hq.trans_le (mergesBelow_le hj)
      rw [hel] at hl
      rw [her] at hr
      simp only [TableEntry.serialized, hel, her]
      exact ⟨ihl (by omega) hl, ihr (by omega) hr⟩

/-- What a decoder gives at the leaf of symbol `n`, the bytes of the bits after it given: none after the end-of-stream symbol. -/
def decodedFrom (n : Nat) (rest : Option (List Byte)) : Option (List Byte) :=
  if n = 256 then some [] else rest.map (BitVec.ofNat 8 n :: ·)

/-- The turn of `replay` at the entry a bit leads to, the bits after it given. -/
def replayAt (es : List ArtifactEntry) (bits : List Bool) (i : Int) : Option (List Byte) :=
  match entryAt es i with
  | none => none
  | some x =>
    if x.left = -1 ∧ x.right = -1 then
      if x.glyph = 256 then some [] else (replay es bits 0).map (BitVec.ofInt 8 x.glyph :: ·)
    else replay es bits i

theorem replay_cons {e : ArtifactEntry} (he : entryAt es i = some e) (b : Bool) (bits : List Bool) :
    replay es (b :: bits) i = replayAt es bits (if b then e.right else e.left) := by
  rw [replay, he]
  rfl

theorem replayAt_of_leaf (h : entriesHold es i (.leaf n)) : replayAt es bits i = decodedFrom n (replay es bits 0) := by
  obtain ⟨e, he, hl, hr, hn⟩ := h
  have hend : (n : Int) = 256 ↔ n = 256 := by omega
  rw [replayAt, he]
  simp only [hl, hr, hn, hend, and_self, if_true, decodedFrom, Int.ofNat_eq_natCast, BitVec.ofInt_natCast]

theorem replayAt_of_node (h : entriesHold es i (.node l r)) : replayAt es bits i = replay es bits i := by
  obtain ⟨e, he, hne, -⟩ := h
  rw [replayAt, he]
  exact if_neg hne

theorem exists_cons_of_mem_paths {p : List Bool} {b : Bool} (h : (n, p ++ path) ∈ tree.paths (p ++ [b])) :
    ∃ path', path = b :: path' := by
  obtain ⟨path', hpath⟩ := (List.prefix_append_right_inj p).mp (CodeTree.prefix_of_mem_paths h)
  exact ⟨path', hpath.symm⟩

/-- A path of the tree leads the replay to its leaf. -/
theorem replayAt_of_mem_paths {p : List Bool} (h : entriesHold es i tree) (hpath : (n, p ++ path) ∈ tree.paths p) :
    replayAt es (path ++ bits) i = decodedFrom n (replay es bits 0) := by
  induction tree generalizing i p path with
  | leaf m =>
    obtain ⟨rfl, hnil⟩ := Prod.mk.inj (CodeTree.mem_paths_leaf.mp hpath)
    rw [List.append_right_eq_self.mp hnil, List.nil_append, replayAt_of_leaf h]
  | node l r ihl ihr =>
    have ⟨e, he, _, hl, hr⟩ := h
    rw [replayAt_of_node h]
    rcases CodeTree.mem_paths_node.mp hpath with hside | hside
    · obtain ⟨path', rfl⟩ := exists_cons_of_mem_paths hside
      exact (replay_cons he false _).trans (ihl hl (List.append_cons p false path' ▸ hside))
    · obtain ⟨path', rfl⟩ := exists_cons_of_mem_paths hside
      exact (replay_cons he true _).trans (ihr hr (List.append_cons p true path' ▸ hside))

/-- The codes of some bytes and then of the end-of-stream symbol replay as the bytes, whatever bits follow (R156). -/
theorem replay_codes {bs : List Byte} {code : Nat → List Bool} (h : entriesHold es 0 (.node l r))
    (hcode : ∀ b ∈ bs, (b.toNat, code b.toNat) ∈ (CodeTree.node l r).paths [])
    (heos : (256, code 256) ∈ (CodeTree.node l r).paths []) (pad : List Bool) :
    replay es (bs.flatMap (fun b => code b.toNat) ++ code 256 ++ pad) 0 = some bs := by
  have hsymbol {n : Nat} (hn : (n, code n) ∈ (CodeTree.node l r).paths []) (bits : List Bool) :
      replay es (code n ++ bits) 0 = decodedFrom n (replay es bits 0) :=
    (replayAt_of_node h).symm.trans (replayAt_of_mem_paths h hn)
  induction bs with
  | nil => exact hsymbol heos pad
  | cons b bs ih =>
    obtain ⟨hb, hbs⟩ := List.forall_mem_cons.mp hcode
    rw [List.flatMap_cons, List.append_assoc, List.append_assoc, hsymbol hb, ← List.append_assoc, ih hbs, decodedFrom,
      if_neg b.isLt.ne, Option.map_some, BitVec.ofNat_toNat, BitVec.setWidth_eq]

/-- The bits of the packed bytes are the sequence and zeros after it (R143). -/
theorem exists_flatMap_packed (bits : List Bool) :
    ∃ pad, (packed bits).flatMap bitsOfByte = bits ++ List.replicate pad false := by
  obtain ⟨pad, -, hbits⟩ :=
    exists_flatMap_padLast_appendBits_out (p := { acc := 0#8, nbits := 0, out := [] }) (by decide) bits
  rw [padLast_appendBits_out rfl rfl] at hbits
  exact ⟨pad, hbits⟩

end Sys2Proof.Machine

/-! ## Runs of commands -/

namespace Sys2Proof.Machine

variable {s t u : State} {is js : List Instr} {i : Instr}

theorem execAll_cons_eq_next : execAll (i :: is) s = .next t ↔ ∃ u, exec i s = .next u ∧ execAll is u = .next t := by
  rw [execAll]
  cases exec i s <;> simp

theorem execAll_append (js : List Instr) (h : execAll is s = .next t) : execAll (is ++ js) s = execAll js t := by
  induction is generalizing s with
  | nil => cases h; rfl
  | cons i is ih =>
    obtain ⟨u, hi, his⟩ := execAll_cons_eq_next.mp h
    exact (execAll_cons _ hi).trans (ih his)

/-- A property that every command keeps is kept by every run. -/
theorem execAll_keeps {P : State → Prop} (hP : ∀ {i s t}, P s → exec i s = .next t → P t) (h : execAll is s = .next t)
    (hs : P s) : P t := by
  induction is generalizing s with
  | nil => cases h; exact hs
  | cons i is ih =>
    obtain ⟨u, hi, his⟩ := execAll_cons_eq_next.mp h
    exact ih his (hP hs hi)

theorem execAll_runInv (hs : s.RunInv) (h : execAll is s = .next t) : t.RunInv := execAll_keeps exec_runInv h hs

theorem execAll_cfg (h : execAll is s = .next t) : t.cfg = s.cfg :=
  execAll_keeps (P := fun u => u.cfg = s.cfg) (fun hs hi => (exec_cfg hi).trans hs) h rfl

/-- `LEN` is written by `CNT` and `CLR` alone (10_state.md R21). -/
theorem exec_len (h : exec i s = .next t) (hclr : i ≠ .clr) (hcnt : ∀ d, i ≠ .cnt d) : t.len = s.len := by
  obtain ⟨-, -, hregs⟩ := registersWrittenOnlyByTheirCommands i s t h
  obtain ⟨-, hlen, -⟩ := hregs hclr
  exact by_contra fun hne => (hlen hne).elim hcnt

end Sys2Proof.Machine

/-! ## The program of `COMPRESS` (30_encoding.md R88, R11) -/

namespace Sys2Proof.Machine

/-- `CLR`, the name and the bytes counted. -/
def pass1Commands (n bs : List Byte) : List Instr := .clr :: (n.map .name ++ bs.map .cnt)

/-- The header, the bytes encoded and the end-of-stream code. -/
def pass2Commands (bs : List Byte) : List Instr := .hdr :: (bs.map .enc ++ [.fin])

theorem expand_compress (n bs : List Byte) :
    expand (.compress n bs) = pass1Commands n bs ++ Instr.eop :: ([Instr.build, Instr.walk] ++ pass2Commands bs) := by
  simp [expand, pass1Commands, pass2Commands]

end Sys2Proof.Machine

/-! ## Pass 1 of `COMPRESS` (30_encoding.md R88, R11) -/

namespace Sys2Proof.Machine

variable {s t : State}

/-- The counts after each of some bytes has been counted. -/
def countBytes (f : Memory Nat) (bs : List Byte) : Memory Nat := bs.foldl (fun f b => countOne f (symbolOf b)) f

theorem countAt_le_countBytes (f : Memory Nat) (bs : List Byte) (n : Nat) : countAt f n ≤ countAt (countBytes f bs) n := by
  induction bs generalizing f with
  | nil => exact le_rfl
  | cons b bs ih =>
    refine le_trans ?_ (ih (countOne f (symbolOf b)))
    by_cases hn : n = symbolOf b
    · rw [hn, countAt_countOne_self]
      exact Nat.le_succ _
    · rw [countAt_countOne_ne f hn]

theorem countAt_countBytes_pos {bs : List Byte} {b : Byte} (hb : b ∈ bs) (f : Memory Nat) :
    0 < countAt (countBytes f bs) b.toNat := by
  induction bs generalizing f with
  | nil => cases hb
  | cons c bs ih =>
    rcases List.mem_cons.mp hb with rfl | hb
    · refine Nat.lt_of_lt_of_le ?_ (countAt_le_countBytes (countOne f (symbolOf b)) bs b.toNat)
      rw [show b.toNat = symbolOf b from rfl, countAt_countOne_self]
      exact Nat.succ_pos _
    · exact ih hb (countOne f (symbolOf c))

/-- `CNT` of each of some bytes that fit: `FREQ` and `LEN` move, and nothing else. -/
theorem execAll_cnts (bs : List Byte) (hp : s.phase = .load) (hn : s.len + bs.length ≤ s.cfg.lenMax) :
    execAll (bs.map .cnt) s = .next (s.withCount (countBytes s.freq bs) (s.len + bs.length)) := by
  induction bs generalizing s with
  | nil => rfl
  | cons b bs ih =>
    rw [List.length_cons] at hn ⊢
    have hrest := ih (s := s.withCount (countOne s.freq (symbolOf b)) (s.len + 1)) hp (by simp; omega)
    rw [List.map_cons, execAll_cons _ (exec_cnt_of_len_ne b hp (by omega)), hrest, Nat.add_comm bs.length, ← Nat.add_assoc]
    rfl

theorem State.Inv.len_eq_zero (hs : s.Inv) (hfreq : s.freq = []) : s.len = 0 := by
  obtain ⟨-, -, -, -, -, hsum⟩ := hs
  rw [← hsum, hfreq, byteSum_nil]

/-- `CLR`, the name and pass 1: every byte of the input is counted. -/
theorem execAll_pass1 {n bs : List Byte} (hcfg : s.cfg.wf) (hn : n.length ≤ s.cfg.nameMax) (hbs : bs.length ≤ s.cfg.lenMax) :
    ∃ t, execAll (pass1Commands n bs) s = .next t ∧ t.RunInv ∧ t.phase = .load ∧ t.len = bs.length ∧
      ∀ b ∈ bs, 0 < countAt t.freq b.toNat := by
  have hcleared : s.cleared.RunInv := ⟨s.inv_cleared, hcfg, s.phaseFacts_cleared⟩
  obtain ⟨u, hnames, hpu, hfreq, -⟩ := execAll_names (s := s.cleared) n [] rfl ((Nat.zero_add _).trans_le hn)
  replace hnames : execAll (n.map .name) s.cleared = .next u := by rwa [List.append_nil] at hnames
  have ⟨huinv, _, _⟩ := execAll_runInv hcleared hnames
  have hlen : u.len = 0 := huinv.len_eq_zero hfreq
  have hcfgu : u.cfg = s.cleared.cfg := execAll_cfg hnames
  have hcnts := execAll_cnts bs hpu (by rw [hlen, hcfgu, Nat.zero_add]; exact hbs)
  have hrun : execAll (pass1Commands n bs) s = .next (u.withCount (countBytes u.freq bs) (u.len + bs.length)) := by
    rw [pass1Commands, execAll_cons _ (exec_clr s), execAll_append _ hnames, hcnts]
  refine ⟨_, hrun, execAll_runInv (execAll_runInv hcleared hnames) hcnts, hpu, ?_, fun b hb => countAt_countBytes_pos hb u.freq⟩
  rw [State.withCount_len, hlen, Nat.zero_add]

/-- `EOP` after at least one byte: a symbol beside the end-of-stream symbol is present. -/
theorem exec_eop_of_nonempty (hs : s.RunInv) (hp : s.phase = .load) (hlen : 1 ≤ s.len) :
    ∃ t, exec .eop s = .next t ∧ t.RunInv ∧ t.phase = .counted ∧ 2 ≤ t.k ∧ t.len = s.len ∧ countAt t.freq 256 = 1 ∧
      ∀ n < 256, countAt t.freq n = countAt s.freq n := by
  have heop := exec_eop_of_load hp
  obtain ⟨-, -, -, -, -, hk⟩ := histogramAfterEop s _ hs.1 hp heop
  exact ⟨_, heop, exec_runInv hs heop, rfl, hk.mpr hlen, rfl, countAt_setCount_eos s.freq,
    fun n hn => countAt_setCount_eos_ne s.freq hn.ne⟩

end Sys2Proof.Machine

/-! ## Pass 2 of `COMPRESS` (30_encoding.md R88, R11) -/

namespace Sys2Proof.Machine

variable {s : State} {l r : CodeTree}

/-- `BUILD` and `WALK` give every present symbol the path to its leaf in the tree of the table. -/
theorem execAll_build_walk (hs : s.RunInv) (hp : s.phase = .counted) (hk2 : 2 ≤ s.k) :
    ∃ t l r, execAll [.build, .walk] s = .next t ∧ t.phase = .coded ∧ t.len = s.len ∧ treeAt t.table 0 (.node l r) = true ∧
      ∀ n ≤ 256, 0 < countAt s.freq n →
        countAt t.codeLen n ≠ 0 ∧ (n, t.codeBitsOf n) ∈ (CodeTree.node l r).paths [] := by
  have ⟨hinv, _, hfacts⟩ := hs
  obtain ⟨⟨-, hk⟩, -⟩ := (State.phaseFacts_counted hp).mp hfacts
  have hkle : s.k ≤ 257 := hinv.k_le
  obtain ⟨u, hbuild, hpu, hempty, hordered⟩ := exec_build_ordered hs hp hk2
  obtain ⟨l, r, htree, hdepth⟩ := exists_rootTree hk2 hkle hordered
  replace hdepth : (CodeTree.node l r).depth ≤ 256 := by omega
  obtain ⟨t, hwalk⟩ := exec_completes (exec_runInv hs hbuild) .walk
  obtain ⟨-, ht⟩ := (exec_walk_eq_next hpu htree hdepth).mp hwalk
  have hlen : t.len = s.len := (exec_len hwalk nofun nofun).trans (exec_len hbuild nofun nofun)
  refine ⟨t, l, r, ?run, by rw [ht, State.withPhase_phase], hlen, ?tree, fun n hn hpos => ?code⟩
  case run =>
    rw [execAll_cons _ hbuild, execAll_cons _ hwalk]
    rfl
  case tree => rwa [ht, State.withPhase_table, State.withCodes_table]
  case code =>
    have hmem := (mem_symbols_root_iff hp hk2 hk hbuild hordered htree hn).mpr hpos
    obtain ⟨p, hpath, hcode, -⟩ := (exec_walk_code hpu htree hdepth hempty hwalk n).1 hmem
    refine ⟨(exec_walk_codeLen_ne_zero_iff hpu htree hdepth hempty hwalk n).mpr hmem, ?_⟩
    rwa [State.codeBitsOf, hcode, Option.getD_some]

/-- `HDR` and pass 2 in a run: the header of the name and the table, then the packed bytes of the codes. -/
theorem execAll_hdr_pass2 {bs : List Byte} (hs : s.RunInv) (hp : s.phase = .coded) (hlen : s.len = bs.length)
    (hcodes : ∀ b ∈ bs, countAt s.codeLen b.toNat ≠ 0) (heos : countAt s.codeLen 256 ≠ 0) :
    ∃ t name entries, execAll (pass2Commands bs) s = .next t ∧ t.phase = .done ∧ name.length = s.nameLen ∧
      readSlots s.table 0 (2 * s.k - 1) = .ok entries ∧
      t.out = headerOf name entries ++ packed (s.codesOf bs ++ s.codeBitsOf 256) := by
  have ⟨hinv, _, hfacts⟩ := hs
  obtain ⟨-, ⟨hk2, -, -, hordered⟩, hcnt, hacc, hnbits, hout⟩ := (State.phaseFacts_coded hp).mp hfacts
  have ⟨_, _, _, hagree, _⟩ := hinv
  obtain ⟨bytes, hbytes⟩ := headerBytes_completes hinv hordered
  obtain ⟨name, entries, hname, hentries, rfl⟩ := (headerBytes_eq_ok (Nat.le_of_succ_le hk2)).mp hbytes
  have hpass2 := packedBytesAreTheBitSequence ((s.emit (headerOf name entries)).withPhase .encode) bs rfl hacc hnbits hcnt hlen
    hagree hcodes heos
  refine ⟨_, name, entries, (execAll_cons _ (exec_hdr_of_headerBytes hp hbytes)).trans hpass2, rfl, readNames_length hname,
    hentries, ?_⟩
  rw [State.withPhase_out, State.emit_out, hout]
  rfl

end Sys2Proof.Machine

/-! ## `COMPRESS` and the decoder (R156) -/

namespace Sys2Proof.Machine

variable {s : State} {l r : CodeTree} {name : List Byte} {entries : List TableEntry}

/-- The entries of a finished `BUILD`, read back, are its slots; their fields are int32s. -/
theorem fitsInt32_of_readSlots (hk : s.k ≤ nsym) (ht : tableOrdered s.table s.k)
    (hread : readSlots s.table 0 (2 * s.k - 1) = .ok entries) : ∀ e ∈ entries, e.fitsInt32 := by
  obtain ⟨hlen, -, hslots⟩ := readSlots_zero_eq_ok hread
  obtain ⟨hordered, -⟩ := ht
  intro e he
  obtain ⟨j, hj, rfl⟩ := List.mem_iff_getElem.mp he
  have hj' : j < 2 * s.k - 1 := hlen ▸ hj
  have hfound : memFind s.table j = some entries[j] := (hslots j hj').trans (List.getElem?_eq_getElem hj)
  exact fitsInt32_of_earlierEntry hk ((mergesBelow_le hj').trans (Nat.sub_le _ _))
    ((slotOrdered_iff.mp (hordered j hj')).of_memFind hfound)

/-- The decoder reads back bytes whose codes are the paths of the tree in the header's table. -/
theorem decodeArtifact_of_paths {bs : List Byte} (hk2 : 2 ≤ s.k) (hk : s.k ≤ nsym) (ht : tableOrdered s.table s.k)
    (htree : treeAt s.table 0 (.node l r) = true) (hname : name.length < 2 ^ 31)
    (hread : readSlots s.table 0 (2 * s.k - 1) = .ok entries)
    (hcodes : ∀ b ∈ bs, (b.toNat, s.codeBitsOf b.toNat) ∈ (CodeTree.node l r).paths [])
    (heos : (256, s.codeBitsOf 256) ∈ (CodeTree.node l r).paths []) :
    decodeArtifact (headerOf name entries ++ packed (s.codesOf bs ++ s.codeBitsOf 256)) = some bs := by
  have hk' : s.k ≤ 257 := hk
  obtain ⟨hlen, -, hslots⟩ := readSlots_zero_eq_ok hread
  obtain ⟨pad, hbits⟩ := exists_flatMap_packed (s.codesOf bs ++ s.codeBitsOf 256)
  rw [decodeArtifact, parseArtifact_headerOf hname (by omega) (fitsInt32_of_readSlots hk ht hread)]
  simp only [hbits]
  exact replay_codes (entriesHold_of_treeAt (j := 0) ht.1 hslots (by omega) htree) hcodes heos _

/-- Settles O46: pass 1 counts the input, `BUILD` and `WALK` give its bytes and the end-of-stream symbol the paths of the tree,
`HDR` emits the tree and pass 2 the paths, which the decoder follows. -/
theorem compressRoundTrip : Obligations.CompressRoundTrip := by
  intro s n bs hcfg hn hbs hmax
  obtain ⟨t1, hpass1, hs1, hp1, hlen1, hpos1⟩ := execAll_pass1 hcfg hn hmax
  obtain ⟨t2, heop, hs2, hp2, hk2, hlen2, heos2, hfreq2⟩ := exec_eop_of_nonempty hs1 hp1 (hlen1 ▸ hbs)
  obtain ⟨t3, l, r, hbuild, hp3, hlen3, htree, hcodes⟩ := execAll_build_walk hs2 hp2 hk2
  have hs3 := execAll_runInv hs2 hbuild
  have hbyte (b : Byte) (hb : b ∈ bs) := hcodes b.toNat b.isLt.le ((hpos1 b hb).trans_eq (hfreq2 _ b.isLt).symm)
  have heos := hcodes 256 le_rfl (one_pos.trans_eq heos2.symm)
  obtain ⟨t4, name, entries, hpass2, hp4, hname, hread, hout⟩ :=
    execAll_hdr_pass2 hs3 hp3 (hlen3.trans (hlen2.trans hlen1)) (fun b hb => (hbyte b hb).1) heos.1
  have hrun : execAll (expand (.compress n bs)) s = .next t4 := by
    rw [expand_compress, execAll_append _ hpass1, execAll_cons _ heop, execAll_append _ hbuild, hpass2]
  have ⟨hinv, hwf, hfacts⟩ := hs3
  obtain ⟨-, ⟨hk, -, -, hordered⟩, -⟩ := (State.phaseFacts_coded hp3).mp hfacts
  have ⟨_, ⟨hnameLen, _⟩, _⟩ := hinv
  refine ⟨t4, hrun, hp4, ?_⟩
  rw [hout]
  exact decodeArtifact_of_paths hk hinv.k_le hordered htree (by omega) hread (fun b hb => (hbyte b hb).2) heos.2

end Sys2Proof.Machine

/-! # Control (45_control.md) -/

/-! ## The words of opcode 0 (R160) -/

namespace Sys2Proof

theorem opField_eq_zero_of_lt {w : Word} (h : w.toNat < 0x1000) : opField w = 0#4 := by
  apply BitVec.eq_of_toNat_eq
  rw [opField, BitVec.extractLsb'_toNat, Nat.shiftRight_eq_div_pow, Nat.div_eq_of_lt h]
  rfl

theorem opcodeOf_eq_zero_iff {i : Instr} : opcodeOf i = 0#4 ↔ i = .nop := by
  cases i <;> simp [opcodeOf]

/-- The only legal word below `0x1000` is that of `NOP` (45_control.md R160). -/
theorem eq_nop_of_toNat_encode_lt {i : Instr} (h : (encode i).toNat < 0x1000) : i = .nop :=
  opcodeOf_eq_zero_iff.mp ((opField_encode i).symm.trans (opField_eq_zero_of_lt h))

end Sys2Proof

/-! ## `NOP` (R160) and `CLR` (R161) -/

namespace Sys2Proof.Machine

/-- Settles O16: a word below `0x1000` that decodes is the word of `NOP`, which is 0. -/
theorem nopDoesNothing : Obligations.NopDoesNothing := by
  refine ⟨exec_nop, by decide, fun w hpos hle => ?_⟩
  cases hdec : decode w with
  | error e => exact ⟨e, rfl⟩
  | ok i =>
    obtain rfl := encode_of_decode hdec
    obtain rfl := eq_nop_of_toNat_encode_lt (Nat.lt_succ_of_le hle)
    exact absurd hpos (by decide)

/-- Settles O17: `CLR` leaves the reset state of the same parameters, with the inputs that wait. -/
theorem clrReturnsToReset : Obligations.ClrReturnsToReset := by
  refine ⟨by decide, fun s => ?_⟩
  rw [exec_clr, s.cleared_eq_reset]
  rfl

end Sys2Proof.Machine

/-! # Errors (60_exceptions.md) -/

/-! ## The step on a command word (R170) -/

namespace Sys2Proof

theorem tableWord_toNat (w : Word) : tableWord 16 w.toNat = w := by
  rw [tableWord, Nat.mod_eq_of_lt w.isLt, BitVec.ofNat_toNat, BitVec.setWidth_eq]

/-- `0x1000` is the only word of `CLR`. -/
theorem ne_clr_of_decode {w : Word} {i : Instr} (hdec : decode w = .ok i) (hw : w ≠ 0x1000#16) : i ≠ .clr := by
  rintro rfl
  have hword : 0x1000#16 = w := encode_of_decode hdec
  exact hw hword.symm

end Sys2Proof

namespace Sys2Proof.Machine

variable {s t : State} {w : Word} {rest : List HostInput} {i : Instr} {code : ErrCode}

/-- The step on a legal word. -/
theorem step_of_decode (hin : s.input = .word w :: rest) (hdec : decode w = .ok i) : step s = exec i (s.withInput rest) := by
  rw [step_word hin, stepWord_legal hdec]

/-- Settles O5: the word is at the head of the waiting inputs, and `withFetchWord` puts it there. -/
theorem stepRunsTheDecodedCommand : Obligations.StepRunsTheDecodedCommand := by
  intro s w i hdec
  have hfetch : (s.withFetchWord 16 w.toNat).input = .word w :: s.input := by
    rw [State.withFetchWord, State.withInput_input, tableWord_toNat]
  exact ⟨fun rest hin => step_of_decode hin hdec, step_of_decode hfetch hdec⟩

/-! ## Entering phase `ERROR` (R172) -/

/-- A command that enters phase `ERROR` did nothing but raise an error. -/
theorem exec_enters_error (h : exec i s = .next t) (hs : s.phase ≠ .error) (ht : t.phase = .error) :
    ∃ code, code ≠ .noError ∧ t = s.withError code (encode i) := by
  cases exec_effect h with
  | err _ code hc heq => exact ⟨code, hc, heq⟩
  | same heq | name d m _ _ _ _ heq | cnt d _ _ _ heq | enc d p _ _ _ _ _ heq =>
    subst heq
    exact absurd ht hs
  | clear _ heq | eop _ _ heq | build b _ _ _ _ heq | walk c _ _ _ heq | hdr bytes _ _ _ heq | fin p _ _ _ _ _ heq =>
    subst heq
    cases ht

/-- Settles O11: only a command that raises an error and an illegal word enter phase `ERROR`. -/
theorem errorsArePrecise : Obligations.ErrorsArePrecise := by
  intro s t h hs ht
  rcases step_cases h with ⟨-, rfl⟩ | ⟨rest, -, rfl⟩ | ⟨w, rest, i, hin, hdec, hexec⟩ | ⟨w, rest, e, hin, -, rfl⟩
  · exact absurd ht hs
  · cases ht
  · obtain ⟨code, hcode, rfl⟩ := exec_enters_error hexec hs ht
    exact ⟨w, rest, code, hin, hcode, by rw [encode_of_decode hdec]; rfl, rfl⟩
  · rw [if_neg hs]
    exact ⟨w, rest, .illegalCmd, hin, by decide, rfl, rfl⟩

/-! ## Staying in phase `ERROR` and leaving it (R174, R175) -/

/-- Settles O12: an illegal word is ignored, and so is every command but `CLR`. -/
theorem errorPhaseIsSticky : Obligations.ErrorPhaseIsSticky := by
  intro s w rest hp hin hw
  cases hdec : decode w with
  | ok i =>
    rw [step_of_decode hin hdec]
    exact exec_of_phase_error hp (ne_clr_of_decode hdec hw)
  | error e =>
    rw [step_word hin, stepWord_of_decode_error hdec]
    exact congrArg _ (if_pos hp)

/-- Settles O13: with nothing waiting, or on another word than that of `CLR`, the block stays in phase `ERROR`. -/
theorem onlyClrOrResetLeavesError : Obligations.OnlyClrOrResetLeavesError := by
  intro s t h hp ht
  rcases hin : s.input with _ | ⟨w | _, rest⟩
  · rw [step_idle hin] at h
    cases h
    exact absurd hp ht
  · by_cases hw : w = 0x1000#16
    · subst hw
      have hdec : decode 0x1000#16 = .ok .clr := by decide
      rw [step_of_decode hin hdec, exec_clr] at h
      cases h
      exact ⟨rest, .inl rfl, State.cleared_eq_reset _⟩
    · rw [errorPhaseIsSticky s w rest hp hin hw] at h
      cases h
      exact absurd hp ht
  · rw [step_reset hin] at h
    cases h
    exact ⟨rest, .inr rfl, State.cleared_eq_reset _⟩

/-! ## The order of the error tests (R173) -/

/-- `ERRW` gets the word consumed when the command it decodes to raises an error. -/
theorem step_raises_of_decode (hin : s.input = .word w :: rest) (hdec : decode w = .ok i)
    (h : exec i (s.withInput rest) = .next ((s.withInput rest).withError code (encode i))) :
    step s = .next ((s.withInput rest).withError code w) := by
  rw [step_of_decode hin hdec, h, encode_of_decode hdec]

/-- Outside phase `ERROR` the test of the word comes first. -/
theorem step_raises_illegalCmd (hin : s.input = .word w :: rest) (hp : s.phase ≠ .error) (hdec : ∃ e, decode w = .error e) :
    step s = .next ((s.withInput rest).withError .illegalCmd w) := by
  obtain ⟨e, hdec⟩ := hdec
  rw [step_word hin, stepWord_of_decode_error hdec]
  exact congrArg _ (if_neg hp)

/-- The test of the phase comes before the tests of the command. -/
theorem step_raises_protocol {home : Phase} (hin : s.input = .word w :: rest) (hdec : decode w = .ok i)
    (hhome : homePhase i = some home) (hp : s.phase ≠ .error) (hne : s.phase ≠ home) :
    step s = .next ((s.withInput rest).withError .protocol w) :=
  step_raises_of_decode hin hdec ((rejectedOutside_homePhase hhome (s.withInput rest)).2 hp hne)

/-- Settles O14: one lemma for each test, in the order of R173, then the two words R173 names. -/
theorem errorPriority : Obligations.ErrorPriority := by
  intro s w rest hin
  refine ⟨fun hp => errorPhaseIsSticky s w rest hp hin, step_raises_illegalCmd hin,
    fun i home hdec => step_raises_protocol hin hdec, fun hp d hdec hn => ?encCount, fun hp d hdec hn hc => ?encCode,
    fun hp hdec hn => ?finCount, fun hp hdec hn hc => ?finCode, fun hp hw => ?encInLoad, fun hp hw => ?illegalEnc⟩
  case encCount => exact step_raises_of_decode hin hdec (exec_enc_of_encCnt_eq d hp hn)
  case encCode => exact step_raises_of_decode hin hdec (exec_enc_of_no_code hp hn hc)
  case finCount => exact step_raises_of_decode hin hdec (exec_fin_of_encCnt_ne hp hn)
  case finCode => exact step_raises_of_decode hin hdec (exec_fin_of_no_code hp hn hc)
  case encInLoad =>
    have hdec : decode w = .ok (.enc 0x42#8) := by subst hw; decide
    exact step_raises_protocol hin hdec rfl (by simp [hp]) (by simp [hp])
  case illegalEnc =>
    have hdec : decode w = .error .reservedBits := by subst hw; decide
    exact step_raises_illegalCmd hin hp ⟨_, hdec⟩

end Sys2Proof.Machine

/-! # Reset and the idle block (70_reset_and_hazards.md) -/

namespace Sys2Proof.Machine

/-- Settles O6: a reset takes effect on the state with its own input consumed, whose parameters and waiting inputs it keeps. -/
theorem resetInputAndIdle : Obligations.ResetInputAndIdle := by
  intro s
  refine ⟨fun rest hin => ?_, step_idle⟩
  calc step s = .next (s.withInput rest).cleared := step_reset hin
    _ = .next ((State.resetWith s.cfg).withInput rest) := congrArg _ (State.cleared_eq_reset (s.withInput rest))

end Sys2Proof.Machine
